-- ==== Sys2Proof/Word.lean ====
section
/-! DEFINITION. The value types of the spec's notation (00_scope.md R8, R9): bytes, register words, bit sequences
and byte sequences. -/

namespace Sys2Proof

/-- One symbol: a byte value 0-255 (SYMBOL_WIDTH = 8, 00_scope.md R6). -/
abbrev Byte := BitVec 8

/-- One shell register: REG_WIDTH = 32 bits (00_scope.md R6, 10_state.md R16). -/
abbrev Word := BitVec 32

/-- A finite bit sequence; the first element is the first bit transmitted (00_scope.md R9). A bit 1 is `true`. -/
abbrev Bits := List Bool

/-- A finite byte sequence (00_scope.md R9). -/
abbrev Bytes := List Byte

end Sys2Proof
end

