-- ==== Sys2Proof/Config.lean ====
section
/-! DEFINITION. What is fixed for one machine: the implementation parameters of 00_scope.md R6 and R7, and the free
values, which nothing in Lean can evaluate. -/

namespace Sys2Proof

/-- The parameters of 00_scope.md R6 that an implementation chooses. They stand in `State.params`, no step changes
them, and reset has the defaults, so a statement about every state is one about every parameter value (log 1). -/
structure Params where
  /-- IBUF_SIZE, bytes in the input buffer. -/
  ibufSize : Nat
  /-- OBUF_SIZE, bytes in the output buffer. -/
  obufSize : Nat
  deriving DecidableEq, Repr

/-- The default parameters of 00_scope.md R6. -/
def Params.default : Params := { ibufSize := 65536, obufSize := 524288 }

namespace Config

/-- TREE_SIZE_WIDTH, the width of the tree-size header (00_scope.md R6). -/
abbrev treeSizeWidth : Nat := 16

/-- TREE_SIZE_MAX, the largest legal tree size (00_scope.md R6). -/
abbrev treeSizeMax : Nat := 65535

/-- PAD_MAX, the largest legal padding count (00_scope.md R6). -/
abbrev padMax : Nat := 7

/-- FREQ_WIDTH, the width of each frequency counter and tree weight (00_scope.md R6). The model counts exactly
(log 14). -/
abbrev freqWidth : Nat := 32

/-- NODE_CAP, the tree nodes the deserializer can hold (00_scope.md R6, 41_tree_codec.md R85; log 16). -/
abbrev nodeCap : Nat := 13105

/-- The largest buffer size, 2^20 (00_scope.md R6, R7). -/
abbrev maxBufferSize : Nat := 1048576

/-- 2^ADDR_WIDTH: the first number that is no block offset (20_memory.md R35). -/
abbrev addressSpaceEnd : Nat := 0x1000000

/-- The offset of IBUF⟨0⟩ (20_memory.md R35). -/
abbrev ibufBase : Nat := 0x100000

/-- The offset of OBUF⟨0⟩ (20_memory.md R35). -/
abbrev obufBase : Nat := 0x200000

/-- BLOCK_BASE, the block's place in the system address map: OPEN (20_memory.md R35, 93 item 22; log 2). -/
opaque blockBase : Nat

/-- The free draw with number `k` for a byte whose value the spec leaves unspecified (93 items 7-11; log 6). -/
opaque freeByte : Nat → Byte

/-- The free draw with number `k` for an OUT_LEN read while BUSY = 1 (70_reset_and_hazards.md R136; log 6). -/
opaque freeWord : Nat → Word

/-- The system address of a block offset: the host adds BLOCK_BASE to every offset (20_memory.md R35). -/
def systemAddress (offset : Nat) : Nat := blockBase + offset

/-- The host address of IBUF⟨i⟩ (45_command_interface.md R115). -/
def ibufAddress (i : Nat) : Nat := systemAddress (ibufBase + i)

/-- The host address of OBUF⟨j⟩ (45_command_interface.md R115). -/
def obufAddress (j : Nat) : Nat := systemAddress (obufBase + j)

end Config

/-- The parameter values 00_scope.md R6 and R7 allow: each buffer size is in 1..2^20 and no counter can wrap. -/
abbrev Params.Legal (p : Params) : Prop :=
  (1 ≤ p.ibufSize ∧ p.ibufSize ≤ Config.maxBufferSize) ∧ (1 ≤ p.obufSize ∧ p.obufSize ≤ Config.maxBufferSize)
    ∧ p.ibufSize < 2 ^ Config.freqWidth

end Sys2Proof
end

