-- ==== Sys2Proof/Machine/Operands.lean ====
section
/-! DEFINITION. Operand assembly (30_encoding.md R63): number and bit conversions, the fields of a frame and of its
trailer. Every field is unsigned and read most significant bit first. -/

namespace Sys2Proof.Machine

/-- `bits_be(v, w)` (00_scope.md R10): the w bits of v, most significant first. -/
def bitsBE (v : Nat) : Nat → Bits
  | 0 => []
  | w + 1 => v.testBit w :: bitsBE v w

/-- `val_be(s)` (00_scope.md R10): the number a bit sequence writes, most significant bit first. -/
def valBE (s : Bits) : Nat := s.foldl (fun acc b => 2 * acc + b.toNat) 0

/-- The byte eight bits write (30_encoding.md R63: a symbol is `val_be` of the 8 bits after a leaf marker). -/
def byteBE (s : Bits) : Byte := BitVec.ofNat 8 (valBE s)

/-- ParseTrailer (42_bit_packer.md R91): (flag, p) of a trailer byte; bits 3:1 are not read. -/
def parseTrailer (tr : Byte) : Bool × Nat := (tr.getLsbD 0, (tr.extractLsb' 4 4).toNat)

/-- MakeTrailer(compressed, p) (42_bit_packer.md R90): `(p << 4) | 0x01`. -/
def makeTrailer (p : Nat) : Byte := BitVec.ofNat 8 ((p <<< 4) ||| 0x01)

/-- MakeTrailer(stored) (42_bit_packer.md R90): 0x00. -/
def storedTrailer : Byte := 0x00#8

/-- The tree-size header T of a frame's bits (30_encoding.md R60, R63). -/
def treeSizeOf (f : Bits) : Nat := valBE (f.take Config.treeSizeWidth)

end Sys2Proof.Machine
end

