-- ==== Sys2Proof/Machine/BitPacker.lean ====
section
/-! DEFINITION. The bitstream packer and unpacker (42_bit_packer.md R87, R88). The trailer byte is in Operands. -/

namespace Sys2Proof.Machine

/-- The padding count of L bits (42_bit_packer.md R87). -/
def padCount (len : Nat) : Nat := (8 - len % 8) % 8

/-- Pack (42_bit_packer.md R87): the padded bits in groups of eight, and the padding count. -/
def pack (bits : Bits) : Bytes × Nat :=
  let p := padCount bits.length
  let padded := bits ++ List.replicate p false
  ((List.range (padded.length / 8)).map fun j => byteBE ((padded.drop (8 * j)).take 8), p)

/-- Unpack (42_bit_packer.md R88): eight bits for each byte, no padding stripped. -/
def unpack (bytes : Bytes) : Bits := bytes.flatMap fun b => bitsBE b.toNat 8

end Sys2Proof.Machine
end

