-- ==== Sys2Proof/Machine/State.lean ====
section
/-! DEFINITION. The state of the machine as plain data: the shell registers and buffers (10_state.md R15-R26), the
transient core state (R27-R32), and the two agents outside the core, the host and the scheduler. -/

namespace Sys2Proof.Machine

/-- The prefix tree (00_scope.md R11): every internal node has exactly two children. -/
inductive PrefixTree where
  | leaf (sym : Byte)
  | internal (left right : PrefixTree)
  deriving DecidableEq, Repr

/-- A node of the node store during a build (10_state.md R29): its weight, its order key and its tree. -/
structure Entry where
  weight : Nat
  key : Nat
  tree : PrefixTree
  deriving DecidableEq, Repr

/-- The CodeTable (10_state.md R30): a partial map from symbol value to bit sequence, its keys rising. -/
abbrev CodeTable := List (Nat × Bits)

/-- A buffer: (index, byte) pairs, indexes strictly rising; an unlisted index holds no value the spec gives. -/
abbrev Memory := List Host.Cell

/-- The host's variables: (name, value) pairs, names (numbers) strictly rising (30_encoding.md R70; log 5). -/
abbrev Vars := List (Nat × Word)

/-- The error kinds (60_exceptions.md R117). -/
inductive ErrorKind where
  /-- The serialized tree is longer than 65535 bits (R82); unreachable through COMPRESS. -/
  | treeTooLarge
  /-- The TREE field is not one node in exactly T bits (R83). -/
  | malformedTree
  /-- The frame layout or its data is inconsistent (R98, R99). -/
  | corruptStream
  /-- A symbol without a code (R92); unreachable. -/
  | logicError
  /-- A CMD word other than 1 and 2 (R105). -/
  | illegalCommand
  /-- The latched IN_LEN exceeds IBUF_SIZE (R106). -/
  | lengthError
  /-- The result exceeds OBUF_SIZE (R107). -/
  | outputOverflow
  deriving DecidableEq, Repr

/-- What a codec function returns (00_scope.md R12): Ok with the output bytes, or Err with a kind. -/
abbrev Result := Except ErrorKind Bytes

/-- The two operations (10_state.md R27). -/
inductive Op where
  | compress
  | decompress
  deriving DecidableEq, Repr

/-- The command latch (10_state.md R27): the operation, and n = IN_LEN as it stood at acceptance. -/
structure Latch where
  op : Op
  n : Word
  deriving DecidableEq, Repr

/-- The transient state of a running command (10_state.md R28-R32), one constructor for each internal step the core has
still to take. No host access reads or writes it (R34). -/
inductive Work where
  /-- The command is accepted and no input byte is read. -/
  | accepted
  /-- COMPRESS: the input bytes are read. -/
  | loaded (data : Bytes)
  /-- COMPRESS: the FrequencyTable is built (R28). -/
  | counted (data : Bytes) (freq : List Nat)
  /-- COMPRESS: BuildTree is merging; `queue` is the node store (R29), `next` the next internal key. -/
  | building (data : Bytes) (queue : List Entry) (next : Nat)
  /-- COMPRESS: the tree is built. -/
  | treed (data : Bytes) (tree : PrefixTree)
  /-- COMPRESS: the CodeTable is built (R30). -/
  | coded (data : Bytes) (tree : PrefixTree) (codes : CodeTable)
  /-- COMPRESS: the tree is serialized to `tb` (R31). -/
  | serialized (data : Bytes) (tree : PrefixTree) (codes : CodeTable) (tb : Bits)
  /-- COMPRESS: the input is encoded to `d` (R31). -/
  | encoded (data : Bytes) (tb d : Bits)
  /-- COMPRESS: the frame bits are assembled (R31). -/
  | assembled (data : Bytes) (frame : Bits)
  /-- COMPRESS: the frame is packed with padding count `p` (R31). -/
  | packed (data : Bytes) (bytes : Bytes) (p : Nat)
  /-- DECOMPRESS: the frame is read and its kind is to be decoded (30_encoding.md R64). -/
  | frame (input : Bytes)
  /-- DECOMPRESS: the TREE field `tb` is parsed at bit `cursor`; `stack` has one entry for each open Internal node,
  innermost first: its left subtree once that is parsed (R32). `d` is the data region. -/
  | tree (tb : Bits) (cursor : Nat) (stack : List (Option PrefixTree)) (d : Bits)
  /-- DECOMPRESS: the walk over data bits `d` from bit `pos`; `cur` is the walk cursor, `depth` its depth, `out` the
  bytes emitted (R32, 44_decoder.md R99). -/
  | walk (tree cur : PrefixTree) (depth : Nat) (d : Bits) (pos : Nat) (out : Bytes)
  /-- The codec function's result is known; the atomic completion is still to come (45_command_interface.md R108). -/
  | finished (r : Result)
  deriving DecidableEq, Repr

/-- The core state machine (10_state.md R15). Its transient state exists exactly while it is BUSY (R33). -/
inductive Core where
  | idle
  | busy (latch : Latch) (work : Work)
  deriving DecidableEq, Repr

/-- A value in a host statement: a literal, or a host variable (30_encoding.md R70). -/
inductive Val where
  | lit (v : Word)
  | var (name : Nat)
  deriving DecidableEq, Repr

/-- The host-script statements (30_encoding.md R70); names and labels are numbers (log 5). -/
inductive Stmt where
  | wr32 (off : Nat) (v : Val)
  | rd32 (off : Nat) (name : Nat)
  | wr8 (off : Nat) (v : Val)
  | rd8 (off : Nat) (name : Nat)
  | poll (off : Nat) (mask : Word) (v : Val)
  | label (name : Nat)
  | bnz (name : Nat) (target : Nat)
  deriving DecidableEq, Repr

/-- The host agent (10_state.md R13): its script, the position of its next statement, its variables. It is outside the
block (30_encoding.md R70; log 5). -/
structure HostAgent where
  script : List Stmt
  pos : Nat
  vars : Vars
  deriving DecidableEq, Repr

/-- Which agent moves (log 4). -/
inductive Move where
  /-- The host executes its next statement. -/
  | host
  /-- The core takes the atomic completion step of 45_command_interface.md R108. -/
  | complete
  /-- The core takes one internal step towards that completion (log 3). -/
  | inner
  /-- The platform applies reset (70_reset_and_hazards.md R131). -/
  | reset
  deriving DecidableEq, Repr

/-- The machine. CMD stores nothing and so has no field (10_state.md R17); STATUS.BUSY is the core state machine itself
(R15, R19; log 25). -/
structure State where
  /-- The machine's parameters (00_scope.md R6; log 1). -/
  params : Params
  /-- The core state machine, with the command latch and the transient state while BUSY (10_state.md R15, R27-R32). -/
  core : Core
  /-- STATUS.DONE (10_state.md R20). -/
  done : Bool
  /-- STATUS.ERR (10_state.md R21). -/
  err : BitVec 4
  /-- IN_LEN (10_state.md R22). -/
  inLen : Word
  /-- OUT_LEN (10_state.md R23). -/
  outLen : Word
  /-- IBUF (10_state.md R25): the bytes written since reset. -/
  ibuf : Memory
  /-- OBUF (10_state.md R26): the bytes whose value the spec gives. -/
  obuf : Memory
  /-- The model's own: how many free values have been drawn (log 6). -/
  draws : Nat
  /-- The host agent (10_state.md R13). -/
  host : HostAgent
  /-- The scheduler's remaining choices, first move first (log 4). -/
  plan : List Move
  deriving DecidableEq, Repr

/-- Why the machine stops. Both stop a program the spec says a model faults on, so both are safe: no claim about such a
program can be proved. -/
inductive Fault where
  /-- Raised when a command reads IBUF⟨i⟩ and it has not been written since reset ("unwritten input", 10_state.md R25,
  45_command_interface.md R108). Safe. -/
  | unwrittenInput (i : Nat)
  /-- Raised by a host write to IBUF or IN_LEN while BUSY = 1 ("host hazard", 70_reset_and_hazards.md R135). Safe. -/
  | hostHazard
  deriving DecidableEq, Repr

/-- Why a step has no meaning. Every one is safe: nothing can be proved to follow it. -/
inductive Refusal where
  /-- Raised by exec for an instruction without a meaning yet; no instruction is left so. Safe. -/
  | notModelled (mnemonic : String)
  /-- Raised by a host access of a form the spec does not support, which "a model refuses" (20_memory.md R37). Safe. -/
  | unsupportedAccess
  /-- Raised by a frame, tree-node or data-bit instruction given while the core is not at a unit of that space (log 9).
  Safe. -/
  | outOfPhase
  /-- Raised by a host statement that uses a host variable no statement has assigned (log 20). Safe. -/
  | unboundVariable
  /-- Raised by a host branch to a label the script lacks (log 20). Safe. -/
  | missingLabel
  deriving DecidableEq, Repr

/-- What a step answers. -/
abbrev Outcome := Host.Outcome State Fault Refusal

/-- The host agent with no script. -/
def HostAgent.none : HostAgent := { script := [], pos := 0, vars := [] }

/-- The machine right after reset (70_reset_and_hazards.md R132): the core IDLE, every register 0, every IBUF byte
unwritten, every OBUF byte unspecified, the default parameters (00_scope.md R6). The model's own fields: no draw made
(log 6), no script (log 5), no plan (log 4). -/
def State.reset : State where
  params := Params.default
  core := .idle
  done := false
  err := 0#4
  inLen := 0x00000000#32
  outLen := 0x00000000#32
  ibuf := []
  obuf := []
  draws := 0
  host := HostAgent.none
  plan := []

end Sys2Proof.Machine
end

