-- ==== Sys2Proof/Machine/Flags.lean ====
section
/-! DEFINITION. STATUS: its fields, its word and the error codes it reports (10_state.md R18-R21, R24;
60_exceptions.md R118). The block has no other flags. -/

namespace Sys2Proof.Machine

/-- The error code of each kind (60_exceptions.md R118); 0 is success, 8-15 are never produced. -/
def ErrorKind.code : ErrorKind → BitVec 4
  | .treeTooLarge => 1#4
  | .malformedTree => 2#4
  | .corruptStream => 3#4
  | .logicError => 4#4
  | .illegalCommand => 5#4
  | .lengthError => 6#4
  | .outputOverflow => 7#4

/-- The core is in state BUSY (10_state.md R15). -/
def Core.isBusy : Core → Bool
  | .idle => false
  | .busy _ _ => true

/-- STATUS.BUSY: 1 exactly while the core is BUSY (10_state.md R19). -/
def State.busy (s : State) : Bool := s.core.isBusy

/-- The STATUS layout (10_state.md R18): ERR in 7:4, DONE in bit 1, BUSY in bit 0, all other bits 0. -/
def statusWord (busy done : Bool) (err : BitVec 4) : Word :=
  0#24 ++ err ++ 0#2 ++ BitVec.ofBool done ++ BitVec.ofBool busy

/-- The STATUS register (10_state.md R18). -/
def State.status (s : State) : Word := statusWord s.busy s.done s.err

end Sys2Proof.Machine
end

