-- ==== Sys2Proof/Machine/Ops.lean ====
section
/-! DEFINITION. The named operations over the state: buffers as sorted maps, the register and buffer accessors, taking a
command (acceptance), ending one (completion, success or error entry) and reset. -/

namespace Sys2Proof.Machine

/-! ### Sorted maps: buffers, code tables, host variables -/

/-- The value listed under a key. -/
def mapGet {α : Type} (k : Nat) : List (Nat × α) → Option α
  | [] => none
  | (j, v) :: rest => if j = k then some v else mapGet k rest

/-- List a value under a key, keeping the keys rising and unrepeated. -/
def mapSet {α : Type} (k : Nat) (v : α) : List (Nat × α) → List (Nat × α)
  | [] => [(k, v)]
  | (j, w) :: rest =>
    if k < j then (k, v) :: (j, w) :: rest
    else if k = j then (k, v) :: rest
    else (j, w) :: mapSet k v rest

/-- The keys rise strictly: the one canonical form, so that equal maps are equal lists. -/
def mapSorted {α : Type} : List (Nat × α) → Bool
  | [] => true
  | (k, _) :: rest => rest.all (fun e => decide (k < e.1)) && mapSorted rest

/-- What an unlisted buffer byte reads as: no value (10_state.md R25, R26). A core read of such an IBUF byte faults, and a
host read of such a byte is a free draw (log 7, log 8). -/
def Memory.unlisted : Option Byte := none

/-- The byte a buffer holds at an index. -/
def Memory.get (m : Memory) (i : Nat) : Option Byte := (mapGet i m).or Memory.unlisted

/-- The canonical form of a buffer (no listed byte is `none`, so nothing is listed that an unlisted byte reads as). -/
def Memory.wf (m : Memory) : Bool := mapSorted m

/-- Every listed index is below the buffer's size. -/
def Memory.within (size : Nat) (m : Memory) : Bool := m.all (fun e => decide (e.1 < size))

/-- The buffer that lists exactly the bytes of a sequence, from index `i` on. -/
def Memory.ofBytes (i : Nat) : Bytes → Memory
  | [] => []
  | b :: bs => (i, b) :: Memory.ofBytes (i + 1) bs

/-- `m⟨i ..< i + count⟩`, or the first index without a value. -/
def Memory.read (m : Memory) (i : Nat) : Nat → Except Nat Bytes
  | 0 => .ok []
  | count + 1 =>
    match m.get i with
    | none => .error i
    | some b =>
      match Memory.read m (i + 1) count with
      | .error j => .error j
      | .ok bs => .ok (b :: bs)

/-! ### The shell -/

/-- Write IBUF⟨i⟩ (10_state.md R25). -/
def State.setIbuf (s : State) (i : Nat) (b : Byte) : State := { s with ibuf := mapSet i b s.ibuf }

/-- Write IN_LEN (10_state.md R22). -/
def State.setInLen (s : State) (w : Word) : State := { s with inLen := w }

/-- Count one free draw (log 6). -/
def State.draw (s : State) : State := { s with draws := s.draws + 1 }

/-- Replace the running command's transient state. -/
def State.setWork (s : State) (l : Latch) (w : Work) : State := { s with core := .busy l w }

/-! ### Taking a command, and ending one -/

/-- Command acceptance (45_command_interface.md R103): latch the operation and IN_LEN, BUSY 1, DONE 0, ERR 0; OUT_LEN and
OBUF are not changed. -/
def State.accept (op : Op) (s : State) : State :=
  { s with core := .busy { op := op, n := s.inLen } .accepted, done := false, err := 0#4 }

/-- An illegal command (45_command_interface.md R105): BUSY 0, DONE 1, ERR 5, OUT_LEN 0; no other state changes. -/
def State.rejectCommand (s : State) : State :=
  { s with core := .idle, done := true, err := ErrorKind.illegalCommand.code, outLen := 0#32 }

/-- Successful completion (45_command_interface.md R108): OBUF holds the output and nothing else the spec gives, OUT_LEN
its length, BUSY 0, DONE 1, ERR 0; the transient state is gone. -/
def State.succeed (s : State) (out : Bytes) : State :=
  { s with
    core := .idle
    done := true
    err := 0#4
    outLen := BitVec.ofNat 32 out.length
    obuf := Memory.ofBytes 0 out }

/-- Error entry (60_exceptions.md R121): BUSY 0, DONE 1, ERR the code, OUT_LEN 0, OBUF unspecified; no other state is saved
or changed. There is no return from it: the next acceptance clears it (R122). -/
def State.fail (s : State) (e : ErrorKind) : State :=
  { s with core := .idle, done := true, err := e.code, outLen := 0#32, obuf := [] }

/-- The output-capacity check (45_command_interface.md R107): it fires only on an Ok result. -/
def checkCapacity (p : Params) : Result → Result
  | .error e => .error e
  | .ok out => if p.obufSize < out.length then .error .outputOverflow else .ok out

/-- The state change of the completion step, given the codec function's result (45_command_interface.md R107, R108). It is
atomic: OBUF, OUT_LEN and STATUS change together (20_memory.md R46). -/
def State.complete (s : State) (r : Result) : State :=
  match checkCapacity s.params r with
  | .ok out => s.succeed out
  | .error e => s.fail e

/-- Reset of the block (70_reset_and_hazards.md R131): every register, both buffers and the core take their reset values.
The parameters, and the agents outside the block, stay (log 18). -/
def State.applyReset (s : State) : State :=
  { State.reset with params := s.params, draws := s.draws, host := s.host, plan := s.plan }

/-- A write to CMD reaches the command decoder only while BUSY = 0; while BUSY = 1 it is ignored, whatever its value
(45_command_interface.md R104). -/
def whenIdle (s : State) (t : State) : Outcome := if s.busy then .next s else .next t

/-- Run an internal operation of the core at the transient state it needs; elsewhere the spec gives it no effect
(log 9). -/
def onWork (s : State) (f : Work → Option Work) : Outcome :=
  match s.core with
  | .idle => .refused .outOfPhase
  | .busy l w =>
    match f w with
    | none => .refused .outOfPhase
    | some w' => .next (s.setWork l w')

end Sys2Proof.Machine
end

