-- ==== Sys2Proof/Machine/PrefixTree.lean ====
section
/-! DEFINITION. The Huffman tree encoder, part 1 (40_prefix_tree.md): FreqCount, BuildTree, GenCodes. -/

namespace Sys2Proof.Machine

/-- `leaves(t)` (00_scope.md R11). -/
def PrefixTree.leaves : PrefixTree → Nat
  | .leaf _ => 1
  | .internal l r => l.leaves + r.leaves

/-- `internals(t)` (00_scope.md R11). -/
def PrefixTree.internals : PrefixTree → Nat
  | .leaf _ => 0
  | .internal l r => 1 + l.internals + r.internals

/-- The number of levels below the root. -/
def PrefixTree.depth : PrefixTree → Nat
  | .leaf _ => 0
  | .internal l r => 1 + max l.depth r.depth

/-- The symbols of the leaves, in preorder. -/
def PrefixTree.symbols : PrefixTree → Bytes
  | .leaf s => [s]
  | .internal l r => l.symbols ++ r.symbols

/-- The node a bit path leads to from the root, 0 left and 1 right (40_prefix_tree.md R76); none past a leaf. -/
def PrefixTree.follow : PrefixTree → Bits → Option PrefixTree
  | t, [] => some t
  | .leaf _, _ :: _ => none
  | .internal l r, b :: path => PrefixTree.follow (if b then r else l) path

/-- FreqCount (40_prefix_tree.md R73): 256 counters, one incremented for each byte of the data. -/
def freqCount (data : Bytes) : List Nat :=
  data.foldl (fun freq b => freq.modify b.toNat (· + 1)) (List.replicate 256 0)

/-- The initial node store of BuildTree (40_prefix_tree.md R74): one leaf for each non-zero counter, in increasing symbol
order; a leaf's key is its symbol value. -/
def initialQueue (freq : List Nat) : List Entry :=
  (List.range 256).filterMap fun s =>
    match freq[s]? with
    | some w => if 0 < w then some { weight := w, key := s, tree := .leaf (BitVec.ofNat 8 s) } else none
    | none => none

/-- The order of BuildTree: `(weight, key)`, compared lexicographically (40_prefix_tree.md R74). -/
def Entry.before (a b : Entry) : Bool := a.weight < b.weight || (a.weight == b.weight && a.key < b.key)

/-- The least entry of a node store, and the others in their order. -/
def extractMin : List Entry → Option (Entry × List Entry)
  | [] => none
  | e :: es =>
    match extractMin es with
    | none => some (e, [])
    | some (m, rest) => if m.before e then some (m, e :: rest) else some (e, es)

/-- One merge of BuildTree (40_prefix_tree.md R74): the two least entries become the children of a new node, the first
extracted on the left. None when fewer than two entries are left. -/
def mergeOnce (queue : List Entry) (next : Nat) : Option (List Entry) :=
  match extractMin queue with
  | none => none
  | some (a, q1) =>
    match extractMin q1 with
    | none => none
    | some (b, q2) =>
      some (q2 ++ [{ weight := a.weight + b.weight, key := next, tree := .internal a.tree b.tree }])

/-- The tree of the only element of a node store (40_prefix_tree.md R74). -/
def onlyTree : List Entry → Option PrefixTree
  | [e] => some e.tree
  | _ => none

/-- The loop of BuildTree (40_prefix_tree.md R74), with as many rounds as `fuel`; a store of k entries needs k - 1. -/
def mergeAll : Nat → List Entry → Nat → Option PrefixTree
  | 0, queue, _ => onlyTree queue
  | fuel + 1, queue, next =>
    match mergeOnce queue next with
    | none => onlyTree queue
    | some queue' => mergeAll fuel queue' (next + 1)

/-- BuildTree (40_prefix_tree.md R74). Internal keys start at 256. None only for all-zero counters, which never reach it
(log 15). -/
def buildTree (freq : List Nat) : Option PrefixTree :=
  mergeAll (initialQueue freq).length (initialQueue freq) 256

/-- The walk of GenCodes (40_prefix_tree.md R76): 0 on the way left, 1 on the way right. -/
def genCodesFrom : PrefixTree → Bits → CodeTable → CodeTable
  | .leaf s, path, codes => mapSet s.toNat path codes
  | .internal l r, path, codes =>
    genCodesFrom r (path ++ [true]) (genCodesFrom l (path ++ [false]) codes)

/-- GenCodes (40_prefix_tree.md R76). -/
def genCodes (tree : PrefixTree) : CodeTable := genCodesFrom tree [] []

end Sys2Proof.Machine
end

