-- ==== Sys2Proof/Machine/TreeCodec.lean ====
section
/-! DEFINITION. The tree serializer and deserializer (41_tree_codec.md). -/

namespace Sys2Proof.Machine

/-- Serialize (41_tree_codec.md R80). -/
def serialize : PrefixTree → Bits
  | .leaf s => true :: bitsBE s.toNat 8
  | .internal l r => false :: (serialize l ++ serialize r)

/-- SerializedLength (41_tree_codec.md R81). -/
def serializedLength : PrefixTree → Nat
  | .leaf _ => 9
  | .internal l r => 1 + serializedLength l + serializedLength r

/-- CheckTreeSize (41_tree_codec.md R82): TreeTooLarge above 65535. -/
def checkTreeSize (t : Nat) : Except ErrorKind Unit :=
  if Config.treeSizeMax < t then .error .treeTooLarge else .ok ()

/-- The parse of Deserialize (41_tree_codec.md R83): one node at the front of the bits, and the bits after it. The shared
cursor is the front of the bits. Every call takes a bit, so `bits.length + 1` levels of fuel are never used up. -/
def parseNode : Nat → Bits → Except ErrorKind (PrefixTree × Bits)
  | 0, _ => .error .malformedTree
  | _ + 1, [] => .error .malformedTree
  | _ + 1, true :: rest =>
    if rest.length < 8 then .error .malformedTree else .ok (.leaf (byteBE (rest.take 8)), rest.drop 8)
  | fuel + 1, false :: rest => do
    let (l, rest1) ← parseNode fuel rest
    let (r, rest2) ← parseNode fuel rest1
    return (.internal l r, rest2)

/-- Deserialize (41_tree_codec.md R83): one tree that takes exactly the given bits. -/
def deserialize (bits : Bits) : Except ErrorKind PrefixTree := do
  let (t, rest) ← parseNode (bits.length + 1) bits
  if rest = [] then return t else throw .malformedTree

/-- A parsed subtree takes its place in the innermost open Internal node, closing every node it completes: the explicit
stack of 10_state.md R32 (41_tree_codec.md R84). The whole tree, once no node is open, else the stack left. -/
def plug : PrefixTree → List (Option PrefixTree) → PrefixTree ⊕ List (Option PrefixTree)
  | t, [] => .inl t
  | t, none :: stack => .inr (some t :: stack)
  | t, some l :: stack => plug (.internal l t) stack

end Sys2Proof.Machine
end

