-- ==== Sys2Proof/Machine/Encoder.lean ====
section
/-! DEFINITION. The Huffman tree encoder, part 2, and the compress path (43_encoder.md). -/

namespace Sys2Proof.Machine

/-- The code words of the data, in input order (43_encoder.md R92); LogicError at a symbol without a code. -/
def encodeSymbols (codes : CodeTable) : Bytes → Except ErrorKind Bits
  | [] => .ok []
  | b :: data =>
    match mapGet b.toNat codes with
    | none => .error .logicError
    | some code => do
      let rest ← encodeSymbols codes data
      return code ++ rest

/-- EncodeData (43_encoder.md R92): in single-leaf mode one 0 bit for each byte. -/
def encodeData (data : Bytes) (tree : PrefixTree) (codes : CodeTable) : Except ErrorKind Bits :=
  match tree with
  | .leaf _ => .ok (List.replicate data.length false)
  | .internal _ _ => encodeSymbols codes data

/-- AssembleFrame (43_encoder.md R93). -/
def assembleFrame (tb d : Bits) : Bits := bitsBE tb.length Config.treeSizeWidth ++ tb ++ d

/-- The candidate frame: the packed bytes and the compressed trailer (43_encoder.md R95 step 7). -/
def candidate (packed : Bytes) (p : Nat) : Bytes := packed ++ [makeTrailer p]

/-- FallbackSelect (43_encoder.md R94): the candidate only when it is strictly shorter than the data. -/
def fallbackSelect (data cand : Bytes) : Bytes :=
  if cand.length < data.length then cand else data ++ [storedTrailer]

/-- Steps 3 to 8 of Compress, from a built tree (43_encoder.md R95). -/
def compressWith (data : Bytes) (tree : PrefixTree) : Result := do
  let tb := serialize tree
  let d ← encodeData data tree (genCodes tree)
  checkTreeSize tb.length
  let packed := pack (assembleFrame tb d)
  return fallbackSelect data (candidate packed.1 packed.2)

/-- Compress (43_encoder.md R95). The all-zero counters of `none` cannot occur for n ≥ 1 (log 15). -/
def compress (data : Bytes) : Result :=
  if data = [] then .ok []
  else
    match buildTree (freqCount data) with
    | none => .error .logicError
    | some tree => compressWith data tree

end Sys2Proof.Machine
end

