-- ==== Sys2Proof/Syntax.lean ====
section
/-! DEFINITION. The instructions: one constructor for each row of spec/opcode_table.json, with the fields the row's
encoding holds. The rows lie in four encoding spaces (30_encoding.md): CMD words, frames, tree nodes, data bits. -/

namespace Sys2Proof

/-- The rows of the opcode table. -/
inductive Instr where
  /-- COMPRESS, CMD word 0x00000001 (45_command_interface.md R109). -/
  | compress
  /-- DECOMPRESS, CMD word 0x00000002 (45_command_interface.md R110). -/
  | decompress
  /-- ILLEGAL_COMMAND, every other CMD word, OP = CMD[31:0] (45_command_interface.md R105). -/
  | illegalCommand (op : Word)
  /-- FRAME_EMPTY, a frame of length 0 (30_encoding.md R56). -/
  | frameEmpty
  /-- FRAME_STORED, a frame whose trailer has FLAG = 0; `ignored` is trailer[7:1] (30_encoding.md R58, R68). -/
  | frameStored (ignored : BitVec 7)
  /-- FRAME_COMPRESSED, a frame whose trailer has FLAG = 1; `pad` is trailer[7:4], `rsv` is trailer[3:1]
  (30_encoding.md R57, R59). -/
  | frameCompressed (pad : BitVec 4) (rsv : BitVec 3)
  /-- TREE_INTERNAL, the tree node `0` (30_encoding.md R61). -/
  | treeInternal
  /-- TREE_LEAF, the tree node `1` with its symbol (30_encoding.md R61). -/
  | treeLeaf (sym : Byte)
  /-- DATA_LEFT, the data bit 0 (44_decoder.md R99). -/
  | dataLeft
  /-- DATA_RIGHT, the data bit 1 (44_decoder.md R99). -/
  | dataRight
  deriving DecidableEq, Repr

/-- The encoding spaces: where an instruction's bits stand decides how they are read. -/
inductive Space where
  /-- A 32-bit word written to CMD (30_encoding.md R55). -/
  | cmdWord
  /-- A whole frame, told apart by its length and its last byte (30_encoding.md R64). -/
  | frame
  /-- A node of the TREE field, at the deserializer cursor (30_encoding.md R61). -/
  | treeNode
  /-- One bit of the DATA field (44_decoder.md R99). -/
  | dataBit
  deriving DecidableEq, Repr

/-- The encoding space of each instruction. -/
def Instr.space : Instr → Space
  | .compress => .cmdWord
  | .decompress => .cmdWord
  | .illegalCommand _ => .cmdWord
  | .frameEmpty => .frame
  | .frameStored _ => .frame
  | .frameCompressed _ _ => .frame
  | .treeInternal => .treeNode
  | .treeLeaf _ => .treeNode
  | .dataLeft => .dataBit
  | .dataRight => .dataBit

end Sys2Proof
end

