-- ==== Sys2Proof/Decode.lean ====
section
/-! DEFINITION. The decoder, total on any bits of each encoding space and rejecting by name, and after it the encoder,
written from the same encodings of the spec (30_encoding.md R55, R57-R61, 44_decoder.md R99). -/

namespace Sys2Proof

open Machine

/-- Why a bit sequence is no instruction of a space. -/
inductive DecodeError where
  /-- Fewer than 32 bits: no CMD word. -/
  | shortCommand
  /-- A frame that holds bits but no whole trailer byte. -/
  | noTrailer
  /-- The tree cursor is past the available bits (41_tree_codec.md R83). -/
  | noMarker
  /-- Fewer than 8 bits remain after a leaf marker (41_tree_codec.md R83). -/
  | shortLeaf
  /-- No data bit is left (44_decoder.md R99). -/
  | noDataBit
  deriving DecidableEq, Repr

/-- The command decoder (30_encoding.md R55): every bit of the word selects. -/
def decodeCmd (w : Word) : Instr :=
  if w = 0x00000001#32 then .compress
  else if w = 0x00000002#32 then .decompress
  else .illegalCommand w

/-- The trailer's fields (30_encoding.md R59) select stored or compressed by FLAG = trailer[0] (R64). -/
def decodeTrailer (tr : Byte) : Instr :=
  if (parseTrailer tr).1 then .frameCompressed (tr.extractLsb' 4 4) (tr.extractLsb' 1 3)
  else .frameStored (tr.extractLsb' 1 7)

/-- Frame discrimination (30_encoding.md R64): by length, then by bit 0 of the last byte. -/
def decodeFrame (frame : Bytes) : Instr :=
  match frame.getLast? with
  | none => .frameEmpty
  | some tr => decodeTrailer tr

/-- One tree node at the front of a bit sequence, with the bits after it (30_encoding.md R61). -/
def decodeNode : Bits → Except DecodeError (Instr × Bits)
  | [] => .error .noMarker
  | false :: rest => .ok (.treeInternal, rest)
  | true :: rest =>
    if rest.length < 8 then .error .shortLeaf else .ok (.treeLeaf (byteBE (rest.take 8)), rest.drop 8)

/-- One data bit at the front of a bit sequence, with the bits after it (44_decoder.md R99). -/
def decodeData : Bits → Except DecodeError (Instr × Bits)
  | [] => .error .noDataBit
  | false :: rest => .ok (.dataLeft, rest)
  | true :: rest => .ok (.dataRight, rest)

/-- The decoder: the instruction the bits of a space hold, and the bits that are not part of its encoding (the bits after
it; for a frame, the body before its trailer). Bits are in transmission order, most significant first. -/
def decode : Space → Bits → Except DecodeError (Instr × Bits)
  | .cmdWord, bits =>
    if bits.length < 32 then .error .shortCommand
    else .ok (decodeCmd (BitVec.ofNat 32 (valBE (bits.take 32))), bits.drop 32)
  | .frame, bits =>
    if bits = [] then .ok (.frameEmpty, [])
    else if bits.length < 8 then .error .noTrailer
    else .ok (decodeTrailer (byteBE (bits.drop (bits.length - 8))), bits.take (bits.length - 8))
  | .treeNode, bits => decodeNode bits
  | .dataBit, bits => decodeData bits

/-- The CMD word of a command (30_encoding.md R55); of no other instruction. -/
def encodeCmd : Instr → Option Word
  | .compress => some 0x00000001#32
  | .decompress => some 0x00000002#32
  | .illegalCommand op => some op
  | .frameEmpty => none
  | .frameStored _ => none
  | .frameCompressed _ _ => none
  | .treeInternal => none
  | .treeLeaf _ => none
  | .dataLeft => none
  | .dataRight => none

/-- The trailer byte of a stored frame (30_encoding.md R59). -/
def encodeStored (ignored : BitVec 7) : Byte := ignored ++ 0#1

/-- The trailer byte of a compressed frame (30_encoding.md R59): PAD in 7:4, reserved 3:1, FLAG = 1. -/
def encodeCompressed (pad : BitVec 4) (rsv : BitVec 3) : Byte := pad ++ rsv ++ 1#1

/-- The encoder: an instruction's own bits in its space, most significant bit first. Of a frame the instruction's bits are
its trailer (none for the empty frame). -/
def encode : Instr → Bits
  | .compress => bitsBE 1 32
  | .decompress => bitsBE 2 32
  | .illegalCommand op => bitsBE op.toNat 32
  | .frameEmpty => []
  | .frameStored ignored => bitsBE (encodeStored ignored).toNat 8
  | .frameCompressed pad rsv => bitsBE (encodeCompressed pad rsv).toNat 8
  | .treeInternal => [false]
  | .treeLeaf sym => true :: bitsBE sym.toNat 8
  | .dataLeft => [false]
  | .dataRight => [true]

/-- The encoding space of a table row's width. The opcode table's rows of one width stand in different spaces (a byte
value can be a trailer; a bit can be a tree marker or a data bit), and the width is all the table's numbering gives: 0
bits is a frame of length 0, 8 bits a trailer byte, 9 or 16 bits a tree node, 1 bit a data bit, 32 bits a CMD word
(log 12). -/
def spaceOfWidth : Nat → Option Space
  | 0 => some .frame
  | 1 => some .dataBit
  | 8 => some .frame
  | 9 => some .treeNode
  | 16 => some .treeNode
  | 32 => some .cmdWord
  | _ => none

/-- How many of the table's bits are encoded bits: a 9-bit tree node is given in two whole bytes. -/
def encodedWidth (nbits : Nat) : Nat := if nbits = 16 then 9 else nbits

/-- The bits of a table word in transmission order: the table numbers bit 0 as the least significant bit of the pattern
read as one number, so the most significant encoded bit is transmitted first (30_encoding.md R63). -/
def tableBits (nbits w : Nat) : Bits := bitsBE w (encodedWidth nbits)

/-- The instruction the decoder reads from a table word (log 12). -/
def decodeTableWord (nbits w : Nat) : Option Instr :=
  match spaceOfWidth nbits with
  | none => none
  | some sp =>
    match decode sp (tableBits nbits w) with
    | .ok (i, _) => some i
    | .error _ => none

end Sys2Proof
end

