-- ==== Sys2Proof/Machine/Command.lean ====
section
/-! DEFINITION. The meanings of the CMD words: COMPRESS, DECOMPRESS, ILLEGAL_COMMAND (45_command_interface.md R103-R105,
R109, R110, R116). A command's completion is a step of the core (Sequencer). -/

namespace Sys2Proof.Machine

/-- COMPRESS (45_command_interface.md R109): accepted while BUSY = 0 (R103), ignored while BUSY = 1 (R104). -/
def execCompress (s : State) : Outcome := whenIdle s (s.accept .compress)

/-- DECOMPRESS (45_command_interface.md R110): accepted while BUSY = 0 (R103), ignored while BUSY = 1 (R104). -/
def execDecompress (s : State) : Outcome := whenIdle s (s.accept .decompress)

/-- ILLEGAL_COMMAND (45_command_interface.md R105), ignored while BUSY = 1 (R104); the word itself is not recorded
(60_exceptions.md R119). -/
def execIllegalCommand (_op : Word) (s : State) : Outcome := whenIdle s s.rejectCommand

end Sys2Proof.Machine
end

