-- ==== Sys2Proof/Machine/Decoder.lean ====
section
/-! DEFINITION. The Huffman tree decoder and the decompress path (44_decoder.md). -/

namespace Sys2Proof.Machine

/-- SplitFrame (44_decoder.md R98), given the padding count and the bytes before the trailer: the tree region and the data
region. The checks run in this order (60_exceptions.md R120). -/
def splitBody (p : Nat) (body : Bytes) : Except ErrorKind (Bits × Bits) :=
  let f := unpack body
  let lf := f.length - p
  let t := treeSizeOf f
  if Config.padMax < p then .error .corruptStream
  else if f.length < p + Config.treeSizeWidth then .error .corruptStream
  else if lf < Config.treeSizeWidth + t then .error .corruptStream
  else .ok ((f.drop Config.treeSizeWidth).take t, (f.take lf).drop (Config.treeSizeWidth + t))

/-- SplitFrame of a whole frame (44_decoder.md R98): the padding count is in its last byte. R98 defines it for frames of one
byte or more; CorruptStream for the empty frame is the model's DESIGN CHOICE, never reached, since `decompress` answers
the empty output first (log 26). -/
def splitFrame (frame : Bytes) : Except ErrorKind (Bits × Bits) :=
  match frame.getLast? with
  | none => .error .corruptStream
  | some tr => splitBody (parseTrailer tr).2 frame.dropLast

/-- Where one data bit takes the walk (44_decoder.md R99): the new cursor, its depth, and the symbol emitted. An internal
cursor moves to its child, 0 left and 1 right; a leaf reached emits its symbol and returns the cursor to the root. In
single-leaf mode a 0 bit emits the symbol and a 1 bit is CorruptStream. A cursor at a leaf of a larger tree has no child
(log 22). -/
def walkBit (tree cur : PrefixTree) (depth : Nat) (b : Bool) : Except ErrorKind (PrefixTree × Nat × Bytes) :=
  match tree with
  | .leaf s => if b then .error .corruptStream else .ok (tree, 0, [s])
  | .internal _ _ =>
    match cur with
    | .leaf _ => .error .corruptStream
    | .internal l r =>
      match (if b then r else l) with
      | .leaf s => .ok (tree, 0, [s])
      | .internal l' r' => .ok (.internal l' r', depth + 1, [])

/-- The end of the walk (44_decoder.md R99): CorruptStream when the data ended inside a code word. -/
def walkEnd (depth : Nat) (out : Bytes) : Result := if depth = 0 then .ok out else .error .corruptStream

/-- The walk from a cursor over the data bits left (44_decoder.md R99). -/
def walkFrom (tree : PrefixTree) : PrefixTree → Nat → Bits → Bytes → Result
  | _, depth, [], out => walkEnd depth out
  | cur, depth, b :: d, out =>
    match walkBit tree cur depth b with
    | .error e => .error e
    | .ok (cur', depth', emitted) => walkFrom tree cur' depth' d (out ++ emitted)

/-- Walk (44_decoder.md R99): from the root, nothing emitted. -/
def walk (tree : PrefixTree) (d : Bits) : Result := walkFrom tree tree 0 d []

/-- The compressed case of Decompress (44_decoder.md R100 steps 1 to 5). -/
def decompressCompressed (frame : Bytes) : Result := do
  let (tb, d) ← splitFrame frame
  let tree ← deserialize tb
  walk tree d

/-- Decompress (44_decoder.md R100). -/
def decompress (frame : Bytes) : Result :=
  match frame.getLast? with
  | none => .ok []
  | some tr => if (parseTrailer tr).1 then decompressCompressed frame else .ok frame.dropLast

end Sys2Proof.Machine
end

