-- ==== Sys2Proof/Machine/DataWalk.lean ====
section
/-! DEFINITION. The meanings of the data bits in Walk (44_decoder.md R99; 45_command_interface.md R114). -/

namespace Sys2Proof.Machine

/-- The walk after one data bit (44_decoder.md R99). -/
def walkWork (b : Bool) : Work → Option Work
  | .walk tree cur depth d pos out =>
    match walkBit tree cur depth b with
    | .error e => some (.finished (.error e))
    | .ok (cur', depth', emitted) => some (.walk tree cur' depth' d (pos + 1) (out ++ emitted))
  | _ => none

/-- DATA_LEFT (44_decoder.md R99): to the left child; in single-leaf mode the symbol is emitted. -/
def execDataLeft (s : State) : Outcome := onWork s (walkWork false)

/-- DATA_RIGHT (44_decoder.md R99): to the right child; in single-leaf mode CorruptStream. -/
def execDataRight (s : State) : Outcome := onWork s (walkWork true)

end Sys2Proof.Machine
end

