-- ==== Sys2Proof/Machine/Frame.lean ====
section
/-! DEFINITION. The meanings of the frame kinds in DECOMPRESS (30_encoding.md R56-R58, R64; 44_decoder.md R100). -/

namespace Sys2Proof.Machine

/-- FRAME_EMPTY (30_encoding.md R56), the frame of length 0: it decodes to the empty output. -/
def execFrameEmpty (s : State) : Outcome :=
  onWork s fun w =>
    match w with
    | .frame [] => some (.finished (.ok []))
    | _ => none

/-- FRAME_STORED (30_encoding.md R58; 44_decoder.md R100, stored branch): the output is every byte but the trailer; trailer
bits 7:1 are ignored (30_encoding.md R68). -/
def execFrameStored (_ignored : BitVec 7) (s : State) : Outcome :=
  onWork s fun w =>
    match w with
    | .frame (b :: rest) => some (.finished (.ok (b :: rest).dropLast))
    | _ => none

/-- FRAME_COMPRESSED (30_encoding.md R57; 44_decoder.md R98, R100 steps 1 to 3): the frame is split into its tree and data
regions, or ends the command with CorruptStream; the reserved bits are ignored (30_encoding.md R68). -/
def execFrameCompressed (pad : BitVec 4) (_rsv : BitVec 3) (s : State) : Outcome :=
  onWork s fun w =>
    match w with
    | .frame (b :: rest) =>
      match splitBody pad.toNat (b :: rest).dropLast with
      | .error e => some (.finished (.error e))
      | .ok (tb, d) => some (.tree tb 0 [] d)
    | _ => none

end Sys2Proof.Machine
end

