-- ==== Sys2Proof/Machine/TreeNode.lean ====
section
/-! DEFINITION. The meanings of the tree nodes in Deserialize, one node at the cursor (30_encoding.md R61;
41_tree_codec.md R83, R84). -/

namespace Sys2Proof.Machine

/-- The deserializer after a whole subtree `t` that ends at bit `cursor`: with every node closed, the walk starts, unless
tree bits are left over (MalformedTree, 41_tree_codec.md R83). -/
def treeWork (tb : Bits) (cursor : Nat) (d : Bits) : PrefixTree ⊕ List (Option PrefixTree) → Work
  | .inl t => if cursor = tb.length then .walk t t 0 d 0 [] else .finished (.error .malformedTree)
  | .inr stack => .tree tb cursor stack d

/-- TREE_INTERNAL (30_encoding.md R61; 41_tree_codec.md R83): one bit; an Internal node is opened, its left subtree first. -/
def execTreeInternal (s : State) : Outcome :=
  onWork s fun w =>
    match w with
    | .tree tb cursor stack d => some (.tree tb (cursor + 1) (none :: stack) d)
    | _ => none

/-- TREE_LEAF (30_encoding.md R61; 41_tree_codec.md R83): nine bits; the leaf takes its place in the innermost open node. -/
def execTreeLeaf (sym : Byte) (s : State) : Outcome :=
  onWork s fun w =>
    match w with
    | .tree tb cursor stack d => some (treeWork tb (cursor + 9) d (plug (.leaf sym) stack))
    | _ => none

end Sys2Proof.Machine
end

