-- ==== Sys2Proof/Machine/Dispatch.lean ====
section
/-! DEFINITION. One arm for each instruction, each one call of its meaning. -/

namespace Sys2Proof.Machine

def exec (i : Instr) (s : State) : Host.Outcome State Fault Refusal :=
  match i with
  | .compress => Sys2Proof.Machine.execCompress s
  | .decompress => Sys2Proof.Machine.execDecompress s
  | .illegalCommand op => Sys2Proof.Machine.execIllegalCommand op s
  | .frameEmpty => Sys2Proof.Machine.execFrameEmpty s
  | .frameStored ignored => Sys2Proof.Machine.execFrameStored ignored s
  | .frameCompressed pad rsv => Sys2Proof.Machine.execFrameCompressed pad rsv s
  | .treeInternal => Sys2Proof.Machine.execTreeInternal s
  | .treeLeaf sym => Sys2Proof.Machine.execTreeLeaf sym s
  | .dataLeft => Sys2Proof.Machine.execDataLeft s
  | .dataRight => Sys2Proof.Machine.execDataRight s

end Sys2Proof.Machine
end

