-- ==== Sys2Proof/Machine/Bus.lean ====
section
/-! DEFINITION. Host bus accesses: the address map, the legal forms, reads and writes (20_memory.md R35-R38, R46, R47;
70_reset_and_hazards.md R134-R136). -/

namespace Sys2Proof.Machine

/-- What stands at a block offset (20_memory.md R35). -/
inductive Target where
  | cmd
  | status
  | inLen
  | outLen
  | ibuf (i : Nat)
  | obuf (j : Nat)
  | reserved
  deriving DecidableEq, Repr

/-- A host access (20_memory.md R36): its kind, offset, width in bytes and, for a write, data. -/
inductive Access where
  | read (off width : Nat)
  | write (off width : Nat) (data : Word)
  deriving DecidableEq, Repr

/-- The address map (20_memory.md R35). -/
def target (p : Params) (off : Nat) : Target :=
  if off = 0x000000 then .cmd
  else if off = 0x000004 then .status
  else if off = 0x000008 then .inLen
  else if off = 0x00000C then .outLen
  else if off < Config.ibufBase then .reserved
  else if off < Config.ibufBase + p.ibufSize then .ibuf (off - Config.ibufBase)
  else if off < Config.obufBase then .reserved
  else if off < Config.obufBase + p.obufSize then .obuf (off - Config.obufBase)
  else .reserved

/-- The legal access forms (20_memory.md R36, R44): 4 bytes, aligned, below 0x100000; 1 byte from there to the end of the
address space. Every other form is refused (R37). -/
def legalForm (off width : Nat) : Bool :=
  (width == 4 && off % 4 == 0 && decide (off < Config.ibufBase))
    || (width == 1 && decide (Config.ibufBase ≤ off) && decide (off < Config.addressSpaceEnd))

/-- The data of a write is a byte (20_memory.md R36: a 1-byte write writes a 1-byte value). -/
def fitsByte (data : Word) : Bool := decide (data.toNat < 256)

/-- The byte a 1-byte write stores, and the state after it is taken: the data itself, or, where the data is wider than a
byte, a free draw, since the spec does not say which byte is written then (the model's DESIGN CHOICE, log 10). -/
def writtenByte (data : Word) (s : State) : Byte × State :=
  if fitsByte data then (data.setWidth 8, s) else (Config.freeByte s.draws, s.draw)

/-- A byte read by the host: the value the spec gives, or a free draw (93 items 7-11). -/
def readByte (s : State) : Option Byte → Word × State
  | some b => (b.setWidth 32, s)
  | none => ((Config.freeByte s.draws).setWidth 32, s.draw)

/-- The value a read of a target returns, and the state after it: the same but for the count of free draws, since no read
has a side effect (20_memory.md R47). While BUSY = 1, OUT_LEN and OBUF read as free draws (70_reset_and_hazards.md
R136). -/
def readTarget (s : State) : Target → Word × State
  | .cmd => (0x00000000#32, s)
  | .status => (s.status, s)
  | .inLen => (s.inLen, s)
  | .outLen => if s.busy then (Config.freeWord s.draws, s.draw) else (s.outLen, s)
  | .ibuf i => readByte s (s.ibuf.get i)
  | .obuf j => readByte s (if s.busy then none else s.obuf.get j)
  | .reserved => (0x00000000#32, s)

/-- `MemRead(off, width)` (20_memory.md R36). -/
def busRead (off width : Nat) (s : State) : Except Refusal (Word × State) :=
  if legalForm off width then .ok (readTarget s (target s.params off)) else .error .unsupportedAccess

/-- What a write of a target does (20_memory.md R35, R38, R47). A CMD write runs the command decoder (10_state.md R17);
while BUSY = 1 a write to IN_LEN or IBUF is a host hazard (70_reset_and_hazards.md R135), and every other ignored write stays
ignored (log 11). -/
def writeTarget (data : Word) (s : State) : Target → Outcome
  | .cmd => exec (decodeCmd data) s
  | .status => .next s
  | .inLen => if s.busy then .fault .hostHazard else .next (s.setInLen data)
  | .outLen => .next s
  | .ibuf i =>
    if s.busy then .fault .hostHazard
    else .next ((writtenByte data s).2.setIbuf i (writtenByte data s).1)
  | .obuf _ => .next s
  | .reserved => .next s

/-- `MemWrite(off, width, data)` (20_memory.md R36). -/
def busWrite (off width : Nat) (data : Word) (s : State) : Outcome :=
  if legalForm off width then writeTarget data s (target s.params off) else .refused .unsupportedAccess

end Sys2Proof.Machine
end

