-- ==== Sys2Proof/Machine/Script.lean ====
section
/-! DEFINITION. The host agent: host-script statements, their bus transactions and the pseudo-instructions
(30_encoding.md R70-R72). -/

namespace Sys2Proof.Machine

/-- A statement the notation can write (30_encoding.md R70): `<off>` is a 24-bit block offset, a literal byte is a byte. -/
def Stmt.wellFormed : Stmt → Bool
  | .wr32 off _ => decide (off < Config.addressSpaceEnd)
  | .rd32 off _ => decide (off < Config.addressSpaceEnd)
  | .wr8 off (.lit v) => decide (off < Config.addressSpaceEnd) && fitsByte v
  | .wr8 off (.var _) => decide (off < Config.addressSpaceEnd)
  | .rd8 off _ => decide (off < Config.addressSpaceEnd)
  | .poll off _ _ => decide (off < Config.addressSpaceEnd)
  | .label _ => true
  | .bnz _ _ => true

/-- The value of an operand; none for a host variable nothing has assigned (log 20). -/
def Val.eval (vars : Vars) : Val → Option Word
  | .lit v => some v
  | .var name => mapGet name vars

/-- What a statement asks of the bus (30_encoding.md R71). -/
inductive Request where
  /-- `label` and `bnz` have no encoding. -/
  | nothing
  /-- The transaction `W4`, `R4`, `W1` or `R1`. -/
  | access (a : Access)
  /-- The operand is an unassigned host variable. -/
  | unbound
  deriving DecidableEq, Repr

/-- A write whose operand has a value. -/
def Request.write (off width : Nat) : Option Word → Request
  | some data => .access (.write off width data)
  | none => .unbound

/-- The bus transaction of a statement (30_encoding.md R71); a poll is a repeated `R4`. -/
def Stmt.request (vars : Vars) : Stmt → Request
  | .wr32 off v => .write off 4 (v.eval vars)
  | .rd32 off _ => .access (.read off 4)
  | .wr8 off v => .write off 1 (v.eval vars)
  | .rd8 off _ => .access (.read off 1)
  | .poll off _ v =>
    match v.eval vars with
    | some _ => .access (.read off 4)
    | none => .unbound
  | .label _ => .nothing
  | .bnz _ _ => .nothing

/-- The host goes on to its next statement. -/
def State.advanceHost (s : State) : State := { s with host := { s.host with pos := s.host.pos + 1 } }

/-- The host's next statement is the one at `k`. -/
def State.jumpHost (s : State) (k : Nat) : State := { s with host := { s.host with pos := k } }

/-- The host assigns one of its variables. -/
def State.assignHost (s : State) (name : Nat) (v : Word) : State :=
  { s with host := { s.host with vars := mapSet name v s.host.vars } }

/-- The position of a label in a script; of two with one name, the first (log 20). -/
def findLabel (name : Nat) : List Stmt → Option Nat
  | [] => none
  | st :: rest => if st = .label name then some 0 else (findLabel name rest).map (· + 1)

/-- What the host does with the value a statement read (30_encoding.md R70): `rd32` and `rd8` assign it; `poll` goes on
once `(value & mask) = v` and otherwise stays, to read again. -/
def afterRead (st : Stmt) (value : Word) (s : State) : State :=
  match st with
  | .rd32 _ name => (s.assignHost name value).advanceHost
  | .rd8 _ name => (s.assignHost name value).advanceHost
  | .poll _ mask v => if v.eval s.host.vars = some (value &&& mask) then s.advanceHost else s
  | .wr32 _ _ => s.advanceHost
  | .wr8 _ _ => s.advanceHost
  | .label _ => s.advanceHost
  | .bnz _ _ => s.advanceHost

/-- A statement without a bus access (30_encoding.md R70): `bnz` branches when its variable is not 0. -/
def hostCompute (st : Stmt) (s : State) : Outcome :=
  match st with
  | .bnz name lbl =>
    match mapGet name s.host.vars with
    | none => .refused .unboundVariable
    | some v =>
      if v = 0#32 then .next s.advanceHost
      else
        match findLabel lbl s.host.script with
        | none => .refused .missingLabel
        | some k => .next (s.jumpHost k)
  | _ => .next s.advanceHost

/-- The host executes one statement (30_encoding.md R70, R71; 20_memory.md R48: one access, complete before the next). A
write goes to the bus with the host already at its next statement. -/
def runStmt (st : Stmt) (s : State) : Outcome :=
  match st.request s.host.vars with
  | .unbound => .refused .unboundVariable
  | .nothing => hostCompute st s
  | .access (.write off width data) => busWrite off width data s.advanceHost
  | .access (.read off width) =>
    match busRead off width s with
    | .error r => .refused r
    | .ok (value, s') => .next (afterRead st value s')

/-- The host's move: its next statement; with none left it does nothing (log 19). -/
def hostStep (s : State) : Outcome :=
  match s.host.script[s.host.pos]? with
  | none => .next s
  | some st => runStmt st s

/-! ### Pseudo-instructions (30_encoding.md R72) -/

/-- `compress`. -/
def Script.compress : List Stmt := [.wr32 0x000000 (.lit 0x00000001#32)]

/-- `decompress`. -/
def Script.decompress : List Stmt := [.wr32 0x000000 (.lit 0x00000002#32)]

/-- `wait`: until BUSY = 0. -/
def Script.wait : List Stmt := [.poll 0x000004 0x00000001#32 (.lit 0x00000000#32)]

/-- `setlen <v>`. -/
def Script.setlen (v : Val) : List Stmt := [.wr32 0x000008 v]

/-- The byte writes of `load`, from IBUF⟨i⟩ on. -/
def Script.loadFrom (i : Nat) : List Val → List Stmt
  | [] => []
  | b :: bs => .wr8 (Config.ibufBase + i) b :: Script.loadFrom (i + 1) bs

/-- `load b0, …, bk−1`: the values to IBUF, then the length. -/
def Script.load (bytes : List Val) : List Stmt :=
  Script.loadFrom 0 bytes ++ Script.setlen (.lit (BitVec.ofNat 32 bytes.length))

/-- `result -> st, len`. -/
def Script.result (st len : Nat) : List Stmt := [.rd32 0x000004 st, .rd32 0x00000C len]

/-- `readout k`: reads `OBUF⟨0 ..< k⟩`. The expansion names no host variable: byte j goes to the variable `name + j`, which is
the model's DESIGN CHOICE (log 5). -/
def Script.readout (name k : Nat) : List Stmt := (List.range k).map fun j => .rd8 (Config.obufBase + j) (name + j)

end Sys2Proof.Machine
end

