-- ==== Sys2Proof/Machine/Sequencer.lean ====
section
/-! DEFINITION. The core's steps and the scheduler: the atomic completion (45_command_interface.md R108), the internal
steps towards it (10_state.md R27-R32), and which agent moves (70_reset_and_hazards.md R139). -/

namespace Sys2Proof.Machine

/-- The codec function of an operation (45_command_interface.md R109, R110). -/
def codec : Op → Bytes → Result
  | .compress => compress
  | .decompress => decompress

/-- Completion (45_command_interface.md R108): the core's one atomic step for a command. The length check comes first and
reads no IBUF byte (R106); an unwritten input byte is a fault; then the codec's result is reported. A core that is not
BUSY has no step (log 19). -/
def completionStep (s : State) : Outcome :=
  match s.core with
  | .idle => .next s
  | .busy l _ =>
    if s.params.ibufSize < l.n.toNat then .next (s.complete (.error .lengthError))
    else
      match s.ibuf.read 0 l.n.toNat with
      | .error i => .fault (.unwrittenInput i)
      | .ok input => .next (s.complete (codec l.op input))

/-- The first internal step of a command: the length check (45_command_interface.md R106), then the input is read
(20_memory.md R39). COMPRESS of an empty input is done (43_encoder.md R95 step 1); a frame is still to be decoded. -/
def loadInput (l : Latch) (s : State) : Outcome :=
  if s.params.ibufSize < l.n.toNat then .next (s.setWork l (.finished (.error .lengthError)))
  else
    match s.ibuf.read 0 l.n.toNat with
    | .error i => .fault (.unwrittenInput i)
    | .ok input =>
      match l.op with
      | .compress => .next (s.setWork l (if input = [] then .finished (.ok []) else .loaded input))
      | .decompress => .next (s.setWork l (.frame input))

/-- One internal step of COMPRESS, each a step of Compress (43_encoder.md R95); other transient states are left as they
are. -/
def compressStep : Work → Work
  | .loaded data => .counted data (freqCount data)
  | .counted data freq => .building data (initialQueue freq) 256
  | .building data queue next =>
    match mergeOnce queue next with
    | some queue' => .building data queue' (next + 1)
    | none =>
      match onlyTree queue with
      | some tree => .treed data tree
      | none => .finished (.error .logicError)
  | .treed data tree => .coded data tree (genCodes tree)
  | .coded data tree codes => .serialized data tree codes (serialize tree)
  | .serialized data tree codes tb =>
    match encodeData data tree codes with
    | .error e => .finished (.error e)
    | .ok d => .encoded data tb d
  | .encoded data tb d =>
    match checkTreeSize tb.length with
    | .error e => .finished (.error e)
    | .ok _ => .assembled data (assembleFrame tb d)
  | .assembled data frame => .packed data (pack frame).1 (pack frame).2
  | .packed data bytes p => .finished (.ok (fallbackSelect data (candidate bytes p)))
  | .accepted => .accepted
  | .frame input => .frame input
  | .tree tb cursor stack d => .tree tb cursor stack d
  | .walk tree cur depth d pos out => .walk tree cur depth d pos out
  | .finished r => .finished r

/-- One internal step of the core (log 3). DECOMPRESS decodes and executes the unit at its cursor: the frame, a tree node, a
data bit. Where the tree bits hold no node the command ends with MalformedTree (41_tree_codec.md R83); where no data bit is
left the walk ends (44_decoder.md R99). The last internal step is the completion's state change
(45_command_interface.md R108). -/
def innerStep (s : State) : Outcome :=
  match s.core with
  | .idle => .next s
  | .busy l .accepted => loadInput l s
  | .busy _ (.frame input) => exec (decodeFrame input) s
  | .busy l (.tree tb cursor _ _) =>
    match decodeNode (tb.drop cursor) with
    | .ok (i, _) => exec i s
    | .error _ => .next (s.setWork l (.finished (.error .malformedTree)))
  | .busy l (.walk _ _ depth d pos out) =>
    match decodeData (d.drop pos) with
    | .ok (i, _) => exec i s
    | .error _ => .next (s.setWork l (.finished (walkEnd depth out)))
  | .busy _ (.finished r) => .next (s.complete r)
  | .busy l w => .next (s.setWork l (compressStep w))

/-- `k` internal steps, stopping at the first fault or refusal. -/
def innerSteps : Nat → State → Outcome
  | 0, s => .next s
  | k + 1, s =>
    match innerStep s with
    | .next s' => innerSteps k s'
    | .fault r => .fault r
    | .refused r => .refused r

/-- Which agent moves next: the plan's first move; after the plan, the core while it is BUSY and else the host, so that no
accepted command waits for ever (weak fairness, 70_reset_and_hazards.md R139; log 4). -/
def State.nextMove (s : State) : Move :=
  match s.plan with
  | m :: _ => m
  | [] => if s.busy then .complete else .host

/-- The plan without its first move. -/
def State.takeMove (s : State) : State := { s with plan := s.plan.tail }

/-- One move of an agent. -/
def runMove (m : Move) (s : State) : Outcome :=
  match m with
  | .host => hostStep s
  | .complete => completionStep s
  | .inner => innerStep s
  | .reset => .next s.applyReset

/-! ### Placing one instruction where the next step fetches it (log 12, log 13) -/

/-- The core walks data or parses a tree of a running DECOMPRESS. -/
def State.atUnit (s : State) (n : Word) (w : Work) : State :=
  { s with core := .busy { op := .decompress, n := n } w, plan := .inner :: s.plan }

/-- The host is about to write a word to CMD: that statement stands before its next one. -/
def State.atCommand (s : State) (w : Word) : State :=
  { s with
    host := { s.host with
      script := s.host.script.take s.host.pos ++ .wr32 0x000000 (.lit w) :: s.host.script.drop s.host.pos
      pos := min s.host.pos s.host.script.length }
    plan := .host :: s.plan }

/-- A running DECOMPRESS is about to decode a frame, which stands in IBUF: an operand body of two zero bytes, then the
trailer. -/
def State.atTrailer (s : State) (tr : Byte) : State :=
  State.atUnit { s with ibuf := mapSet 2 tr (mapSet 1 0#8 (mapSet 0 0#8 s.ibuf)) } 3#32 (.frame [0#8, 0#8, tr])

/-- The state in which the next step fetches an instruction of a space from these bits. -/
def State.atBits (s : State) (sp : Space) (bits : Bits) : State :=
  match sp with
  | .cmdWord => s.atCommand (BitVec.ofNat 32 (valBE bits))
  | .frame => if bits = [] then s.atUnit 0#32 (.frame []) else s.atTrailer (byteBE bits)
  | .treeNode => s.atUnit s.inLen (.tree bits 0 [] [])
  | .dataBit => s.atUnit s.inLen (.walk (.internal (.leaf 0#8) (.leaf 0#8)) (.internal (.leaf 0#8) (.leaf 0#8)) 0 bits 0 [])

end Sys2Proof.Machine
end

