-- ==== Sys2Proof/Machine/Step.lean ====
section
/-! DEFINITION. The step of the machine: the next agent moves. -/

namespace Sys2Proof.Machine

/-- One step: the scheduler's next move is taken off the plan and made (10_state.md R13; log 4). -/
def step (s : State) : Host.Outcome State Fault Refusal := runMove s.nextMove s.takeMove

/-- The state with one table word placed where the next step fetches its instruction (log 12, log 13). -/
def State.withFetchWord (s : State) (nbits w : Nat) : State :=
  match spaceOfWidth nbits with
  | none => s
  | some sp => s.atBits sp (tableBits nbits w)

end Sys2Proof.Machine
end

