-- ==== Sys2Proof/Safety.lean ====
section
/-! DEFINITION. What holds of every state of a run: the invariant of the shell, in the terms the claims use. -/

namespace Sys2Proof.Machine

/-- The invariant of the machine. The first state has it, and every step keeps it. -/
structure State.Inv (s : State) : Prop where
  /-- The parameters are ones 00_scope.md R6 and R7 allow. -/
  legal : s.params.Legal
  /-- IBUF is in canonical form. -/
  ibufWf : s.ibuf.wf = true
  /-- IBUF has IBUF_SIZE bytes (10_state.md R25). -/
  ibufWithin : Memory.within s.params.ibufSize s.ibuf = true
  /-- OBUF is in canonical form. -/
  obufWf : s.obuf.wf = true
  /-- OBUF has OBUF_SIZE bytes (10_state.md R26). -/
  obufWithin : Memory.within s.params.obufSize s.obuf = true
  /-- BUSY and DONE are never both 1 (10_state.md R20). -/
  busyNotDone : s.busy = true → s.done = false
  /-- ERR reads 0 until a command has finished (10_state.md R21). -/
  errNeedsDone : s.done = false → s.err = 0#4
  /-- The codes 8-15 are never produced (60_exceptions.md R118). -/
  errCode : s.err.toNat ≤ 7
  /-- OUT_LEN is 0 after every error (60_exceptions.md R119). -/
  errNoOutput : s.err ≠ 0#4 → s.outLen = 0#32
  /-- OUT_LEN never exceeds OBUF_SIZE (45_command_interface.md R107). -/
  outLenFits : s.outLen.toNat ≤ s.params.obufSize
  /-- After a success OBUF⟨0 ..< OUT_LEN⟩ has values, and no other byte does (10_state.md R26). -/
  resultStands : s.done = true → s.err = 0#4 → ∃ out, s.obuf = Memory.ofBytes 0 out ∧ out.length = s.outLen.toNat
  /-- IN_LEN is still what the running command latched (10_state.md R27, 70_reset_and_hazards.md R135). -/
  latchIsInLen : ∀ l w, s.core = .busy l w → l.n = s.inLen
  /-- The host's variables are in canonical form. -/
  varsSorted : mapSorted s.host.vars = true

/-- The running command can read its whole input (70_reset_and_hazards.md R133): `input` is IBUF⟨0 ..< n⟩. -/
def State.inputIs (s : State) (l : Latch) (input : Bytes) : Prop :=
  l.n.toNat ≤ s.params.ibufSize ∧ s.ibuf.read 0 l.n.toNat = .ok input

end Sys2Proof.Machine
end

