-- ==== Sys2Proof/WellFormed.lean ====
section
/-! DEFINITION. Which instructions have an encoding of their own: every field is a bit vector of its encoded width, so
the one check left is that ILLEGAL_COMMAND does not hold the word of another row (30_encoding.md R55). -/

namespace Sys2Proof

/-- The word is COMPRESS's or DECOMPRESS's (30_encoding.md R55). -/
def isLegalCommand (w : Word) : Bool := w == 1#32 || w == 2#32

/-- An instruction that some word or bit sequence decodes to. -/
def Instr.wellFormed : Instr → Bool
  | .illegalCommand op => !isLegalCommand op
  | .compress => true
  | .decompress => true
  | .frameEmpty => true
  | .frameStored _ => true
  | .frameCompressed _ _ => true
  | .treeInternal => true
  | .treeLeaf _ => true
  | .dataLeft => true
  | .dataRight => true

/-- The trailers COMPRESS itself writes (30_encoding.md R59): PAD at most 7 and every unused bit 0. A frame whose trailer
is not of this form still decodes (30_encoding.md R68). -/
def Instr.writtenByCompress : Instr → Bool
  | .frameStored ignored => ignored == 0#7
  | .frameCompressed pad rsv => pad.toNat ≤ 7 && rsv == 0#3
  | .compress => false
  | .decompress => false
  | .illegalCommand _ => false
  | .frameEmpty => true
  | .treeInternal => true
  | .treeLeaf _ => true
  | .dataLeft => true
  | .dataRight => true

end Sys2Proof
end

