-- ==== Sys2Proof/Certificates/Slice0/Obligations.lean ====
section
/-! DEFINITION. The statements about the machine, from the numbered rules of spec/. -/

open Sys2Proof Sys2Proof.Machine

/-! ### Encoding -/

/-- Decoding an encoded well-formed instruction gives it back, with every operand; in the spaces read from the front the
bits after it are left, in a frame the body before its trailer is left (30_encoding.md R55, R57-R59, R61). -/
def Obligations.DecodeReadsBackEncode : Prop :=
  ∀ i : Instr, i.wellFormed = true →
    decode i.space (encode i) = .ok (i, [])
    ∧ (i.space ≠ .frame → ∀ rest : Bits, decode i.space (encode i ++ rest) = .ok (i, rest))
    ∧ (i.space = .frame → i ≠ .frameEmpty → ∀ body : Bits, decode .frame (body ++ encode i) = .ok (i, body))

/-- Whatever bits decode, the instruction is well formed and its encoding is the bits that were read: no bit of a word is
dropped and no two words share an instruction (30_encoding.md R55, R59, R61, R63, R64). -/
def Obligations.DecodedBitsEncodeBack : Prop :=
  ∀ (sp : Space) (bits rest : Bits) (i : Instr), decode sp bits = .ok (i, rest) →
    i.wellFormed = true ∧ i.space = sp
    ∧ (sp ≠ .frame → bits = encode i ++ rest) ∧ (sp = .frame → bits = rest ++ encode i)

/-- Words written out from the encodings of 30_encoding.md (R55, R59, R61) and 44_decoder.md (R99). -/
def Obligations.WrittenOutWordsDecode : Prop :=
  decodeCmd 0x00000001#32 = .compress ∧ decodeCmd 0x00000002#32 = .decompress
  ∧ decodeCmd 0x00000000#32 = .illegalCommand 0#32 ∧ decodeCmd 0x00000003#32 = .illegalCommand 3#32
  ∧ decodeFrame [] = .frameEmpty
  ∧ decodeFrame [0x61#8, 0x62#8, 0xFE#8] = .frameStored 0x7F#7
  ∧ decodeFrame [0x00#8, 0x09#8, 0xB0#8, 0x80#8, 0x1F#8] = .frameCompressed 1#4 7#3
  ∧ decodeNode [false, true] = .ok (.treeInternal, [true])
  ∧ decodeNode [true, false, true, true, false, false, false, false, true] = .ok (.treeLeaf 0x61#8, [])
  ∧ decodeData [false] = .ok (.dataLeft, []) ∧ decodeData [true, false] = .ok (.dataRight, [false])

/-- A step runs the decoded instruction: the CMD word the host writes, the frame, the tree node or the data bit at the
core's cursor, with the plan (and for the host its position) moved on. That the plan picks the agent is the model's choice
(log 4), and so are the core's steps for each unit of a frame (log 3): R13 gives the core accept and complete alone. -/
def Obligations.StepRunsTheDecodedInstruction : Prop :=
  ∀ s : State,
    (∀ (v : Val) (w : Word), s.nextMove = .host → s.host.script[s.host.pos]? = some (.wr32 0x000000 v) →
      v.eval s.host.vars = some w → step s = exec (decodeCmd w) s.takeMove.advanceHost)
    ∧ (∀ (l : Latch) (input : Bytes), s.nextMove = .inner → s.core = .busy l (.frame input) →
      step s = exec (decodeFrame input) s.takeMove)
    ∧ (∀ (l : Latch) (tb : Bits) (cursor : Nat) (stack : List (Option PrefixTree)) (d rest : Bits) (i : Instr),
      s.nextMove = .inner → s.core = .busy l (.tree tb cursor stack d) → decodeNode (tb.drop cursor) = .ok (i, rest) →
      step s = exec i s.takeMove)
    ∧ (∀ (l : Latch) (tree cur : PrefixTree) (depth : Nat) (d : Bits) (pos : Nat) (out : Bytes) (rest : Bits) (i : Instr),
      s.nextMove = .inner → s.core = .busy l (.walk tree cur depth d pos out) →
      decodeData (d.drop pos) = .ok (i, rest) → step s = exec i s.takeMove)

/-- The trailers MakeTrailer builds are the encodings of the frame instructions, and ParseTrailer reads them back
(42_bit_packer.md R90, R91; 30_encoding.md R59). -/
def Obligations.TrailersEncodeTheFrameKinds : Prop :=
  storedTrailer = encodeStored 0#7
  ∧ (∀ p : Nat, p ≤ 7 → makeTrailer p = encodeCompressed (BitVec.ofNat 4 p) 0#3 ∧ parseTrailer (makeTrailer p) = (true, p))
  ∧ (∀ tr : Byte, (parseTrailer tr).1 = tr.getLsbD 0 ∧ (parseTrailer tr).2 = tr.toNat / 16)

/-! ### Commands -/

/-- Acceptance (45_command_interface.md R103): the COMPRESS and DECOMPRESS words, written to CMD while BUSY = 0, latch the
operation and IN_LEN and set BUSY 1, DONE 0, ERR 0; nothing else changes, OUT_LEN and OBUF among it. -/
def Obligations.CommandsAreAccepted : Prop :=
  ∀ s : State, s.busy = false →
    (∀ t : State, t = { s with core := .busy { op := .compress, n := s.inLen } .accepted, done := false, err := 0#4 } →
      exec .compress s = .next t ∧ busWrite 0x000000 4 0x00000001#32 s = .next t ∧ t.busy = true)
    ∧ (∀ t : State, t = { s with core := .busy { op := .decompress, n := s.inLen } .accepted, done := false, err := 0#4 } →
      exec .decompress s = .next t ∧ busWrite 0x000000 4 0x00000002#32 s = .next t ∧ t.busy = true)

/-- A CMD write while BUSY = 1 changes no state, whatever its value (45_command_interface.md R104). -/
def Obligations.CommandWriteWhileBusyIsIgnored : Prop :=
  ∀ s : State, s.busy = true →
    (∀ w : Word, busWrite 0x000000 4 w s = .next s)
    ∧ exec .compress s = .next s ∧ exec .decompress s = .next s ∧ ∀ op : Word, exec (.illegalCommand op) s = .next s

/-- Every other CMD word, written while BUSY = 0, sets DONE 1, ERR 5 and OUT_LEN 0 in the same step and changes nothing
else; STATUS then reads 0x52 (45_command_interface.md R105). -/
def Obligations.IllegalCommandIsReported : Prop :=
  ∀ (s : State) (op : Word), s.busy = false → op ≠ 0x00000001#32 → op ≠ 0x00000002#32 →
    ∀ t : State, t = { s with core := .idle, done := true, err := 5#4, outLen := 0#32 } →
      exec (.illegalCommand op) s = .next t ∧ busWrite 0x000000 4 op s = .next t
      ∧ t.busy = false ∧ t.status = 0x00000052#32

/-- The frame of every instruction: the parameters, IN_LEN, every IBUF and OBUF byte, and the agents outside the core are
unchanged; the frame, tree-node and data-bit instructions change no register and keep the command latch; COMPRESS and
DECOMPRESS leave OUT_LEN. -/
def Obligations.InstructionsChangeOnlyTheCore : Prop :=
  ∀ (i : Instr) (s t : State), exec i s = .next t →
    t.params = s.params ∧ t.inLen = s.inLen ∧ t.draws = s.draws ∧ t.host = s.host ∧ t.plan = s.plan
    ∧ (∀ a : Nat, t.ibuf.get a = s.ibuf.get a) ∧ (∀ a : Nat, t.obuf.get a = s.obuf.get a)
    ∧ (i.space ≠ .cmdWord → t.done = s.done ∧ t.err = s.err ∧ t.outLen = s.outLen
        ∧ ∀ (l : Latch) (w : Work), s.core = .busy l w → ∃ w' : Work, t.core = .busy l w')
    ∧ (i = .compress ∨ i = .decompress → t.outLen = s.outLen)

/-! ### The units of a frame -/

/-- FRAME_EMPTY decodes to the empty output; FRAME_STORED to every byte but the trailer, whatever its bits 7:1
(30_encoding.md R56, R58; 44_decoder.md R100). -/
def Obligations.EmptyAndStoredFramesYieldTheirBytes : Prop :=
  ∀ (s : State) (l : Latch),
    (s.core = .busy l (.frame []) →
      exec .frameEmpty s = .next { s with core := .busy l (.finished (.ok [])) })
    ∧ (∀ (body : Bytes) (tr : Byte) (ignored : BitVec 7), s.core = .busy l (.frame (body ++ [tr])) →
      exec (.frameStored ignored) s = .next { s with core := .busy l (.finished (.ok body)) })

/-- FRAME_COMPRESSED (44_decoder.md R98): the bits before the trailer are the 16-bit header, a tree region of as many bits as
it counts, the data region, and `pad` bits that are dropped; CorruptStream when `pad` exceeds 7, when the header does
not fit, or when the tree region runs past the frame. -/
def Obligations.CompressedFrameIsSplit : Prop :=
  ∀ (s : State) (l : Latch) (body : Bytes) (tr : Byte) (pad : BitVec 4) (rsv : BitVec 3),
    s.core = .busy l (.frame (body ++ [tr])) →
    (7 < pad.toNat ∨ 8 * body.length < pad.toNat + 16 →
      exec (.frameCompressed pad rsv) s = .next { s with core := .busy l (.finished (.error .corruptStream)) })
    ∧ ∀ hdr rest padBits : Bits, unpack body = hdr ++ rest ++ padBits → hdr.length = 16 → padBits.length = pad.toNat →
      pad.toNat ≤ 7 →
      (rest.length < valBE hdr →
        exec (.frameCompressed pad rsv) s = .next { s with core := .busy l (.finished (.error .corruptStream)) })
      ∧ (valBE hdr ≤ rest.length →
        exec (.frameCompressed pad rsv) s =
          .next { s with core := .busy l (.tree (rest.take (valBE hdr)) 0 [] (rest.drop (valBE hdr))) })

/-- TREE_INTERNAL opens a node. TREE_LEAF closes the leaf and every node whose right subtree it completes (`lefts` are their
left subtrees, innermost first): the subtree becomes the left child of the node below, or, with no node left open, it is
the whole tree and the walk starts, unless tree bits are left over (41_tree_codec.md R83). -/
def Obligations.TreeNodesExtendTheOpenTree : Prop :=
  ∀ (s : State) (l : Latch) (tb : Bits) (c : Nat) (stack : List (Option PrefixTree)) (d : Bits),
    s.core = .busy l (.tree tb c stack d) →
    exec .treeInternal s = .next { s with core := .busy l (.tree tb (c + 1) (none :: stack) d) }
    ∧ ∀ (sym : Byte) (lefts : List PrefixTree) (closed : PrefixTree),
      closed = lefts.foldl (fun t left => .internal left t) (.leaf sym) →
      (∀ below : List (Option PrefixTree), stack = lefts.map some ++ none :: below →
        exec (.treeLeaf sym) s = .next { s with core := .busy l (.tree tb (c + 9) (some closed :: below) d) })
      ∧ (stack = lefts.map some → c + 9 = tb.length →
        exec (.treeLeaf sym) s = .next { s with core := .busy l (.walk closed closed 0 d 0 []) })
      ∧ (stack = lefts.map some → c + 9 ≠ tb.length →
        exec (.treeLeaf sym) s = .next { s with core := .busy l (.finished (.error .malformedTree)) })

/-- DATA_LEFT and DATA_RIGHT (44_decoder.md R99): from an internal cursor to its left or right child; a leaf reached emits its
symbol and the cursor returns to the root. In single-leaf mode a 0 emits the symbol and a 1 is CorruptStream. A cursor at
a leaf of a larger tree has no child: CorruptStream (the model's reading, log 22). -/
def Obligations.DataBitsWalkTheTree : Prop :=
  ∀ (s : State) (l : Latch) (tree cur : PrefixTree) (depth : Nat) (d : Bits) (pos : Nat) (out : Bytes),
    s.core = .busy l (.walk tree cur depth d pos out) →
    (∀ sym : Byte, tree = .leaf sym →
      exec .dataLeft s = .next { s with core := .busy l (.walk tree tree 0 d (pos + 1) (out ++ [sym])) }
      ∧ exec .dataRight s = .next { s with core := .busy l (.finished (.error .corruptStream)) })
    ∧ ∀ a b : PrefixTree, tree = .internal a b →
      (∀ sym : Byte, cur = .leaf sym →
        exec .dataLeft s = .next { s with core := .busy l (.finished (.error .corruptStream)) }
        ∧ exec .dataRight s = .next { s with core := .busy l (.finished (.error .corruptStream)) })
      ∧ ∀ left right : PrefixTree, cur = .internal left right →
        (∀ sym : Byte, left = .leaf sym →
          exec .dataLeft s = .next { s with core := .busy l (.walk tree tree 0 d (pos + 1) (out ++ [sym])) })
        ∧ (∀ x y : PrefixTree, left = .internal x y →
          exec .dataLeft s = .next { s with core := .busy l (.walk tree left (depth + 1) d (pos + 1) out) })
        ∧ (∀ sym : Byte, right = .leaf sym →
          exec .dataRight s = .next { s with core := .busy l (.walk tree tree 0 d (pos + 1) (out ++ [sym])) })
        ∧ (∀ x y : PrefixTree, right = .internal x y →
          exec .dataRight s = .next { s with core := .busy l (.walk tree right (depth + 1) d (pos + 1) out) })

/-! ### Completion and errors -/

/-- The error codes of 60_exceptions.md R118, and completion (45_command_interface.md R106-R108): with its input within IBUF_SIZE and written, an Ok result that fits OBUF
is reported with ERR 0, its length in OUT_LEN and its bytes in OBUF, no other OBUF byte having a value; an error is
reported with its code, OUT_LEN 0 and no OBUF byte having a value. Nothing else changes. -/
def Obligations.CompletionReportsTheResult : Prop :=
  (ErrorKind.treeTooLarge.code = 1#4 ∧ ErrorKind.malformedTree.code = 2#4 ∧ ErrorKind.corruptStream.code = 3#4
    ∧ ErrorKind.logicError.code = 4#4 ∧ ErrorKind.illegalCommand.code = 5#4 ∧ ErrorKind.lengthError.code = 6#4
    ∧ ErrorKind.outputOverflow.code = 7#4)
  ∧ ∀ (s : State) (l : Latch) (w : Work) (input : Bytes), s.params.Legal → s.core = .busy l w → s.inputIs l input →
    (∀ out : Bytes, codec l.op input = .ok out → out.length ≤ s.params.obufSize →
      ∃ t : State, completionStep s = .next t ∧ t.status = 0x00000002#32 ∧ t.outLen.toNat = out.length
        ∧ (∀ j : Nat, t.obuf.get j = out[j]?) ∧ t.core = .idle ∧ t.params = s.params ∧ t.inLen = s.inLen
        ∧ (∀ i : Nat, t.ibuf.get i = s.ibuf.get i) ∧ t.draws = s.draws ∧ t.host = s.host ∧ t.plan = s.plan)
    ∧ (∀ e : ErrorKind, codec l.op input = .error e →
      completionStep s =
        .next { s with core := .idle, done := true, err := e.code, outLen := 0#32, obuf := [] })

/-- A latched IN_LEN above IBUF_SIZE ends the command with LENGTH_ERROR (code 6), whatever IBUF holds; within it, LENGTH_ERROR
is never reported (45_command_interface.md R106). -/
def Obligations.LengthErrorWithoutReadingInput : Prop :=
  ∀ (s : State) (l : Latch) (w : Work), s.core = .busy l w →
    (s.params.ibufSize < l.n.toNat → ∀ m : Memory,
      completionStep { s with ibuf := m } =
        .next { s with core := .idle, done := true, err := 6#4, outLen := 0#32, ibuf := m, obuf := [] })
    ∧ (l.n.toNat ≤ s.params.ibufSize → ∀ t : State, completionStep s = .next t → t.err ≠ 6#4)

/-- An Ok result longer than OBUF_SIZE ends the command with OUTPUT_OVERFLOW (code 7); an error of the codec takes precedence;
with the default parameters code 7 is never reported (45_command_interface.md R107). -/
def Obligations.OutputOverflowIsReported : Prop :=
  ∀ (s : State) (l : Latch) (w : Work) (input : Bytes), s.core = .busy l w → s.inputIs l input →
    (∀ out : Bytes, codec l.op input = .ok out → s.params.obufSize < out.length →
      ∃ t : State, completionStep s = .next t ∧ t.done = true ∧ t.err = 7#4 ∧ t.outLen = 0#32)
    ∧ (∀ e : ErrorKind, codec l.op input = .error e →
      ∃ t : State, completionStep s = .next t ∧ t.done = true ∧ t.err = e.code ∧ t.outLen = 0#32)
    ∧ (s.params = Params.default → ∃ t : State, completionStep s = .next t ∧ t.err ≠ 7#4)

/-- Error entry (60_exceptions.md R121): a completion that reports an error sets BUSY 0, DONE 1, ERR, OUT_LEN 0, leaves OBUF
unspecified (every byte reads as a free draw) and changes nothing else; the next STATUS read shows the code. -/
def Obligations.ErrorEntrySavesNothingElse : Prop :=
  ∀ s t : State, s.busy = true → completionStep s = .next t → t.err ≠ 0#4 →
    t = { s with core := .idle, done := true, err := t.err, outLen := 0#32, obuf := [] }
    ∧ t.status = t.err.setWidth 32 <<< 4 ||| 0x00000002#32
    ∧ busRead 0x000004 4 t = .ok (t.status, t)
    ∧ t.err ∈ [1#4, 2#4, 3#4, 4#4, 6#4, 7#4]
    ∧ ∀ j : Nat, readTarget t (.obuf j) = ((Config.freeByte t.draws).setWidth 32, { t with draws := t.draws + 1 })

/-- A command that reads an IBUF byte not written since reset faults, naming the first such byte, at its completion
(10_state.md R25, 45_command_interface.md R108), and so does the first of the internal steps that are the model's choice
(log 3). -/
def Obligations.UnwrittenInputFaults : Prop :=
  ∀ (s : State) (l : Latch) (w : Work) (i : Nat), s.core = .busy l w → l.n.toNat ≤ s.params.ibufSize → i < l.n.toNat →
    (∀ j : Nat, j < i → s.ibuf.get j ≠ none) → s.ibuf.get i = none →
    completionStep s = .fault (.unwrittenInput i) ∧ (w = .accepted → innerStep s = .fault (.unwrittenInput i))

/-- After a successful completion the host reads it: STATUS 0x2, OUT_LEN, and each byte of OBUF⟨0 ..< OUT_LEN⟩, the reads
changing nothing (20_memory.md R46, R49). -/
def Obligations.CompletedResultIsVisible : Prop :=
  ∀ s t : State, s.params.Legal → s.busy = true → completionStep s = .next t → t.err = 0#4 →
    busRead 0x000004 4 t = .ok (0x00000002#32, t) ∧ busRead 0x00000C 4 t = .ok (t.outLen, t)
    ∧ t.outLen.toNat ≤ t.params.obufSize
    ∧ ∀ j : Nat, j < t.outLen.toNat →
      ∃ b : Byte, t.obuf.get j = some b ∧ busRead (0x200000 + j) 1 t = .ok (b.setWidth 32, t)

/-- Two commands with equal operation, equal n and equal IBUF⟨0 ..< n⟩ on equal parameters give equal STATUS, equal OUT_LEN and
equal OBUF⟨0 ..< OUT_LEN⟩, whatever else the machine holds (45_command_interface.md R111; 10_state.md R33). -/
def Obligations.CommandsAreIndependent : Prop :=
  ∀ (s1 s2 : State) (l : Latch) (w1 w2 : Work), s1.params = s2.params → s1.core = .busy l w1 → s2.core = .busy l w2 →
    (∀ i : Nat, i < l.n.toNat → s1.ibuf.get i = s2.ibuf.get i) → ∀ t1 : State, completionStep s1 = .next t1 →
    ∃ t2 : State, completionStep s2 = .next t2 ∧ t1.status = t2.status ∧ t1.outLen = t2.outLen
      ∧ ∀ j : Nat, j < t1.outLen.toNat → t1.obuf.get j = t2.obuf.get j

/-- A finished command's report stands until the host writes CMD, or reset (60_exceptions.md R122; 10_state.md R20): an
accepted word clears DONE and ERR and leaves OUT_LEN and OBUF, any other word puts code 5 and OUT_LEN 0 in its place, and a
step that is no CMD write leaves STATUS, OUT_LEN and OBUF. -/
def Obligations.ReportStandsUntilTheNextCommand : Prop :=
  ∀ s t : State, s.busy = false → s.done = true → step s = .next t → s.nextMove ≠ .reset →
    (∀ j : Nat, t.obuf.get j = s.obuf.get j)
    ∧ (∀ (v : Val) (w : Word), s.nextMove = .host → s.host.script[s.host.pos]? = some (.wr32 0x000000 v) →
      v.eval s.host.vars = some w →
      (w = 0x00000001#32 ∨ w = 0x00000002#32 → t.busy = true ∧ t.done = false ∧ t.err = 0#4 ∧ t.outLen = s.outLen)
      ∧ (w ≠ 0x00000001#32 → w ≠ 0x00000002#32 → t.busy = false ∧ t.done = true ∧ t.err = 5#4 ∧ t.outLen = 0#32))
    ∧ ((¬ ∃ v : Val, s.nextMove = .host ∧ s.host.script[s.host.pos]? = some (.wr32 0x000000 v)) →
      t.busy = false ∧ t.done = true ∧ t.err = s.err ∧ t.outLen = s.outLen)

/-! ### Registers, buffers and the bus -/

/-- STATUS (10_state.md R18): BUSY in bit 0, DONE in bit 1, ERR in bits 7:4, bits 3:2 and 31:8 zero; a read returns it, a
write is ignored. -/
def Obligations.StatusRegisterLayout : Prop :=
  ∀ s : State,
    s.status.getLsbD 0 = s.busy ∧ s.status.getLsbD 1 = s.done ∧ s.status.extractLsb' 4 4 = s.err
    ∧ s.status.extractLsb' 2 2 = 0#2 ∧ s.status.extractLsb' 8 24 = 0#24
    ∧ busRead 0x000004 4 s = .ok (s.status, s) ∧ ∀ v : Word, busWrite 0x000004 4 v s = .next s

/-- CMD reads 0 at any time; IN_LEN reads back, and takes every value written while BUSY = 0, nothing else changing; OUT_LEN
reads while BUSY = 0 and ignores writes (10_state.md R17, R22, R23; 20_memory.md R47). -/
def Obligations.RegistersReadAndWrite : Prop :=
  ∀ s : State,
    busRead 0x000000 4 s = .ok (0x00000000#32, s)
    ∧ busRead 0x000008 4 s = .ok (s.inLen, s)
    ∧ (s.busy = false → ∀ v : Word, busWrite 0x000008 4 v s = .next { s with inLen := v })
    ∧ (s.busy = false → busRead 0x00000C 4 s = .ok (s.outLen, s))
    ∧ ∀ v : Word, busWrite 0x00000C 4 v s = .next s

/-- A legal-form read of a reserved offset returns 0 and a legal-form write to one is ignored; neither changes any state
(20_memory.md R35, R38). -/
def Obligations.ReservedOffsetsReadZero : Prop :=
  ∀ (s : State) (off width : Nat) (data : Word), s.params.Legal → legalForm off width = true →
    ((0x000010 ≤ off ∧ off < 0x100000) ∨ (0x100000 + s.params.ibufSize ≤ off ∧ off < 0x200000)
      ∨ (0x200000 + s.params.obufSize ≤ off)) →
    busRead off width s = .ok (0x00000000#32, s) ∧ busWrite off width data s = .next s

/-- Every access form but the two legal ones is refused, and no legal form is, whatever the data of a write (20_memory.md R36,
R37, R44). -/
def Obligations.UnsupportedFormsAreRefused : Prop :=
  ∀ (s : State) (off width : Nat) (data : Word),
    ((width ≠ 1 ∧ width ≠ 4) ∨ 0x1000000 ≤ off ∨ (width = 1 ∧ off < 0x100000)
        ∨ (width = 4 ∧ (off % 4 ≠ 0 ∨ 0x100000 ≤ off)) →
      busRead off width s = .error .unsupportedAccess ∧ busWrite off width data s = .refused .unsupportedAccess)
    ∧ ((width = 4 ∧ off % 4 = 0 ∧ off < 0x100000) ∨ (width = 1 ∧ 0x100000 ≤ off ∧ off < 0x1000000) →
      (∃ (v : Word) (t : State), busRead off width s = .ok (v, t))
      ∧ ∀ r : Refusal, busWrite off width data s ≠ .refused r)

/-- An IBUF byte written while BUSY = 0 holds the value and reads back, and no other byte and no other state changes
(10_state.md R25; 20_memory.md R35, R47). Of data wider than a byte a free draw is stored, and only the count of draws
changes with it (the model's choice, log 10). -/
def Obligations.InputBufferHoldsWhatWasWritten : Prop :=
  ∀ (s : State) (i : Nat), s.params.Legal → s.busy = false → i < s.params.ibufSize →
    (∀ b : Byte, ∃ t : State, busWrite (0x100000 + i) 1 (b.setWidth 32) s = .next t
      ∧ t.ibuf.get i = some b ∧ (∀ j : Nat, j ≠ i → t.ibuf.get j = s.ibuf.get j)
      ∧ t = { s with ibuf := t.ibuf } ∧ busRead (0x100000 + i) 1 t = .ok (b.setWidth 32, t))
    ∧ ∀ data : Word, 256 ≤ data.toNat → ∃ t : State, busWrite (0x100000 + i) 1 data s = .next t
      ∧ t.ibuf.get i = some (Config.freeByte s.draws) ∧ (∀ j : Nat, j ≠ i → t.ibuf.get j = s.ibuf.get j)
      ∧ t = { s with ibuf := t.ibuf, draws := s.draws + 1 }

/-- Host writes to OBUF are ignored; while BUSY = 0 an OBUF byte with a value reads as it; an OBUF byte without one, and an
IBUF byte never written, read as a free draw, and only the count of draws changes (10_state.md R25, R26;
70_reset_and_hazards.md R132; 20_memory.md R47). -/
def Obligations.UnspecifiedBytesAreFreeDraws : Prop :=
  ∀ s : State, s.params.Legal →
    (∀ (j : Nat) (data : Word), j < s.params.obufSize → busWrite (0x200000 + j) 1 data s = .next s)
    ∧ (∀ (j : Nat) (b : Byte), j < s.params.obufSize → s.busy = false → s.obuf.get j = some b →
      busRead (0x200000 + j) 1 s = .ok (b.setWidth 32, s))
    ∧ (∀ j : Nat, j < s.params.obufSize → s.busy = false → s.obuf.get j = none →
      busRead (0x200000 + j) 1 s = .ok ((Config.freeByte s.draws).setWidth 32, { s with draws := s.draws + 1 }))
    ∧ (∀ i : Nat, i < s.params.ibufSize → s.ibuf.get i = none →
      busRead (0x100000 + i) 1 s = .ok ((Config.freeByte s.draws).setWidth 32, { s with draws := s.draws + 1 }))

/-- While BUSY = 1, OUT_LEN and every OBUF byte read as a free draw, one for each read; CMD, STATUS, IN_LEN, every IBUF byte and
every reserved offset keep their meaning (70_reset_and_hazards.md R136; 10_state.md R17; 20_memory.md R38), which for an
IBUF byte never written is a free draw (read from 10_state.md R25, log 7). -/
def Obligations.ReadsWhileBusyAreFreeDraws : Prop :=
  ∀ s : State, s.params.Legal → s.busy = true →
    busRead 0x00000C 4 s = .ok (Config.freeWord s.draws, { s with draws := s.draws + 1 })
    ∧ (∀ j : Nat, j < s.params.obufSize →
      busRead (0x200000 + j) 1 s = .ok ((Config.freeByte s.draws).setWidth 32, { s with draws := s.draws + 1 }))
    ∧ busRead 0x000000 4 s = .ok (0x00000000#32, s) ∧ busRead 0x000004 4 s = .ok (s.status, s)
    ∧ busRead 0x000008 4 s = .ok (s.inLen, s)
    ∧ (∀ i : Nat, i < s.params.ibufSize →
      (∀ b : Byte, s.ibuf.get i = some b → busRead (0x100000 + i) 1 s = .ok (b.setWidth 32, s))
      ∧ (s.ibuf.get i = none →
        busRead (0x100000 + i) 1 s = .ok ((Config.freeByte s.draws).setWidth 32, { s with draws := s.draws + 1 })))
    ∧ ∀ off width : Nat, legalForm off width = true →
      ((0x000010 ≤ off ∧ off < 0x100000) ∨ (0x100000 + s.params.ibufSize ≤ off ∧ off < 0x200000)
        ∨ 0x200000 + s.params.obufSize ≤ off) →
      busRead off width s = .ok (0x00000000#32, s)

/-- A host write to IN_LEN or to an IBUF byte while BUSY = 1 faults with the host hazard (70_reset_and_hazards.md R135). That
no other write faults is read from R47, R104 and R138 (DEDUCED, log 11). -/
def Obligations.HostHazardFaults : Prop :=
  ∀ s : State,
    (s.busy = true → s.params.Legal →
      (∀ data : Word, busWrite 0x000008 4 data s = .fault .hostHazard)
      ∧ ∀ (i : Nat) (data : Word), i < s.params.ibufSize →
        busWrite (0x100000 + i) 1 data s = .fault .hostHazard)
    ∧ ∀ (off width : Nat) (data : Word) (r : Fault), busWrite off width data s = .fault r →
      s.busy = true ∧ r = .hostHazard
      ∧ (off = 0x000008 ∨ (0x100000 ≤ off ∧ off < 0x100000 + s.params.ibufSize))

/-- The host statements (30_encoding.md R70, R71): each issues its access and goes on; `rd32` and `rd8` assign the value;
`poll` goes on exactly when `(value & mask) = v`; `bnz` branches exactly when its variable is not 0, to the first of the
labels with its name (the model's choice, log 20). -/
def Obligations.HostStatementsIssueTheirAccess : Prop :=
  ∀ s : State, s.nextMove = .host →
    (∀ (off : Nat) (v : Val) (w : Word), s.host.script[s.host.pos]? = some (.wr32 off v) →
      v.eval s.host.vars = some w → step s = busWrite off 4 w s.takeMove.advanceHost)
    ∧ (∀ (off : Nat) (v : Val) (w : Word), s.host.script[s.host.pos]? = some (.wr8 off v) →
      v.eval s.host.vars = some w → step s = busWrite off 1 w s.takeMove.advanceHost)
    ∧ (∀ (off name : Nat) (value : Word) (t : State), s.host.script[s.host.pos]? = some (.rd32 off name) →
      busRead off 4 s.takeMove = .ok (value, t) → step s = .next (t.assignHost name value).advanceHost)
    ∧ (∀ (off name : Nat) (value : Word) (t : State), s.host.script[s.host.pos]? = some (.rd8 off name) →
      busRead off 1 s.takeMove = .ok (value, t) → step s = .next (t.assignHost name value).advanceHost)
    ∧ (∀ (off : Nat) (mask : Word) (v : Val) (w value : Word) (t : State),
      s.host.script[s.host.pos]? = some (.poll off mask v) → v.eval s.host.vars = some w →
      busRead off 4 s.takeMove = .ok (value, t) →
      (value &&& mask = w → step s = .next t.advanceHost) ∧ (value &&& mask ≠ w → step s = .next t))
    ∧ (∀ name : Nat, s.host.script[s.host.pos]? = some (.label name) → step s = .next s.takeMove.advanceHost)
    ∧ (∀ (name lbl : Nat) (v : Word), s.host.script[s.host.pos]? = some (.bnz name lbl) →
      mapGet name s.host.vars = some v →
      (v = 0#32 → step s = .next s.takeMove.advanceHost)
      ∧ (v ≠ 0#32 → ∀ k : Nat, s.host.script[k]? = some (.label lbl) →
          (∀ j : Nat, j < k → s.host.script[j]? ≠ some (.label lbl)) → step s = .next (s.takeMove.jumpHost k)))

/-! ### Reset -/

/-- Reset (70_reset_and_hazards.md R132; 00_scope.md R6): the core IDLE, STATUS, IN_LEN and OUT_LEN 0, CMD reads 0, every IBUF
byte unwritten, every OBUF byte without a value, the default parameters. -/
def Obligations.ResetValues : Prop :=
  State.reset.core = .idle ∧ State.reset.status = 0x00000000#32 ∧ State.reset.inLen = 0x00000000#32
  ∧ State.reset.outLen = 0x00000000#32 ∧ busRead 0x000000 4 State.reset = .ok (0x00000000#32, State.reset)
  ∧ (∀ i : Nat, State.reset.ibuf.get i = none) ∧ (∀ j : Nat, State.reset.obuf.get j = none)
  ∧ State.reset.params.ibufSize = 65536 ∧ State.reset.params.obufSize = 524288

/-- Reset applied at any time (70_reset_and_hazards.md R131): a running command is abandoned, every register takes its reset
value, every IBUF byte is unwritten and every OBUF byte unspecified. The parameters and the agents outside the block stay
(the model's choice, log 18). -/
def Obligations.ResetAbandonsTheCommand : Prop :=
  ∀ s : State, s.nextMove = .reset →
    step s = .next { s with
      core := .idle, done := false, err := 0#4, inLen := 0#32, outLen := 0#32, ibuf := [], obuf := [], plan := s.plan.tail }

/-! ### The whole machine -/

/-- The first state has the invariant. -/
def Obligations.ResetHasTheInvariant : Prop := State.reset.Inv

/-- Every step keeps the invariant: both buffers in canonical form and within their sizes, BUSY and DONE never both 1, ERR
within the codes and 0 until a command finishes, OUT_LEN 0 after an error and never above OBUF_SIZE, a finished result
standing whole in OBUF, and IN_LEN what the running command latched. -/
def Obligations.StepKeepsTheInvariant : Prop :=
  ∀ s t : State, s.Inv → step s = .next t → t.Inv

/-- The core state machine (10_state.md R15): STATUS.BUSY mirrors it and reset leaves it IDLE; over one step it leaves IDLE
only by an accepted CMD write, and leaves BUSY only by completion or reset. Completion is the atomic step of R108 or the
last internal step, which makes the same state change and is the model's choice (log 3). -/
def Obligations.BusyChangesOnlyByCommandCompletionOrReset : Prop :=
  State.reset.core = .idle ∧ (∀ s : State, s.status.getLsbD 0 = s.core.isBusy)
  ∧ ∀ s t : State, step s = .next t →
    (s.core.isBusy = false → t.core.isBusy = true → s.nextMove = .host ∧ ∃ (v : Val) (w : Word),
      s.host.script[s.host.pos]? = some (.wr32 0x000000 v) ∧ v.eval s.host.vars = some w
      ∧ ((w = 0x00000001#32 ∧ t.core = .busy { op := .compress, n := s.inLen } .accepted)
        ∨ (w = 0x00000002#32 ∧ t.core = .busy { op := .decompress, n := s.inLen } .accepted)))
    ∧ (s.core.isBusy = true → t.core.isBusy = false →
      s.nextMove = .reset ∨ ((s.nextMove = .complete ∨ s.nextMove = .inner) ∧ t.done = true))

/-- The core never writes IBUF or IN_LEN (10_state.md R22, R25; 20_memory.md R39), and no step of any agent changes the
parameters, which 00_scope.md R6 fixes for an implementation and the model holds in State (its choice, log 1). -/
def Obligations.CoreNeverWritesItsInput : Prop :=
  ∀ s t : State, step s = .next t →
    t.params = s.params
    ∧ (s.nextMove = .complete ∨ s.nextMove = .inner →
      t.inLen = s.inLen ∧ (∀ i : Nat, t.ibuf.get i = s.ibuf.get i) ∧ t.draws = s.draws ∧ t.host = s.host)

/-- Where a step stops. Faults: the host's statement writes IN_LEN or an IBUF byte while BUSY = 1 (70_reset_and_hazards.md
R135), or a command reads an IBUF byte never written (10_state.md R25). Refusals: the host's statement makes an access of
an unsupported form (20_memory.md R37), or the script is one 30_encoding.md R70 gives no meaning, using an unassigned
variable or branching to an absent label (the model's choice, log 20). No step reaches an instruction its core is not at
(log 9), and no instruction is left without a meaning. -/
def Obligations.StepStopsOnlyWhereTheSpecSays : Prop :=
  ∀ s : State,
    (step s = .fault .hostHazard → s.busy = true ∧ s.nextMove = .host ∧ ∃ (v : Val) (data : Word),
      v.eval s.host.vars = some data
      ∧ (s.host.script[s.host.pos]? = some (.wr32 0x000008 v)
        ∨ ∃ i : Nat, i < s.params.ibufSize ∧ s.host.script[s.host.pos]? = some (.wr8 (0x100000 + i) v)))
    ∧ (∀ i : Nat, step s = .fault (.unwrittenInput i) →
      (s.nextMove = .complete ∨ s.nextMove = .inner) ∧ s.ibuf.get i = none
      ∧ ∃ (l : Latch) (w : Work), s.core = .busy l w ∧ i < l.n.toNat ∧ l.n.toNat ≤ s.params.ibufSize)
    ∧ (step s = .refused .unsupportedAccess → s.nextMove = .host ∧ ∃ (st : Stmt) (off width : Nat),
      s.host.script[s.host.pos]? = some st
      ∧ (st.request s.host.vars = .access (.read off width)
        ∨ ∃ data : Word, st.request s.host.vars = .access (.write off width data))
      ∧ ¬ (width = 4 ∧ off % 4 = 0 ∧ off < 0x100000) ∧ ¬ (width = 1 ∧ 0x100000 ≤ off ∧ off < 0x1000000))
    ∧ (step s = .refused .unboundVariable → s.nextMove = .host ∧ ∃ name : Nat, mapGet name s.host.vars = none
      ∧ ((∃ off : Nat, s.host.script[s.host.pos]? = some (.wr32 off (.var name)))
        ∨ (∃ off : Nat, s.host.script[s.host.pos]? = some (.wr8 off (.var name)))
        ∨ (∃ (off : Nat) (mask : Word), s.host.script[s.host.pos]? = some (.poll off mask (.var name)))
        ∨ ∃ lbl : Nat, s.host.script[s.host.pos]? = some (.bnz name lbl)))
    ∧ (step s = .refused .missingLabel → s.nextMove = .host ∧ ∃ (name lbl : Nat) (v : Word),
      s.host.script[s.host.pos]? = some (.bnz name lbl) ∧ mapGet name s.host.vars = some v ∧ v ≠ 0#32
      ∧ ∀ k : Nat, s.host.script[k]? ≠ some (.label lbl))
    ∧ step s ≠ .refused .outOfPhase ∧ ∀ m : String, step s ≠ .refused (.notModelled m)

/-- The decoder's units have no meaning away from their place in a running DECOMPRESS: exec refuses them by name (the model's
choice, log 9). -/
def Obligations.UnitsAreRefusedAwayFromTheirPlace : Prop :=
  ∀ (i : Instr) (s : State), i.space ≠ .cmdWord →
    (exec i s = .refused .outOfPhase ↔
      ¬ ∃ (l : Latch) (w : Work), s.core = .busy l w
        ∧ ((i = .frameEmpty ∧ w = .frame [])
          ∨ (i.space = .frame ∧ i ≠ .frameEmpty ∧ ∃ input : Bytes, input ≠ [] ∧ w = .frame input)
          ∨ (i.space = .treeNode ∧ ∃ tb cursor stack d, w = .tree tb cursor stack d)
          ∨ (i.space = .dataBit ∧ ∃ tree cur depth d pos out, w = .walk tree cur depth d pos out)))

/-- After the plan, a running command whose input is written, or too long, completes in the next step: the scheduler's weak
fairness (70_reset_and_hazards.md R139; the model's scheduler, log 4). -/
def Obligations.AcceptedCommandCompletesAfterThePlan : Prop :=
  ∀ (s : State) (l : Latch) (w : Work), s.plan = [] → s.core = .busy l w →
    (s.params.ibufSize < l.n.toNat ∨ ∃ input : Bytes, s.inputIs l input) →
    ∃ t : State, step s = .next t ∧ t.busy = false ∧ t.done = true

/-- The core's internal steps, which are the model's choice (log 3: R13 gives the core accept and complete alone), refine its
atomic completion (45_command_interface.md R108): from acceptance some number of them reaches exactly the state the
completion gives; wherever they stand, the atomic completion still gives that state; and they fault where it does. -/
def Obligations.InternalStepsRefineTheCompletion : Prop :=
  ∀ (s : State) (l : Latch), s.core = .busy l .accepted →
    (∀ t : State, completionStep s = .next t → ∃ k : Nat, innerSteps k s = .next t)
    ∧ (∀ (k : Nat) (s' : State), innerSteps k s = .next s' → s'.busy = true → completionStep s' = completionStep s)
    ∧ (∀ r : Fault, completionStep s = .fault r → innerStep s = .fault r)

/-! ### The codec -/

/-- The round trip (44_decoder.md R102): every input within IBUF_SIZE is compressed without an error and decompressed to
itself; and so it is with every other prefix tree over the input's symbols, whatever the tie order. -/
def Obligations.DecompressInvertsCompress : Prop :=
  (∀ (p : Params) (data : Bytes), p.Legal → data.length ≤ p.ibufSize →
    ∃ out : Bytes, compress data = .ok out ∧ decompress out = .ok data)
  ∧ ∀ (tree : PrefixTree) (data : Bytes), tree.symbols.Nodup → (∀ b ∈ data, b ∈ tree.symbols) →
    ∃ out : Bytes, compressWith data tree = .ok out ∧ decompress out = .ok data

/-- The round trip on the machine: COMPRESS of a written input, and DECOMPRESS of its OBUF contents copied to IBUF, both
complete with success, and OBUF then holds the input again (45_command_interface.md R109, R110; 44_decoder.md R102;
70_reset_and_hazards.md R137). -/
def Obligations.CommandsRoundTripThroughTheBuffers : Prop :=
  ∀ (s : State) (data : Bytes), s.params.Legal → s.busy = false → s.inLen.toNat = data.length →
    data.length ≤ s.params.ibufSize → data.length + 1 ≤ s.params.obufSize → s.ibuf.read 0 data.length = .ok data →
    ∃ (t u : State) (out : Bytes), exec .compress s = .next t ∧ completionStep t = .next u
      ∧ u.status = 0x00000002#32 ∧ u.outLen.toNat = out.length ∧ (∀ j : Nat, u.obuf.get j = out[j]?)
      ∧ ∀ s' : State, s'.busy = false → s'.params = s.params → s'.inLen = u.outLen →
        out.length ≤ s.params.ibufSize → (∀ j : Nat, j < out.length → s'.ibuf.get j = u.obuf.get j) →
        ∃ t' u' : State, exec .decompress s' = .next t' ∧ completionStep t' = .next u'
          ∧ u'.status = 0x00000002#32 ∧ u'.outLen.toNat = data.length ∧ ∀ j : Nat, u'.obuf.get j = data[j]?

/-- FreqCount (40_prefix_tree.md R73): 256 counters, each the number of occurrences of its symbol, n in all, and none reaches
2^FREQ_WIDTH on an input within IBUF_SIZE. -/
def Obligations.FrequenciesCountTheInput : Prop :=
  ∀ data : Bytes, (freqCount data).length = 256 ∧ (freqCount data).sum = data.length
    ∧ (∀ b : Byte, (freqCount data)[b.toNat]? = some (data.count b))
    ∧ ∀ p : Params, p.Legal → data.length ≤ p.ibufSize → ∀ f ∈ freqCount data, f < 2 ^ 32

/-- BuildTree (40_prefix_tree.md R74, R75). It starts from one entry for each non-zero counter, in symbol order, the symbol its
key, and merges, with keys from 256 on, until one entry is left, whose tree it answers. A merge takes the two least entries
by (weight, key) as left and right child of a new last entry with their summed weight and the next key, and leaves the
others in their order. The tree has a leaf for each non-zero counter and no other, one internal node less, so at most
256 leaves, 255 internal nodes and 511 nodes; and every table with a non-zero counter has a tree. -/
def Obligations.BuiltTreeHasOneLeafForEachSymbol : Prop :=
  (∀ freq : List Nat, buildTree freq = mergeAll (initialQueue freq).length (initialQueue freq) 256
    ∧ ((initialQueue freq).map (·.key)).Pairwise (· < ·)
    ∧ ∀ e : Entry, e ∈ initialQueue freq ↔ ∃ (b : Byte) (w : Nat), freq[b.toNat]? = some w ∧ 0 < w
        ∧ e = { weight := w, key := b.toNat, tree := .leaf b })
  ∧ (∀ (fuel : Nat) (queue : List Entry) (next : Nat), queue.length ≤ fuel →
    (∀ queue' : List Entry, mergeOnce queue next = some queue' →
      mergeAll fuel queue next = mergeAll fuel queue' (next + 1))
    ∧ ∀ e : Entry, queue = [e] → mergeAll fuel queue next = some e.tree)
  ∧ (∀ (queue : List Entry) (next : Nat), 2 ≤ queue.length → (queue.map (·.key)).Nodup →
    ∃ (a b : Entry) (others : List Entry), queue.Perm (a :: b :: others) ∧ others.Sublist queue
      ∧ (∀ e ∈ b :: others, a.weight < e.weight ∨ (a.weight = e.weight ∧ a.key < e.key))
      ∧ (∀ e ∈ others, b.weight < e.weight ∨ (b.weight = e.weight ∧ b.key < e.key))
      ∧ mergeOnce queue next =
        some (others ++ [{ weight := a.weight + b.weight, key := next, tree := .internal a.tree b.tree }]))
  ∧ ∀ freq : List Nat, freq.length = 256 →
    ((∃ f ∈ freq, 0 < f) → ∃ tree : PrefixTree, buildTree freq = some tree)
    ∧ ∀ tree : PrefixTree, buildTree freq = some tree →
      tree.symbols.Nodup ∧ (∀ b : Byte, b ∈ tree.symbols ↔ ∃ f : Nat, freq[b.toNat]? = some f ∧ 0 < f)
      ∧ tree.internals + 1 = tree.leaves ∧ tree.leaves ≤ 256 ∧ tree.internals ≤ 255
      ∧ tree.leaves + tree.internals ≤ 511

/-- GenCodes (40_prefix_tree.md R76): in a tree without repeated symbols, exactly the leaves' symbols have a code, and a
symbol's code leads from the root to its leaf. -/
def Obligations.CodesLeadToTheirLeaves : Prop :=
  ∀ tree : PrefixTree, tree.symbols.Nodup → ∀ b : Byte,
    (b ∈ tree.symbols ↔ ∃ code : Bits, mapGet b.toNat (genCodes tree) = some code)
    ∧ ∀ code : Bits, mapGet b.toNat (genCodes tree) = some code → tree.follow code = some (.leaf b)

/-- For a tree with two or more leaves the code table is prefix-free, and every code has at least 1 bit
(40_prefix_tree.md R77). -/
def Obligations.CodesArePrefixFree : Prop :=
  ∀ tree : PrefixTree, 2 ≤ tree.leaves → ∀ (a : Nat) (codeA : Bits), mapGet a (genCodes tree) = some codeA →
    1 ≤ codeA.length
    ∧ ∀ (b : Nat) (codeB : Bits), b ≠ a → mapGet b (genCodes tree) = some codeB → ¬ codeA <+: codeB

/-- Code lengths of a built tree of k ≥ 2 leaves are 1 to k - 1, so at most 255, and they meet the Kraft equality
(40_prefix_tree.md R78), written here as a sum of 2^(255 - length). -/
def Obligations.CodeLengthsFillTheCodeSpace : Prop :=
  ∀ (freq : List Nat) (tree : PrefixTree), freq.length = 256 → buildTree freq = some tree → 2 ≤ tree.leaves →
    (∀ e ∈ genCodes tree, 1 ≤ e.2.length ∧ e.2.length ≤ tree.leaves - 1 ∧ e.2.length ≤ 255)
    ∧ ((genCodes tree).map fun e => 2 ^ (255 - e.2.length)).sum = 2 ^ 255

/-- When all 256 symbols occur equally often the code of each symbol is its own eight bits (40_prefix_tree.md R78). -/
def Obligations.EqualCountsGiveEightBitCodes : Prop :=
  ∀ (c : Nat) (tree : PrefixTree), 0 < c → buildTree (List.replicate 256 c) = some tree →
    ∀ b : Byte, mapGet b.toNat (genCodes tree) = some (bitsBE b.toNat 8)

/-- SerializedLength is the length of Serialize, 9 bits a leaf and 1 an internal node, so 10·leaves - 1; a tree COMPRESS builds
has at most 2559 bits (41_tree_codec.md R80, R81). -/
def Obligations.SerializedLengthCountsTheBits : Prop :=
  (∀ t : PrefixTree, serializedLength t = (serialize t).length
    ∧ serializedLength t = 9 * t.leaves + t.internals ∧ serializedLength t = 10 * t.leaves - 1)
  ∧ ∀ (data : Bytes) (t : PrefixTree), buildTree (freqCount data) = some t → serializedLength t ≤ 2559

/-- CheckTreeSize raises TreeTooLarge above 65535 bits, and COMPRESS never reaches it, nor LogicError: it fails on no input
(41_tree_codec.md R82; 43_encoder.md R92, R95; 60_exceptions.md R118). -/
def Obligations.CompressNeverFails : Prop :=
  (∀ t : Nat, checkTreeSize t = .error .treeTooLarge ↔ 65535 < t)
  ∧ (∀ t : Nat, checkTreeSize t = .ok () ↔ t ≤ 65535)
  ∧ ∀ data : Bytes, ∃ out : Bytes, compress data = .ok out

/-- Serializer and deserializer are inverse (41_tree_codec.md R86). -/
def Obligations.DeserializeInvertsSerialize : Prop :=
  (∀ (data : Bytes) (t : PrefixTree), buildTree (freqCount data) = some t → deserialize (serialize t) = .ok t)
  ∧ ∀ (bits : Bits) (t : PrefixTree), deserialize bits = .ok t → serialize t = bits

/-- What a TREE field of at most 65535 bits can hold: 6553 leaves, NODE_CAP = 13105 nodes, 6552 levels
(41_tree_codec.md R85). -/
def Obligations.DeserializerCapacityIsNeverExceeded : Prop :=
  ∀ (bits : Bits) (t : PrefixTree), bits.length ≤ 65535 → deserialize bits = .ok t →
    t.leaves ≤ 6553 ∧ t.leaves + t.internals ≤ 13105 ∧ t.depth ≤ 6552

/-- Pack and Unpack are inverse (42_bit_packer.md R87-R89), and most significant bit first: bit k of the bits is bit
7 - k mod 8 of byte k / 8, on both sides (20_memory.md R41). -/
def Obligations.UnpackInvertsPack : Prop :=
  (∀ (bits : Bits) (bytes : Bytes) (p : Nat), pack bits = (bytes, p) →
    p ≤ 7 ∧ unpack bytes = bits ++ List.replicate p false ∧ (unpack bytes).length - p = bits.length)
  ∧ (∀ bytes : Bytes, pack (unpack bytes) = (bytes, 0))
  ∧ (∀ (bytes : Bytes) (k : Nat) (b : Byte), bytes[k / 8]? = some b → (unpack bytes)[k]? = some (b.getLsbD (7 - k % 8)))
  ∧ ∀ (bits : Bits) (k : Nat) (x : Bool), bits[k]? = some x →
    ∃ b : Byte, (pack bits).1[k / 8]? = some b ∧ b.getLsbD (7 - k % 8) = x

/-- EncodeData of an input over its own tree succeeds with at least one bit a byte, and at most 255 (43_encoder.md R92;
45_command_interface.md R112). -/
def Obligations.EncodedDataHasABitForEachByte : Prop :=
  ∀ (data : Bytes) (tree : PrefixTree), buildTree (freqCount data) = some tree →
    ∃ d : Bits, encodeData data tree (genCodes tree) = .ok d ∧ data.length ≤ d.length ∧ d.length ≤ 255 * data.length
      ∧ (tree.leaves = 1 → d = List.replicate data.length false)

/-- Which form Compress answers, and how long it is (30_encoding.md R57, R58; 43_encoder.md R93-R96). An empty input gives the
empty output. For any other, with its tree of T bits and its encoded data of D bits: if ceil((16 + T + D) / 8) + 1 bytes
are fewer than the input's n, the output is those bytes, the packed header, tree and data and the trailer with their
padding count and FLAG 1; else it is the input and the trailer 0x00, n + 1 bytes. So it is never longer than n + 1. -/
def Obligations.CompressedLengthLaws : Prop :=
  ∀ data : Bytes,
    (data = [] → compress data = .ok [])
    ∧ (∀ (tree : PrefixTree) (d f : Bits), data ≠ [] → buildTree (freqCount data) = some tree →
      encodeData data tree (genCodes tree) = .ok d → f = bitsBE (serializedLength tree) 16 ++ serialize tree ++ d →
      ((16 + serializedLength tree + d.length + 7) / 8 + 1 < data.length →
        compress data = .ok ((pack f).1 ++ [BitVec.ofNat 8 (16 * (pack f).2 + 1)])
        ∧ (pack f).1.length + 1 = (16 + serializedLength tree + d.length + 7) / 8 + 1
        ∧ (BitVec.ofNat 8 (16 * (pack f).2 + 1)).getLsbD 0 = true)
      ∧ (data.length ≤ (16 + serializedLength tree + d.length + 7) / 8 + 1 →
        compress data = .ok (data ++ [0x00#8])))
    ∧ ∀ out : Bytes, compress data = .ok out → out.length ≤ data.length + 1
      ∧ (data ≠ [] → ∃ (tree : PrefixTree) (d : Bits), buildTree (freqCount data) = some tree
          ∧ encodeData data tree (genCodes tree) = .ok d)

/-- Every input of 1 to 5 bytes is stored (43_encoder.md R94). -/
def Obligations.ShortInputsAreStored : Prop :=
  ∀ data : Bytes, data ≠ [] → data.length ≤ 5 → compress data = .ok (data ++ [0x00#8])

/-- The output length of Decompress (44_decoder.md R101): n - 1 from a stored frame; at most 8·(n - 1) - 16 - 9 from a
compressed one; so at most max(n - 1, 8·(n - 1) - 25), which is at most 8·(n - 1). -/
def Obligations.DecompressedLengthBound : Prop :=
  ∀ frame out : Bytes, decompress frame = .ok out →
    (∀ tr : Byte, frame.getLast? = some tr → tr.getLsbD 0 = false → out.length = frame.length - 1)
    ∧ (∀ tr : Byte, frame.getLast? = some tr → tr.getLsbD 0 = true → out.length ≤ 8 * (frame.length - 1) - 16 - 9)
    ∧ out.length ≤ max (frame.length - 1) (8 * (frame.length - 1) - 25) ∧ out.length ≤ 8 * (frame.length - 1)

/-- What DECOMPRESS ignores (30_encoding.md R68; 42_bit_packer.md R91): bits 7:1 of a stored frame's trailer, bits 3:1 of a
compressed frame's trailer, and the values of the padding bits. -/
def Obligations.UnusedFrameBitsAreIgnored : Prop :=
  (∀ (body : Bytes) (tr : Byte), tr.getLsbD 0 = false → decompress (body ++ [tr]) = .ok body)
  ∧ (∀ (body body' : Bytes) (tr tr' : Byte), tr.getLsbD 0 = true → tr'.getLsbD 0 = true →
    tr.extractLsb' 4 4 = tr'.extractLsb' 4 4 → body.length = body'.length →
    (unpack body).take (8 * body.length - (tr.extractLsb' 4 4).toNat)
      = (unpack body').take (8 * body.length - (tr.extractLsb' 4 4).toNat) →
    decompress (body ++ [tr]) = decompress (body' ++ [tr']))

/-! ### Where a walk and a parse end -/

/-- The end of the walk (44_decoder.md R99). On the machine: with no data bit left the command's result is the bytes emitted
when the cursor is at the root, and CorruptStream inside a code word (the internal step is the model's choice, log 3). Of
the whole walk: it succeeds exactly on a sequence of whole code words, one for each byte; data that ends inside a code
word is CorruptStream, and no other error is raised; in single-leaf mode each 0 bit is one byte and a 1 is CorruptStream. -/
def Obligations.WalkEndsOnlyAfterWholeCodeWords : Prop :=
  (∀ (s : State) (l : Latch) (tree cur : PrefixTree) (depth : Nat) (d : Bits) (pos : Nat) (out : Bytes),
    s.core = .busy l (.walk tree cur depth d pos out) → d.drop pos = [] →
    (depth = 0 → innerStep s = .next { s with core := .busy l (.finished (.ok out)) })
    ∧ (depth ≠ 0 → innerStep s = .next { s with core := .busy l (.finished (.error .corruptStream)) }))
  ∧ (∀ (a b : PrefixTree) (d : Bits) (out : Bytes), walk (.internal a b) d = .ok out ↔
    ∃ codes : List Bits, codes.flatten = d
      ∧ List.Forall₂ (fun code sym => PrefixTree.follow (.internal a b) code = some (.leaf sym)) codes out)
  ∧ (∀ (a b x y : PrefixTree) (d part : Bits) (out : Bytes), walk (.internal a b) d = .ok out → part ≠ [] →
    PrefixTree.follow (.internal a b) part = some (.internal x y) →
    walk (.internal a b) (d ++ part) = .error .corruptStream)
  ∧ (∀ (sym : Byte) (d : Bits) (out : Bytes), walk (.leaf sym) d = .ok out ↔
    d = List.replicate out.length false ∧ out = List.replicate d.length sym)
  ∧ ∀ (tree : PrefixTree) (d : Bits) (e : ErrorKind), walk tree d = .error e → e = .corruptStream

/-- The errors of Deserialize (41_tree_codec.md R83). On the machine: a cursor past the tree bits, and fewer than 8 bits after
a leaf marker, end the command with MalformedTree (the internal step is the model's choice, log 3). Of the whole parse: it
gives the tree whose serialization the bits are, and MalformedTree, never another error, where they are no tree's. -/
def Obligations.DeserializeFailsOnlyWithMalformedTree : Prop :=
  (∀ (s : State) (l : Latch) (tb : Bits) (cursor : Nat) (stack : List (Option PrefixTree)) (d : Bits),
    s.core = .busy l (.tree tb cursor stack d) →
    (tb.length ≤ cursor ∨ ∃ rest : Bits, tb.drop cursor = true :: rest ∧ rest.length < 8) →
    innerStep s = .next { s with core := .busy l (.finished (.error .malformedTree)) })
  ∧ ∀ bits : Bits, (∃ t : PrefixTree, deserialize bits = .ok t ∧ serialize t = bits)
    ∨ (deserialize bits = .error .malformedTree ∧ ∀ t : PrefixTree, serialize t ≠ bits)
end

