-- ==== Sys2Proof/Laws/State.lean ====
section
/-! SUPPORT. One lemma for each field of each named update of State, so that no later proof unfolds a record update. -/

namespace Sys2Proof.Machine

variable (s : State)

/-! ### setIbuf -/

@[simp] theorem State.setIbuf_params (i : Nat) (b : Byte) : (s.setIbuf i b).params = s.params := rfl
@[simp] theorem State.setIbuf_core (i : Nat) (b : Byte) : (s.setIbuf i b).core = s.core := rfl
@[simp] theorem State.setIbuf_done (i : Nat) (b : Byte) : (s.setIbuf i b).done = s.done := rfl
@[simp] theorem State.setIbuf_err (i : Nat) (b : Byte) : (s.setIbuf i b).err = s.err := rfl
@[simp] theorem State.setIbuf_inLen (i : Nat) (b : Byte) : (s.setIbuf i b).inLen = s.inLen := rfl
@[simp] theorem State.setIbuf_outLen (i : Nat) (b : Byte) : (s.setIbuf i b).outLen = s.outLen := rfl
@[simp] theorem State.setIbuf_ibuf (i : Nat) (b : Byte) : (s.setIbuf i b).ibuf = mapSet i b s.ibuf := rfl
@[simp] theorem State.setIbuf_obuf (i : Nat) (b : Byte) : (s.setIbuf i b).obuf = s.obuf := rfl
@[simp] theorem State.setIbuf_draws (i : Nat) (b : Byte) : (s.setIbuf i b).draws = s.draws := rfl
@[simp] theorem State.setIbuf_host (i : Nat) (b : Byte) : (s.setIbuf i b).host = s.host := rfl
@[simp] theorem State.setIbuf_plan (i : Nat) (b : Byte) : (s.setIbuf i b).plan = s.plan := rfl

/-! ### setInLen -/

@[simp] theorem State.setInLen_params (w : Word) : (s.setInLen w).params = s.params := rfl
@[simp] theorem State.setInLen_core (w : Word) : (s.setInLen w).core = s.core := rfl
@[simp] theorem State.setInLen_done (w : Word) : (s.setInLen w).done = s.done := rfl
@[simp] theorem State.setInLen_err (w : Word) : (s.setInLen w).err = s.err := rfl
@[simp] theorem State.setInLen_inLen (w : Word) : (s.setInLen w).inLen = w := rfl
@[simp] theorem State.setInLen_outLen (w : Word) : (s.setInLen w).outLen = s.outLen := rfl
@[simp] theorem State.setInLen_ibuf (w : Word) : (s.setInLen w).ibuf = s.ibuf := rfl
@[simp] theorem State.setInLen_obuf (w : Word) : (s.setInLen w).obuf = s.obuf := rfl
@[simp] theorem State.setInLen_draws (w : Word) : (s.setInLen w).draws = s.draws := rfl
@[simp] theorem State.setInLen_host (w : Word) : (s.setInLen w).host = s.host := rfl
@[simp] theorem State.setInLen_plan (w : Word) : (s.setInLen w).plan = s.plan := rfl

/-! ### draw -/

@[simp] theorem State.draw_params : (s.draw).params = s.params := rfl
@[simp] theorem State.draw_core : (s.draw).core = s.core := rfl
@[simp] theorem State.draw_done : (s.draw).done = s.done := rfl
@[simp] theorem State.draw_err : (s.draw).err = s.err := rfl
@[simp] theorem State.draw_inLen : (s.draw).inLen = s.inLen := rfl
@[simp] theorem State.draw_outLen : (s.draw).outLen = s.outLen := rfl
@[simp] theorem State.draw_ibuf : (s.draw).ibuf = s.ibuf := rfl
@[simp] theorem State.draw_obuf : (s.draw).obuf = s.obuf := rfl
@[simp] theorem State.draw_draws : (s.draw).draws = s.draws + 1 := rfl
@[simp] theorem State.draw_host : (s.draw).host = s.host := rfl
@[simp] theorem State.draw_plan : (s.draw).plan = s.plan := rfl

/-! ### setWork -/

@[simp] theorem State.setWork_params (l : Latch) (w : Work) : (s.setWork l w).params = s.params := rfl
@[simp] theorem State.setWork_core (l : Latch) (w : Work) : (s.setWork l w).core = .busy l w := rfl
@[simp] theorem State.setWork_done (l : Latch) (w : Work) : (s.setWork l w).done = s.done := rfl
@[simp] theorem State.setWork_err (l : Latch) (w : Work) : (s.setWork l w).err = s.err := rfl
@[simp] theorem State.setWork_inLen (l : Latch) (w : Work) : (s.setWork l w).inLen = s.inLen := rfl
@[simp] theorem State.setWork_outLen (l : Latch) (w : Work) : (s.setWork l w).outLen = s.outLen := rfl
@[simp] theorem State.setWork_ibuf (l : Latch) (w : Work) : (s.setWork l w).ibuf = s.ibuf := rfl
@[simp] theorem State.setWork_obuf (l : Latch) (w : Work) : (s.setWork l w).obuf = s.obuf := rfl
@[simp] theorem State.setWork_draws (l : Latch) (w : Work) : (s.setWork l w).draws = s.draws := rfl
@[simp] theorem State.setWork_host (l : Latch) (w : Work) : (s.setWork l w).host = s.host := rfl
@[simp] theorem State.setWork_plan (l : Latch) (w : Work) : (s.setWork l w).plan = s.plan := rfl

/-! ### rejectCommand -/

@[simp] theorem State.rejectCommand_params : (s.rejectCommand).params = s.params := rfl
@[simp] theorem State.rejectCommand_core : (s.rejectCommand).core = .idle := rfl
@[simp] theorem State.rejectCommand_done : (s.rejectCommand).done = true := rfl
@[simp] theorem State.rejectCommand_err : (s.rejectCommand).err = ErrorKind.illegalCommand.code := rfl
@[simp] theorem State.rejectCommand_inLen : (s.rejectCommand).inLen = s.inLen := rfl
@[simp] theorem State.rejectCommand_outLen : (s.rejectCommand).outLen = 0#32 := rfl
@[simp] theorem State.rejectCommand_ibuf : (s.rejectCommand).ibuf = s.ibuf := rfl
@[simp] theorem State.rejectCommand_obuf : (s.rejectCommand).obuf = s.obuf := rfl
@[simp] theorem State.rejectCommand_draws : (s.rejectCommand).draws = s.draws := rfl
@[simp] theorem State.rejectCommand_host : (s.rejectCommand).host = s.host := rfl
@[simp] theorem State.rejectCommand_plan : (s.rejectCommand).plan = s.plan := rfl

/-! ### succeed -/

@[simp] theorem State.succeed_params (out : Bytes) : (s.succeed out).params = s.params := rfl
@[simp] theorem State.succeed_core (out : Bytes) : (s.succeed out).core = .idle := rfl
@[simp] theorem State.succeed_done (out : Bytes) : (s.succeed out).done = true := rfl
@[simp] theorem State.succeed_err (out : Bytes) : (s.succeed out).err = 0#4 := rfl
@[simp] theorem State.succeed_inLen (out : Bytes) : (s.succeed out).inLen = s.inLen := rfl
@[simp] theorem State.succeed_outLen (out : Bytes) : (s.succeed out).outLen = BitVec.ofNat 32 out.length := rfl
@[simp] theorem State.succeed_ibuf (out : Bytes) : (s.succeed out).ibuf = s.ibuf := rfl
@[simp] theorem State.succeed_obuf (out : Bytes) : (s.succeed out).obuf = Memory.ofBytes 0 out := rfl
@[simp] theorem State.succeed_draws (out : Bytes) : (s.succeed out).draws = s.draws := rfl
@[simp] theorem State.succeed_host (out : Bytes) : (s.succeed out).host = s.host := rfl
@[simp] theorem State.succeed_plan (out : Bytes) : (s.succeed out).plan = s.plan := rfl

/-! ### fail -/

@[simp] theorem State.fail_params (e : ErrorKind) : (s.fail e).params = s.params := rfl
@[simp] theorem State.fail_core (e : ErrorKind) : (s.fail e).core = .idle := rfl
@[simp] theorem State.fail_done (e : ErrorKind) : (s.fail e).done = true := rfl
@[simp] theorem State.fail_err (e : ErrorKind) : (s.fail e).err = e.code := rfl
@[simp] theorem State.fail_inLen (e : ErrorKind) : (s.fail e).inLen = s.inLen := rfl
@[simp] theorem State.fail_outLen (e : ErrorKind) : (s.fail e).outLen = 0#32 := rfl
@[simp] theorem State.fail_ibuf (e : ErrorKind) : (s.fail e).ibuf = s.ibuf := rfl
@[simp] theorem State.fail_obuf (e : ErrorKind) : (s.fail e).obuf = [] := rfl
@[simp] theorem State.fail_draws (e : ErrorKind) : (s.fail e).draws = s.draws := rfl
@[simp] theorem State.fail_host (e : ErrorKind) : (s.fail e).host = s.host := rfl
@[simp] theorem State.fail_plan (e : ErrorKind) : (s.fail e).plan = s.plan := rfl

/-! ### applyReset -/

@[simp] theorem State.applyReset_params : (s.applyReset).params = s.params := rfl
@[simp] theorem State.applyReset_core : (s.applyReset).core = .idle := rfl
@[simp] theorem State.applyReset_done : (s.applyReset).done = false := rfl
@[simp] theorem State.applyReset_err : (s.applyReset).err = 0#4 := rfl
@[simp] theorem State.applyReset_inLen : (s.applyReset).inLen = 0#32 := rfl
@[simp] theorem State.applyReset_outLen : (s.applyReset).outLen = 0#32 := rfl
@[simp] theorem State.applyReset_ibuf : (s.applyReset).ibuf = [] := rfl
@[simp] theorem State.applyReset_obuf : (s.applyReset).obuf = [] := rfl
@[simp] theorem State.applyReset_draws : (s.applyReset).draws = s.draws := rfl
@[simp] theorem State.applyReset_host : (s.applyReset).host = s.host := rfl
@[simp] theorem State.applyReset_plan : (s.applyReset).plan = s.plan := rfl

/-! ### advanceHost -/

@[simp] theorem State.advanceHost_params : (s.advanceHost).params = s.params := rfl
@[simp] theorem State.advanceHost_core : (s.advanceHost).core = s.core := rfl
@[simp] theorem State.advanceHost_done : (s.advanceHost).done = s.done := rfl
@[simp] theorem State.advanceHost_err : (s.advanceHost).err = s.err := rfl
@[simp] theorem State.advanceHost_inLen : (s.advanceHost).inLen = s.inLen := rfl
@[simp] theorem State.advanceHost_outLen : (s.advanceHost).outLen = s.outLen := rfl
@[simp] theorem State.advanceHost_ibuf : (s.advanceHost).ibuf = s.ibuf := rfl
@[simp] theorem State.advanceHost_obuf : (s.advanceHost).obuf = s.obuf := rfl
@[simp] theorem State.advanceHost_draws : (s.advanceHost).draws = s.draws := rfl
@[simp] theorem State.advanceHost_host : (s.advanceHost).host = { s.host with pos := s.host.pos + 1 } := rfl
@[simp] theorem State.advanceHost_plan : (s.advanceHost).plan = s.plan := rfl

/-! ### jumpHost -/

@[simp] theorem State.jumpHost_params (k : Nat) : (s.jumpHost k).params = s.params := rfl
@[simp] theorem State.jumpHost_core (k : Nat) : (s.jumpHost k).core = s.core := rfl
@[simp] theorem State.jumpHost_done (k : Nat) : (s.jumpHost k).done = s.done := rfl
@[simp] theorem State.jumpHost_err (k : Nat) : (s.jumpHost k).err = s.err := rfl
@[simp] theorem State.jumpHost_inLen (k : Nat) : (s.jumpHost k).inLen = s.inLen := rfl
@[simp] theorem State.jumpHost_outLen (k : Nat) : (s.jumpHost k).outLen = s.outLen := rfl
@[simp] theorem State.jumpHost_ibuf (k : Nat) : (s.jumpHost k).ibuf = s.ibuf := rfl
@[simp] theorem State.jumpHost_obuf (k : Nat) : (s.jumpHost k).obuf = s.obuf := rfl
@[simp] theorem State.jumpHost_draws (k : Nat) : (s.jumpHost k).draws = s.draws := rfl
@[simp] theorem State.jumpHost_host (k : Nat) : (s.jumpHost k).host = { s.host with pos := k } := rfl
@[simp] theorem State.jumpHost_plan (k : Nat) : (s.jumpHost k).plan = s.plan := rfl

/-! ### assignHost -/

@[simp] theorem State.assignHost_params (name : Nat) (v : Word) : (s.assignHost name v).params = s.params := rfl
@[simp] theorem State.assignHost_core (name : Nat) (v : Word) : (s.assignHost name v).core = s.core := rfl
@[simp] theorem State.assignHost_done (name : Nat) (v : Word) : (s.assignHost name v).done = s.done := rfl
@[simp] theorem State.assignHost_err (name : Nat) (v : Word) : (s.assignHost name v).err = s.err := rfl
@[simp] theorem State.assignHost_inLen (name : Nat) (v : Word) : (s.assignHost name v).inLen = s.inLen := rfl
@[simp] theorem State.assignHost_outLen (name : Nat) (v : Word) : (s.assignHost name v).outLen = s.outLen := rfl
@[simp] theorem State.assignHost_ibuf (name : Nat) (v : Word) : (s.assignHost name v).ibuf = s.ibuf := rfl
@[simp] theorem State.assignHost_obuf (name : Nat) (v : Word) : (s.assignHost name v).obuf = s.obuf := rfl
@[simp] theorem State.assignHost_draws (name : Nat) (v : Word) : (s.assignHost name v).draws = s.draws := rfl
@[simp] theorem State.assignHost_host (name : Nat) (v : Word) : (s.assignHost name v).host = { s.host with vars := mapSet name v s.host.vars } := rfl
@[simp] theorem State.assignHost_plan (name : Nat) (v : Word) : (s.assignHost name v).plan = s.plan := rfl

/-! ### takeMove -/

@[simp] theorem State.takeMove_params : (s.takeMove).params = s.params := rfl
@[simp] theorem State.takeMove_core : (s.takeMove).core = s.core := rfl
@[simp] theorem State.takeMove_done : (s.takeMove).done = s.done := rfl
@[simp] theorem State.takeMove_err : (s.takeMove).err = s.err := rfl
@[simp] theorem State.takeMove_inLen : (s.takeMove).inLen = s.inLen := rfl
@[simp] theorem State.takeMove_outLen : (s.takeMove).outLen = s.outLen := rfl
@[simp] theorem State.takeMove_ibuf : (s.takeMove).ibuf = s.ibuf := rfl
@[simp] theorem State.takeMove_obuf : (s.takeMove).obuf = s.obuf := rfl
@[simp] theorem State.takeMove_draws : (s.takeMove).draws = s.draws := rfl
@[simp] theorem State.takeMove_host : (s.takeMove).host = s.host := rfl
@[simp] theorem State.takeMove_plan : (s.takeMove).plan = s.plan.tail := rfl

/-! ### accept -/

@[simp] theorem State.accept_params (op : Op) : (s.accept op).params = s.params := rfl
@[simp] theorem State.accept_core (op : Op) : (s.accept op).core = .busy { op := op, n := s.inLen } .accepted := rfl
@[simp] theorem State.accept_done (op : Op) : (s.accept op).done = false := rfl
@[simp] theorem State.accept_err (op : Op) : (s.accept op).err = 0#4 := rfl
@[simp] theorem State.accept_inLen (op : Op) : (s.accept op).inLen = s.inLen := rfl
@[simp] theorem State.accept_outLen (op : Op) : (s.accept op).outLen = s.outLen := rfl
@[simp] theorem State.accept_ibuf (op : Op) : (s.accept op).ibuf = s.ibuf := rfl
@[simp] theorem State.accept_obuf (op : Op) : (s.accept op).obuf = s.obuf := rfl
@[simp] theorem State.accept_draws (op : Op) : (s.accept op).draws = s.draws := rfl
@[simp] theorem State.accept_host (op : Op) : (s.accept op).host = s.host := rfl
@[simp] theorem State.accept_plan (op : Op) : (s.accept op).plan = s.plan := rfl

/-! ### BUSY after each update -/

@[simp] theorem State.busy_of_idle (h : s.core = .idle) : s.busy = false := by simp [State.busy, h, Core.isBusy]
theorem State.busy_of_busy (l : Latch) (w : Work) (h : s.core = .busy l w) : s.busy = true := by
  simp [State.busy, h, Core.isBusy]
theorem State.busy_iff : s.busy = true ↔ ∃ l w, s.core = .busy l w := by
  cases h : s.core <;> simp [State.busy, h, Core.isBusy]
@[simp] theorem State.setIbuf_busy (i : Nat) (b : Byte) : (s.setIbuf i b).busy = s.busy := rfl
@[simp] theorem State.setInLen_busy (w : Word) : (s.setInLen w).busy = s.busy := rfl
@[simp] theorem State.draw_busy : s.draw.busy = s.busy := rfl
@[simp] theorem State.setWork_busy (l : Latch) (w : Work) : (s.setWork l w).busy = true := rfl
@[simp] theorem State.accept_busy (op : Op) : (s.accept op).busy = true := rfl
@[simp] theorem State.rejectCommand_busy : s.rejectCommand.busy = false := rfl
@[simp] theorem State.succeed_busy (out : Bytes) : (s.succeed out).busy = false := rfl
@[simp] theorem State.fail_busy (e : ErrorKind) : (s.fail e).busy = false := rfl
@[simp] theorem State.applyReset_busy : s.applyReset.busy = false := rfl
@[simp] theorem State.advanceHost_busy : s.advanceHost.busy = s.busy := rfl
@[simp] theorem State.jumpHost_busy (k : Nat) : (s.jumpHost k).busy = s.busy := rfl
@[simp] theorem State.assignHost_busy (name : Nat) (v : Word) : (s.assignHost name v).busy = s.busy := rfl
@[simp] theorem State.takeMove_busy : s.takeMove.busy = s.busy := rfl

/-- A running command's transient state put back is the same state. -/
theorem State.setWork_self (l : Latch) (w : Work) (h : s.core = .busy l w) : s.setWork l w = s := by
  cases s; simp_all [State.setWork]

/-- The transient state does not outlive the completion. -/
@[simp] theorem State.setWork_succeed (l : Latch) (w : Work) (out : Bytes) : (s.setWork l w).succeed out = s.succeed out := rfl
@[simp] theorem State.setWork_fail (l : Latch) (w : Work) (e : ErrorKind) : (s.setWork l w).fail e = s.fail e := rfl
@[simp] theorem State.setWork_complete (l : Latch) (w : Work) (r : Result) : (s.setWork l w).complete r = s.complete r := rfl
@[simp] theorem State.setWork_setWork (l l' : Latch) (w w' : Work) : (s.setWork l w).setWork l' w' = s.setWork l' w' := rfl

end Sys2Proof.Machine
end

