-- ==== Sys2Proof/Laws/Exec.lean ====
section
/-! SUPPORT. What the shared operations and exec can do, said once each: provers cite these and do not unfold them. -/

namespace Sys2Proof.Machine

/-- A command word has its effect while BUSY = 0 and none while BUSY = 1. -/
theorem whenIdle_cases {s t u : State} (h : whenIdle s t = .next u) :
    (s.busy = true ∧ u = s) ∨ (s.busy = false ∧ u = t) := by
  unfold whenIdle at h
  split at h
  · rename_i hb; cases h; exact .inl ⟨hb, rfl⟩
  · rename_i hb; cases h; exact .inr ⟨by simpa using hb, rfl⟩

/-- An internal operation that answers changes the transient state of the running command only. -/
theorem onWork_cases {s u : State} {f : Work → Option Work} (h : onWork s f = .next u) :
    ∃ l w w', s.core = .busy l w ∧ f w = some w' ∧ u = s.setWork l w' := by
  unfold onWork at h
  split at h
  · cases h
  · rename_i l w hc
    split at h
    · cases h
    · rename_i w' hw
      cases h
      exact ⟨l, w, w', hc, hw, rfl⟩

theorem onWork_next {s : State} {l : Latch} {w w' : Work} {f : Work → Option Work} (hc : s.core = .busy l w)
    (hf : f w = some w') : onWork s f = .next (s.setWork l w') := by
  simp [onWork, hc, hf]

theorem onWork_not_fault {s : State} {f : Work → Option Work} {r : Fault} : onWork s f ≠ .fault r := by
  unfold onWork
  split
  · simp
  · split <;> simp

theorem onWork_refused {s : State} {f : Work → Option Work} {r : Refusal} (h : onWork s f = .refused r) :
    r = .outOfPhase := by
  unfold onWork at h
  split at h
  · cases h; rfl
  · split at h <;> cases h; rfl

/-- The inversion of exec: a command word taken or ignored, or one internal operation of the running command. -/
theorem exec_cases {i : Instr} {s u : State} (h : exec i s = .next u) :
    (i.space = .cmdWord ∧ s.busy = true ∧ u = s)
      ∨ (s.busy = false ∧ ((i = .compress ∧ u = s.accept .compress) ∨ (i = .decompress ∧ u = s.accept .decompress)
          ∨ (∃ op, i = .illegalCommand op) ∧ u = s.rejectCommand))
      ∨ (i.space ≠ .cmdWord ∧ ∃ l w w', s.core = .busy l w ∧ u = s.setWork l w') := by
  cases i with
  | compress =>
    rcases whenIdle_cases h with ⟨hb, rfl⟩ | ⟨hb, rfl⟩
    · exact .inl ⟨rfl, hb, rfl⟩
    · exact .inr (.inl ⟨hb, .inl ⟨rfl, rfl⟩⟩)
  | decompress =>
    rcases whenIdle_cases h with ⟨hb, rfl⟩ | ⟨hb, rfl⟩
    · exact .inl ⟨rfl, hb, rfl⟩
    · exact .inr (.inl ⟨hb, .inr (.inl ⟨rfl, rfl⟩)⟩)
  | illegalCommand op =>
    rcases whenIdle_cases h with ⟨hb, rfl⟩ | ⟨hb, rfl⟩
    · exact .inl ⟨rfl, hb, rfl⟩
    · exact .inr (.inl ⟨hb, .inr (.inr ⟨⟨op, rfl⟩, rfl⟩)⟩)
  | frameEmpty =>
    obtain ⟨l, w, w', hc, -, hu⟩ := onWork_cases h
    exact .inr (.inr ⟨by simp [Instr.space], l, w, w', hc, hu⟩)
  | frameStored ignored =>
    obtain ⟨l, w, w', hc, -, hu⟩ := onWork_cases h
    exact .inr (.inr ⟨by simp [Instr.space], l, w, w', hc, hu⟩)
  | frameCompressed pad rsv =>
    obtain ⟨l, w, w', hc, -, hu⟩ := onWork_cases h
    exact .inr (.inr ⟨by simp [Instr.space], l, w, w', hc, hu⟩)
  | treeInternal =>
    obtain ⟨l, w, w', hc, -, hu⟩ := onWork_cases h
    exact .inr (.inr ⟨by simp [Instr.space], l, w, w', hc, hu⟩)
  | treeLeaf sym =>
    obtain ⟨l, w, w', hc, -, hu⟩ := onWork_cases h
    exact .inr (.inr ⟨by simp [Instr.space], l, w, w', hc, hu⟩)
  | dataLeft =>
    obtain ⟨l, w, w', hc, -, hu⟩ := onWork_cases h
    exact .inr (.inr ⟨by simp [Instr.space], l, w, w', hc, hu⟩)
  | dataRight =>
    obtain ⟨l, w, w', hc, -, hu⟩ := onWork_cases h
    exact .inr (.inr ⟨by simp [Instr.space], l, w, w', hc, hu⟩)

/-- exec raises no fault, and refuses only an instruction its core is not at. -/
theorem exec_not_fault {i : Instr} {s : State} {r : Fault} : exec i s ≠ .fault r := by
  cases i <;> first
    | exact onWork_not_fault
    | (simp only [exec, execCompress, execDecompress, execIllegalCommand, whenIdle]; split <;> simp)

theorem exec_refused {i : Instr} {s : State} {r : Refusal} (h : exec i s = .refused r) : r = .outOfPhase := by
  cases i <;> first
    | exact onWork_refused h
    | (simp only [exec, execCompress, execDecompress, execIllegalCommand, whenIdle] at h; split at h <;> cases h)

/-- The decoded CMD word is one of the three commands. -/
theorem decodeCmd_space (w : Word) : (decodeCmd w).space = .cmdWord := by
  unfold decodeCmd
  split
  · rfl
  · split <;> rfl

/-- A command word always completes: it is ignored, accepted or reported illegal. -/
theorem exec_decodeCmd (w : Word) (s : State) :
    exec (decodeCmd w) s = .next (if s.busy then s else if w = 0x00000001#32 then s.accept .compress
      else if w = 0x00000002#32 then s.accept .decompress else s.rejectCommand) := by
  unfold decodeCmd
  by_cases h1 : w = 0x00000001#32
  · simp [h1, exec, execCompress, whenIdle]; split <;> rfl
  · by_cases h2 : w = 0x00000002#32
    · simp [h2, exec, execDecompress, whenIdle]; split <;> rfl
    · simp [h1, h2, exec, execIllegalCommand, whenIdle]; split <;> rfl

/-- Completion ends in the success or the error form. -/
theorem complete_cases (s : State) (r : Result) :
    (∃ out, r = .ok out ∧ out.length ≤ s.params.obufSize ∧ s.complete r = s.succeed out)
      ∨ (∃ out, r = .ok out ∧ s.params.obufSize < out.length ∧ s.complete r = s.fail .outputOverflow)
      ∨ (∃ e, r = .error e ∧ s.complete r = s.fail e) := by
  cases r with
  | error e => exact .inr (.inr ⟨e, rfl, rfl⟩)
  | ok out =>
    by_cases h : s.params.obufSize < out.length
    · exact .inr (.inl ⟨out, rfl, h, by simp [State.complete, checkCapacity, h]⟩)
    · exact .inl ⟨out, rfl, by omega, by simp [State.complete, checkCapacity, h]⟩

end Sys2Proof.Machine
end

