-- ==== Sys2Proof/Laws/Memory.lean ====
section
/-! SUPPORT. The laws of sorted maps and buffers: a read after a write, every other place unchanged, and the canonical
form kept by every operation. -/

namespace Sys2Proof.Machine

variable {α : Type}

@[simp] theorem mapGet_nil (k : Nat) : mapGet k ([] : List (Nat × α)) = none := rfl

/-- A read after a write to the same key gives the value written. -/
@[simp] theorem mapGet_mapSet_self (k : Nat) (v : α) (m : List (Nat × α)) : mapGet k (mapSet k v m) = some v := by
  induction m with
  | nil => simp [mapSet, mapGet]
  | cons e rest ih =>
    obtain ⟨j, w⟩ := e
    simp only [mapSet]
    split
    · simp [mapGet]
    · split
      · simp [mapGet]
      · rename_i h
        simp [mapGet, Ne.symm h, ih]

/-- A write leaves every other key alone. -/
theorem mapGet_mapSet_of_ne {k k' : Nat} (h : k' ≠ k) (v : α) (m : List (Nat × α)) :
    mapGet k' (mapSet k v m) = mapGet k' m := by
  induction m with
  | nil => simp [mapSet, mapGet, h.symm]
  | cons e rest ih =>
    obtain ⟨j, w⟩ := e
    simp only [mapSet]
    split
    · simp [mapGet, h.symm]
    · split
      · rename_i hk
        subst hk
        simp [mapGet, h.symm]
      · simp [mapGet, ih]

/-- A key above a bound stays above it when a higher key is written. -/
theorem mapSet_all_gt (b k : Nat) (v : α) (m : List (Nat × α)) (hk : b < k)
    (h : m.all (fun e => decide (b < e.1)) = true) : (mapSet k v m).all (fun e => decide (b < e.1)) = true := by
  induction m with
  | nil => simp [mapSet, hk]
  | cons e rest ih =>
    obtain ⟨j, w⟩ := e
    simp only [List.all_cons, Bool.and_eq_true, decide_eq_true_eq] at h
    simp only [mapSet]
    split
    · simp only [List.all_cons, Bool.and_eq_true, decide_eq_true_eq]
      exact ⟨hk, h.1, h.2⟩
    · split
      · simp only [List.all_cons, Bool.and_eq_true, decide_eq_true_eq]
        exact ⟨hk, h.2⟩
      · simp only [List.all_cons, Bool.and_eq_true, decide_eq_true_eq]
        exact ⟨h.1, ih h.2⟩

/-- A write keeps the canonical form. -/
theorem mapSet_sorted (k : Nat) (v : α) (m : List (Nat × α)) (h : mapSorted m = true) :
    mapSorted (mapSet k v m) = true := by
  induction m with
  | nil => simp [mapSet, mapSorted]
  | cons e rest ih =>
    obtain ⟨j, w⟩ := e
    simp only [mapSorted, Bool.and_eq_true] at h
    simp only [mapSet]
    split
    · rename_i hkj
      simp only [mapSorted, List.all_cons, Bool.and_eq_true, decide_eq_true_eq]
      refine ⟨⟨hkj, ?_⟩, h.1, h.2⟩
      rw [List.all_eq_true]
      intro e he
      have := (List.all_eq_true.mp h.1) e he
      simp only [decide_eq_true_eq] at this ⊢
      omega
    · split
      · rename_i hkj
        subst hkj
        simp only [mapSorted, Bool.and_eq_true]
        exact h
      · simp only [mapSorted, Bool.and_eq_true]
        exact ⟨mapSet_all_gt j k v rest (by omega) h.1, ih h.2⟩

/-- A write at an index below the size keeps the buffer within it. -/
theorem mapSet_within (size i : Nat) (b : Byte) (m : Memory) (hi : i < size) (h : m.within size = true) :
    Memory.within size (mapSet i b m) = true := by
  induction m with
  | nil => simp [mapSet, Memory.within, hi]
  | cons e rest ih =>
    obtain ⟨j, w⟩ := e
    simp only [Memory.within, List.all_cons, Bool.and_eq_true, decide_eq_true_eq] at h ih
    simp only [mapSet]
    split
    · simp only [Memory.within, List.all_cons, Bool.and_eq_true, decide_eq_true_eq]
      exact ⟨hi, h⟩
    · split
      · simp only [Memory.within, List.all_cons, Bool.and_eq_true, decide_eq_true_eq]
        exact ⟨hi, h.2⟩
      · simp only [Memory.within, List.all_cons, Bool.and_eq_true, decide_eq_true_eq]
        exact ⟨h.1, ih h.2⟩

@[simp] theorem Memory.get_eq (m : Memory) (i : Nat) : m.get i = mapGet i m := by
  cases h : mapGet i m <;> simp [Memory.get, h, Memory.unlisted]

@[simp] theorem Memory.wf_nil : Memory.wf [] = true := rfl
@[simp] theorem Memory.within_nil (size : Nat) : Memory.within size [] = true := rfl

/-- The indexes a byte sequence is listed at. -/
theorem Memory.ofBytes_mem (i : Nat) (bs : Bytes) (e : Nat × Byte) (h : e ∈ Memory.ofBytes i bs) :
    i ≤ e.1 ∧ e.1 < i + bs.length := by
  induction bs generalizing i with
  | nil => simp [Memory.ofBytes] at h
  | cons b bs ih =>
    simp only [Memory.ofBytes, List.mem_cons] at h
    rcases h with rfl | h
    · simp
    · have := ih (i + 1) h
      simp only [List.length_cons]
      omega

/-- The listing of a byte sequence is in canonical form. -/
theorem Memory.ofBytes_wf (i : Nat) (bs : Bytes) : Memory.wf (Memory.ofBytes i bs) = true := by
  induction bs generalizing i with
  | nil => rfl
  | cons b bs ih =>
    simp only [Memory.wf, Memory.ofBytes, mapSorted, Bool.and_eq_true]
    refine ⟨?_, ih (i + 1)⟩
    rw [List.all_eq_true]
    intro e he
    have := Memory.ofBytes_mem (i + 1) bs e he
    simp only [decide_eq_true_eq]
    omega

theorem Memory.ofBytes_within (size : Nat) (bs : Bytes) (h : bs.length ≤ size) :
    Memory.within size (Memory.ofBytes 0 bs) = true := by
  rw [Memory.within, List.all_eq_true]
  intro e he
  have := Memory.ofBytes_mem 0 bs e he
  simp only [decide_eq_true_eq]
  omega

/-- The listing holds the bytes of the sequence, and nothing else. -/
theorem Memory.get_ofBytes (i : Nat) (bs : Bytes) (j : Nat) :
    mapGet j (Memory.ofBytes i bs) = if i ≤ j then bs[j - i]? else none := by
  induction bs generalizing i with
  | nil => simp [Memory.ofBytes]
  | cons b bs ih =>
    simp only [Memory.ofBytes, mapGet]
    by_cases hij : i = j
    · subst hij; simp
    · rw [if_neg hij, ih (i + 1)]
      by_cases hle : i ≤ j
      · have hlt : i + 1 ≤ j := by omega
        have hk : j - i = (j - (i + 1)) + 1 := by omega
        rw [if_pos hlt, if_pos hle, hk, List.getElem?_cons_succ]
      · rw [if_neg hle, if_neg (by omega)]

/-- What a core read answers: the bytes of the whole range, or its first index without a value. -/
theorem Memory.read_ok (m : Memory) (i count : Nat) (bs : Bytes) (h : m.read i count = .ok bs) :
    bs.length = count ∧ ∀ j, j < count → mapGet (i + j) m = bs[j]? := by
  induction count generalizing i bs with
  | zero => simp only [Memory.read, Except.ok.injEq] at h; subst h; simp
  | succ count ih =>
    simp only [Memory.read, Memory.get_eq] at h
    split at h
    · cases h
    · rename_i b hb
      split at h
      · cases h
      · rename_i rest hrest
        cases h
        obtain ⟨hlen, hget⟩ := ih (i + 1) rest hrest
        refine ⟨by simp [hlen], ?_⟩
        intro j hj
        cases j with
        | zero => simpa using hb
        | succ j =>
          have := hget j (by omega)
          rw [List.getElem?_cons_succ, ← this]
          congr 1
          omega

theorem Memory.read_error (m : Memory) (i count k : Nat) (h : m.read i count = .error k) :
    (i ≤ k ∧ k < i + count) ∧ mapGet k m = none := by
  induction count generalizing i with
  | zero => simp [Memory.read] at h
  | succ count ih =>
    simp only [Memory.read, Memory.get_eq] at h
    split at h
    · rename_i hb
      simp only [Except.error.injEq] at h
      subst h
      exact ⟨by omega, hb⟩
    · split at h
      · rename_i hrest
        cases h
        have := ih (i + 1) hrest
        exact ⟨by omega, this.2⟩
      · cases h

/-- The memories of the first state are in canonical form. -/
theorem reset_memories_wf : State.reset.ibuf.wf = true ∧ State.reset.obuf.wf = true := ⟨rfl, rfl⟩

end Sys2Proof.Machine
end

