-- ==== Sys2Proof/Laws/Bus.lean ====
section
/-! SUPPORT. What a host access and a host statement can do. -/

namespace Sys2Proof.Machine

/-- A byte read either leaves the state alone or makes one draw. -/
theorem readByte_cases (s : State) (b : Option Byte) :
    (∃ v, b = some v ∧ readByte s b = (v.setWidth 32, s))
      ∨ (b = none ∧ readByte s b = ((Config.freeByte s.draws).setWidth 32, s.draw)) := by
  cases b with
  | none => exact .inr ⟨rfl, rfl⟩
  | some v => exact .inl ⟨v, rfl, rfl⟩

/-- The state after a read is the state before it, or that with one draw counted. -/
theorem readTarget_state (s : State) (t : Target) : (readTarget s t).2 = s ∨ (readTarget s t).2 = s.draw := by
  cases t with
  | cmd => exact .inl rfl
  | status => exact .inl rfl
  | inLen => exact .inl rfl
  | reserved => exact .inl rfl
  | outLen =>
    simp only [readTarget]
    split
    · exact .inr rfl
    · exact .inl rfl
  | ibuf i =>
    rcases readByte_cases s (s.ibuf.get i) with ⟨v, -, h⟩ | ⟨-, h⟩
    · exact .inl (by simp only [readTarget, h])
    · exact .inr (by simp only [readTarget, h])
  | obuf j =>
    rcases readByte_cases s (if s.busy then none else s.obuf.get j) with ⟨v, -, h⟩ | ⟨-, h⟩
    · exact .inl (by simp only [readTarget, h])
    · exact .inr (by simp only [readTarget, h])

theorem busRead_cases {off width : Nat} {s t : State} {v : Word} (h : busRead off width s = .ok (v, t)) :
    legalForm off width = true ∧ (v, t) = readTarget s (target s.params off) ∧ (t = s ∨ t = s.draw) := by
  unfold busRead at h
  split at h
  · rename_i hl
    simp only [Except.ok.injEq] at h
    refine ⟨hl, h.symm, ?_⟩
    have := readTarget_state s (target s.params off)
    rw [h] at this
    exact this
  · cases h

/-- An access inside the IBUF window reaches an existing byte. -/
theorem target_ibuf {p : Params} {off i : Nat} (h : target p off = .ibuf i) : i < p.ibufSize ∧ off = Config.ibufBase + i := by
  unfold target at h
  repeat' (split at h)
  all_goals simp only [Target.ibuf.injEq, reduceCtorEq] at h
  omega

theorem target_obuf {p : Params} {off j : Nat} (h : target p off = .obuf j) : j < p.obufSize ∧ off = Config.obufBase + j := by
  unfold target at h
  repeat' (split at h)
  all_goals simp only [Target.obuf.injEq, reduceCtorEq] at h
  have : Config.ibufBase ≤ Config.obufBase := by decide
  omega

/-- The byte a write stores: its data, or one draw when that is wider than a byte. -/
theorem writtenByte_cases (data : Word) (s : State) :
    (data.toNat < 256 ∧ writtenByte data s = (data.setWidth 8, s))
      ∨ (256 ≤ data.toNat ∧ writtenByte data s = (Config.freeByte s.draws, s.draw)) := by
  by_cases h : data.toNat < 256
  · exact .inl ⟨h, by simp [writtenByte, fitsByte, h]⟩
  · exact .inr ⟨by omega, by simp [writtenByte, fitsByte, h]⟩

/-- A byte is its own written byte. -/
@[simp] theorem writtenByte_byte (b : Byte) (s : State) : writtenByte (b.setWidth 32) s = (b, s) := by
  have hb := b.isLt
  have hlt : (b.setWidth 32).toNat < 256 := by simp [BitVec.toNat_setWidth]; omega
  rcases writtenByte_cases (b.setWidth 32) s with ⟨-, h⟩ | ⟨h, -⟩
  · rw [h, BitVec.setWidth_setWidth_of_le _ (by decide), BitVec.setWidth_eq]
  · omega

/-- CMD is at offset 0 and nowhere else. -/
theorem target_cmd {p : Params} {off : Nat} (h : target p off = .cmd) : off = 0 := by
  unfold target at h
  repeat' (split at h)
  all_goals first
    | assumption
    | simp only [reduceCtorEq] at h

/-- A write that answers: a CMD write, an IN_LEN or IBUF write while BUSY = 0, or a write without effect. -/
theorem busWrite_cases {off width : Nat} {data : Word} {s u : State} (h : busWrite off width data s = .next u) :
    (target s.params off = .cmd ∧ exec (decodeCmd data) s = .next u)
      ∨ (target s.params off = .inLen ∧ s.busy = false ∧ u = s.setInLen data)
      ∨ (∃ i, target s.params off = .ibuf i ∧ i < s.params.ibufSize ∧ s.busy = false
          ∧ u = (writtenByte data s).2.setIbuf i (writtenByte data s).1)
      ∨ u = s := by
  unfold busWrite at h
  split at h
  · cases ht : target s.params off with
    | cmd => rw [ht] at h; exact .inl ⟨rfl, h⟩
    | status => rw [ht] at h; cases h; exact .inr (.inr (.inr rfl))
    | outLen => rw [ht] at h; cases h; exact .inr (.inr (.inr rfl))
    | obuf j => rw [ht] at h; cases h; exact .inr (.inr (.inr rfl))
    | reserved => rw [ht] at h; cases h; exact .inr (.inr (.inr rfl))
    | inLen =>
      rw [ht] at h
      simp only [writeTarget] at h
      split at h
      · cases h
      · rename_i hb; cases h; exact .inr (.inl ⟨rfl, by simpa using hb, rfl⟩)
    | ibuf i =>
      rw [ht] at h
      simp only [writeTarget] at h
      split at h
      · cases h
      · rename_i hb; cases h; exact .inr (.inr (.inl ⟨i, rfl, (target_ibuf ht).1, by simpa using hb, rfl⟩))
  · cases h

/-- What a host computation can do: move the host's position. -/
theorem hostCompute_cases {st : Stmt} {s u : State} (h : hostCompute st s = .next u) :
    u = s.advanceHost ∨ ∃ k, u = s.jumpHost k := by
  unfold hostCompute at h
  split at h
  · split at h
    · cases h
    · split at h
      · cases h; exact .inl rfl
      · split at h
        · cases h
        · rename_i k _; cases h; exact .inr ⟨k, rfl⟩
  · cases h; exact .inl rfl

theorem afterRead_cases (st : Stmt) (value : Word) (s : State) :
    afterRead st value s = s ∨ afterRead st value s = s.advanceHost
      ∨ ∃ name, afterRead st value s = (s.assignHost name value).advanceHost := by
  cases st with
  | rd32 off name => exact .inr (.inr ⟨name, rfl⟩)
  | rd8 off name => exact .inr (.inr ⟨name, rfl⟩)
  | poll off mask v =>
    simp only [afterRead]
    split
    · exact .inr (.inl rfl)
    · exact .inl rfl
  | wr32 off v => exact .inr (.inl rfl)
  | wr8 off v => exact .inr (.inl rfl)
  | label name => exact .inr (.inl rfl)
  | bnz name target => exact .inr (.inl rfl)

/-- A host statement's request for a write is of one of the two store statements. -/
theorem request_write {st : Stmt} {vars : Vars} {off width : Nat} {data : Word}
    (h : st.request vars = .access (.write off width data)) :
    (∃ v, st = .wr32 off v ∧ width = 4 ∧ v.eval vars = some data)
      ∨ (∃ v, st = .wr8 off v ∧ width = 1 ∧ v.eval vars = some data) := by
  cases st with
  | wr32 o v =>
    simp only [Stmt.request] at h
    cases he : v.eval vars with
    | none => rw [he] at h; cases h
    | some d => rw [he] at h; cases h; exact .inl ⟨v, rfl, rfl, he⟩
  | wr8 o v =>
    simp only [Stmt.request] at h
    cases he : v.eval vars with
    | none => rw [he] at h; cases h
    | some d => rw [he] at h; cases h; exact .inr ⟨v, rfl, rfl, he⟩
  | rd32 o n => cases h
  | rd8 o n => cases h
  | poll o m v =>
    simp only [Stmt.request] at h
    split at h <;> cases h
  | label n => cases h
  | bnz n t => cases h

/-- The host's move: a bus write with the host at its next statement, or a change of the host agent and the draw count
that leaves the block alone. -/
theorem hostStep_cases {s u : State} (h : hostStep s = .next u) :
    (∃ st off width data, s.host.script[s.host.pos]? = some st
        ∧ st.request s.host.vars = .access (.write off width data) ∧ busWrite off width data s.advanceHost = .next u)
      ∨ ∃ d a, u = { s with draws := d, host := a } ∧ (mapSorted s.host.vars = true → mapSorted a.vars = true) := by
  unfold hostStep at h
  split at h
  · cases h; exact .inr ⟨s.draws, s.host, rfl, id⟩
  · rename_i st hst
    unfold runStmt at h
    split at h
    · cases h
    · rcases hostCompute_cases h with rfl | ⟨k, rfl⟩
      · exact .inr ⟨s.draws, _, rfl, id⟩
      · exact .inr ⟨s.draws, _, rfl, id⟩
    · rename_i off width data hr
      exact .inl ⟨st, off, width, data, hst, hr, h⟩
    · rename_i off width hr
      split at h
      · cases h
      · rename_i value s' hread
        cases h
        obtain ⟨-, -, hs⟩ := busRead_cases hread
        rcases hs with rfl | rfl <;> rcases afterRead_cases st value _ with h' | h' | ⟨name, h'⟩ <;> rw [h'] <;>
          first
          | exact .inr ⟨_, _, rfl, id⟩
          | exact .inr ⟨_, _, rfl, fun hs => mapSet_sorted name value _ hs⟩

end Sys2Proof.Machine
end

