-- ==== Sys2Proof/Laws/Codec.lean ====
section
/-! SUPPORT. The small lemmas of the number and bit conversions, the packer's lengths and the walk. -/

namespace Sys2Proof.Machine

@[simp] theorem bitsBE_length (v w : Nat) : (bitsBE v w).length = w := by
  induction w with
  | zero => rfl
  | succ w ih => simp [bitsBE, ih]

theorem valBE_append_singleton (s : Bits) (b : Bool) : valBE (s ++ [b]) = 2 * valBE s + b.toNat := by
  simp [valBE]

theorem foldl_bits_acc (s : Bits) (a : Nat) :
    s.foldl (fun acc b => 2 * acc + b.toNat) a = a * 2 ^ s.length + s.foldl (fun acc b => 2 * acc + b.toNat) 0 := by
  induction s generalizing a with
  | nil => simp
  | cons b s ih =>
    simp only [List.foldl_cons, List.length_cons]
    rw [ih (2 * a + b.toNat), ih (2 * 0 + b.toNat)]
    ring

theorem valBE_cons (b : Bool) (s : Bits) : valBE (b :: s) = b.toNat * 2 ^ s.length + valBE s := by
  simp only [valBE, List.foldl_cons]
  rw [foldl_bits_acc]
  simp

/-- A w-bit sequence writes a number below 2^w. -/
theorem valBE_lt (s : Bits) : valBE s < 2 ^ s.length := by
  induction s with
  | nil => simp [valBE]
  | cons b s ih =>
    rw [valBE_cons, List.length_cons, pow_succ]
    cases b <;> simp <;> omega

/-- `val_be(bits_be(v, w))` is v below 2^w (00_scope.md R10). -/
theorem valBE_bitsBE (v w : Nat) : valBE (bitsBE v w) = v % 2 ^ w := by
  induction w with
  | zero => simp [bitsBE, valBE, Nat.mod_one]
  | succ w ih =>
    rw [bitsBE, valBE_cons, ih, bitsBE_length, Nat.mod_pow_succ, Nat.testBit_eq_decide_div_mod_eq]
    have h2 : v / 2 ^ w % 2 < 2 := Nat.mod_lt _ (by decide)
    by_cases h : v / 2 ^ w % 2 = 1
    · simp [h]; omega
    · have h0 : v / 2 ^ w % 2 = 0 := by omega
      simp [h0]

/-- The bits above the width do not matter. -/
theorem bitsBE_add_high (v k w w' : Nat) (h : w' ≤ w) : bitsBE (k * 2 ^ w + v) w' = bitsBE v w' := by
  induction w' with
  | zero => rfl
  | succ w' ih =>
    have hlt : w' < w := by omega
    rw [bitsBE, bitsBE, ih (by omega), Nat.mul_comm k]
    congr 1
    rw [Nat.testBit_eq_decide_div_mod_eq, Nat.testBit_eq_decide_div_mod_eq]
    congr 2
    obtain ⟨e, rfl⟩ : ∃ e, w = w' + 1 + e := ⟨w - (w' + 1), by omega⟩
    have : 2 ^ (w' + 1 + e) * k + v = 2 ^ w' * (2 * (2 ^ e * k)) + v := by ring
    rw [this, Nat.mul_add_div (by positivity)]
    omega

/-- `bits_be(val_be(s), len(s))` is s (00_scope.md R10). -/
theorem bitsBE_valBE (s : Bits) : bitsBE (valBE s) s.length = s := by
  induction s with
  | nil => rfl
  | cons b s ih =>
    rw [List.length_cons, bitsBE, valBE_cons]
    have hlt := valBE_lt s
    congr 1
    · rw [Nat.testBit_eq_decide_div_mod_eq, Nat.mul_comm, Nat.mul_add_div (by positivity), Nat.div_eq_of_lt hlt]
      cases b <;> simp
    · rw [bitsBE_add_high _ _ _ _ (le_refl _), ih]

/-- A byte's eight bits write the byte again. -/
@[simp] theorem byteBE_bitsBE (b : Byte) : byteBE (bitsBE b.toNat 8) = b := by
  simp only [byteBE, valBE_bitsBE]
  have := b.isLt
  rw [Nat.mod_eq_of_lt this]
  simp

/-- Eight bits are the bits of the byte they write. -/
theorem bitsBE_byteBE (s : Bits) (h : s.length = 8) : bitsBE (byteBE s).toNat 8 = s := by
  have hlt := valBE_lt s
  rw [h] at hlt
  have : (byteBE s).toNat = valBE s := by simp only [byteBE, BitVec.toNat_ofNat]; exact Nat.mod_eq_of_lt hlt
  rw [this, ← h, bitsBE_valBE]

@[simp] theorem unpack_nil : unpack [] = [] := rfl
@[simp] theorem unpack_cons (b : Byte) (bs : Bytes) : unpack (b :: bs) = bitsBE b.toNat 8 ++ unpack bs := rfl
@[simp] theorem unpack_append (a b : Bytes) : unpack (a ++ b) = unpack a ++ unpack b := by simp [unpack]

/-- Unpack gives eight bits a byte (42_bit_packer.md R88). -/
@[simp] theorem unpack_length (bs : Bytes) : (unpack bs).length = 8 * bs.length := by
  induction bs with
  | nil => rfl
  | cons b bs ih => simp [ih]; omega

/-- The padding fills the last byte (42_bit_packer.md R87). -/
theorem padCount_spec (len : Nat) : padCount len ≤ 7 ∧ (len + padCount len) % 8 = 0 := by
  unfold padCount; omega

/-- The walk ends at once without data, and goes on from where one bit takes it. -/
@[simp] theorem walkFrom_nil (tree cur : PrefixTree) (depth : Nat) (out : Bytes) :
    walkFrom tree cur depth [] out = walkEnd depth out := rfl

/-- One data bit emits at most one byte (44_decoder.md R99). -/
theorem walkBit_emitted {tree cur cur' : PrefixTree} {depth depth' : Nat} {b : Bool} {emitted : Bytes}
    (h : walkBit tree cur depth b = .ok (cur', depth', emitted)) : emitted.length ≤ 1 := by
  unfold walkBit at h
  split at h
  · split at h <;> cases h; simp
  · split at h
    · cases h
    · split at h <;> cases h <;> simp

theorem PrefixTree.leaves_pos (t : PrefixTree) : 0 < t.leaves := by
  induction t with
  | leaf s => simp [PrefixTree.leaves]
  | internal l r ihl ihr => simp only [PrefixTree.leaves]; omega

/-- A full tree has one internal node less than leaves (40_prefix_tree.md R75). -/
theorem PrefixTree.internals_succ (t : PrefixTree) : t.internals + 1 = t.leaves := by
  induction t with
  | leaf s => simp [PrefixTree.leaves, PrefixTree.internals]
  | internal l r ihl ihr => simp only [PrefixTree.leaves, PrefixTree.internals]; omega

theorem PrefixTree.symbols_length (t : PrefixTree) : t.symbols.length = t.leaves := by
  induction t with
  | leaf s => simp [PrefixTree.leaves, PrefixTree.symbols]
  | internal l r ihl ihr => simp [PrefixTree.leaves, PrefixTree.symbols, ihl, ihr]

end Sys2Proof.Machine
end

