-- ==== Sys2Proof/Laws/PerInstr.lean ====
section
/-! SUPPORT. The family EncodedLength: every instruction's encoding has the number of bits its row gives it
(30_encoding.md R55, R56, R59, R61, R65; 44_decoder.md R99). -/

namespace Sys2Proof.Laws.EncodedLength

open Sys2Proof.Machine

/-- The number of bits of a row's encoding. -/
def bitsOf : Instr → Nat
  | .compress => 32
  | .decompress => 32
  | .illegalCommand _ => 32
  | .frameEmpty => 0
  | .frameStored _ => 8
  | .frameCompressed _ _ => 8
  | .treeInternal => 1
  | .treeLeaf _ => 9
  | .dataLeft => 1
  | .dataRight => 1

/-- The encoding has the row's number of bits. -/
def Statement (i : Instr) : Prop := (encode i).length = bitsOf i

theorem compress : Statement .compress := by simp [Statement, encode, bitsOf]
theorem decompress : Statement .decompress := by simp [Statement, encode, bitsOf]
theorem illegalCommand (op : Word) : Statement (.illegalCommand op) := by simp [Statement, encode, bitsOf]
theorem frameEmpty : Statement .frameEmpty := rfl
theorem frameStored (ignored : BitVec 7) : Statement (.frameStored ignored) := by simp [Statement, encode, bitsOf]
theorem frameCompressed (pad : BitVec 4) (rsv : BitVec 3) : Statement (.frameCompressed pad rsv) := by
  simp [Statement, encode, bitsOf]
theorem treeInternal : Statement .treeInternal := rfl
theorem treeLeaf (sym : Byte) : Statement (.treeLeaf sym) := by simp [Statement, encode, bitsOf]
theorem dataLeft : Statement .dataLeft := rfl
theorem dataRight : Statement .dataRight := rfl

end Sys2Proof.Laws.EncodedLength
end

