-- ==== Sys2Proof/Laws/Steps.lean ====
section
/-! SUPPORT. What the core's steps can do. -/

namespace Sys2Proof.Machine

/-- The atomic completion: no step while IDLE, else the success or error form. -/
theorem completionStep_cases {s u : State} (h : completionStep s = .next u) :
    (s.core = .idle ∧ u = s)
      ∨ (∃ l w, s.core = .busy l w ∧ s.params.ibufSize < l.n.toNat ∧ u = s.complete (.error .lengthError))
      ∨ (∃ l w input, s.core = .busy l w ∧ l.n.toNat ≤ s.params.ibufSize ∧ s.ibuf.read 0 l.n.toNat = .ok input
          ∧ u = s.complete (codec l.op input)) := by
  unfold completionStep at h
  split at h
  · rename_i hc; cases h; exact .inl ⟨hc, rfl⟩
  · rename_i l w hc
    split at h
    · rename_i hn; cases h; exact .inr (.inl ⟨l, w, hc, hn, rfl⟩)
    · rename_i hn
      split at h
      · cases h
      · rename_i input hr; cases h; exact .inr (.inr ⟨l, w, input, hc, by omega, hr, rfl⟩)

theorem loadInput_cases {l : Latch} {s u : State} (h : loadInput l s = .next u) : ∃ w', u = s.setWork l w' := by
  unfold loadInput at h
  split at h
  · cases h; exact ⟨_, rfl⟩
  · split at h
    · cases h
    · split at h <;> cases h <;> exact ⟨_, rfl⟩

/-- exec while a command runs changes its transient state only. -/
theorem exec_busy_cases {i : Instr} {s u : State} {l : Latch} {w : Work} (hc : s.core = .busy l w)
    (h : exec i s = .next u) : ∃ w', u = s.setWork l w' := by
  rcases exec_cases h with ⟨-, -, rfl⟩ | ⟨hb, -⟩ | ⟨-, l', w1, w', hc', rfl⟩
  · exact ⟨w, (State.setWork_self _ l w hc).symm⟩
  · rw [State.busy_of_busy s l w hc] at hb; cases hb
  · rw [hc] at hc'; cases hc'; exact ⟨w', rfl⟩

/-- One internal step: none while IDLE, else a change of the transient state only, or the completion. -/
theorem innerStep_cases {s u : State} (h : innerStep s = .next u) :
    (s.core = .idle ∧ u = s)
      ∨ (∃ l w w', s.core = .busy l w ∧ u = s.setWork l w')
      ∨ (∃ l r, s.core = .busy l (.finished r) ∧ u = s.complete r) := by
  cases hc : s.core with
  | idle => simp only [innerStep, hc] at h; cases h; exact .inl ⟨rfl, rfl⟩
  | busy l w =>
    cases w with
    | accepted =>
      simp only [innerStep, hc] at h
      obtain ⟨w', hu⟩ := loadInput_cases h
      exact .inr (.inl ⟨l, _, w', rfl, hu⟩)
    | frame input =>
      simp only [innerStep, hc] at h
      obtain ⟨w', hu⟩ := exec_busy_cases hc h
      exact .inr (.inl ⟨l, _, w', rfl, hu⟩)
    | tree tb cursor stack d =>
      simp only [innerStep, hc] at h
      split at h
      · obtain ⟨w', hu⟩ := exec_busy_cases hc h
        exact .inr (.inl ⟨l, _, w', rfl, hu⟩)
      · cases h; exact .inr (.inl ⟨l, _, _, rfl, rfl⟩)
    | walk tree cur depth d pos out =>
      simp only [innerStep, hc] at h
      split at h
      · obtain ⟨w', hu⟩ := exec_busy_cases hc h
        exact .inr (.inl ⟨l, _, w', rfl, hu⟩)
      · cases h; exact .inr (.inl ⟨l, _, _, rfl, rfl⟩)
    | finished r => simp only [innerStep, hc] at h; cases h; exact .inr (.inr ⟨l, r, rfl, rfl⟩)
    | loaded data => simp only [innerStep, hc] at h; cases h; exact .inr (.inl ⟨l, _, _, rfl, rfl⟩)
    | counted data freq => simp only [innerStep, hc] at h; cases h; exact .inr (.inl ⟨l, _, _, rfl, rfl⟩)
    | building data queue next => simp only [innerStep, hc] at h; cases h; exact .inr (.inl ⟨l, _, _, rfl, rfl⟩)
    | treed data tree => simp only [innerStep, hc] at h; cases h; exact .inr (.inl ⟨l, _, _, rfl, rfl⟩)
    | coded data tree codes => simp only [innerStep, hc] at h; cases h; exact .inr (.inl ⟨l, _, _, rfl, rfl⟩)
    | serialized data tree codes tb => simp only [innerStep, hc] at h; cases h; exact .inr (.inl ⟨l, _, _, rfl, rfl⟩)
    | encoded data tb d => simp only [innerStep, hc] at h; cases h; exact .inr (.inl ⟨l, _, _, rfl, rfl⟩)
    | assembled data frame => simp only [innerStep, hc] at h; cases h; exact .inr (.inl ⟨l, _, _, rfl, rfl⟩)
    | packed data bytes p => simp only [innerStep, hc] at h; cases h; exact .inr (.inl ⟨l, _, _, rfl, rfl⟩)

/-- The step of a planned move is that move, with the plan moved on. -/
theorem step_of_plan {s : State} {m : Move} {ms : List Move} (h : s.plan = m :: ms) :
    step s = runMove m s.takeMove := by
  simp [step, State.nextMove, h]

theorem step_of_nextMove {s : State} {m : Move} (h : s.nextMove = m) : step s = runMove m s.takeMove := by
  rw [step, h]

/-- One more internal step at the end of a run of them. -/
theorem innerSteps_succ_next {k : Nat} {s s' : State} (h : innerStep s = .next s') :
    innerSteps (k + 1) s = innerSteps k s' := by
  simp [innerSteps, h]

end Sys2Proof.Machine
end

