-- ==== Sys2Proof/Tests/Slice0.lean ====
section
/-! SUPPORT. Tests with results taken from the spec (95_test_vectors.md and the rules' examples), the WellFormed smoke tests,
and for each statement with hypotheses a witness that meets them. -/

namespace Sys2Proof.Tests

open Sys2Proof Sys2Proof.Machine

/-- The next state, where there is one. -/
def nextOf : Outcome → Option State
  | .next s => some s
  | .fault _ => none
  | .refused _ => none

/-- The fault, where there is one. -/
def faultOf : Outcome → Option Fault
  | .next _ => none
  | .fault r => some r
  | .refused _ => none

/-- The refusal, where there is one. -/
def refusalOf : Outcome → Option Refusal
  | .next _ => none
  | .fault _ => none
  | .refused r => some r

/-- An idle machine with an input in IBUF and its length in IN_LEN. -/
def loaded (data : Bytes) : State :=
  { State.reset with inLen := BitVec.ofNat 32 data.length, ibuf := Memory.ofBytes 0 data }

/-- A machine whose command on an input is just accepted. -/
def accepted (op : Op) (data : Bytes) : State :=
  { loaded data with core := .busy { op := op, n := BitVec.ofNat 32 data.length } .accepted }

/-- A running DECOMPRESS at some transient state, its next internal step planned. -/
def atWork (w : Work) : State :=
  { State.reset with core := .busy { op := .decompress, n := 0#32 } w, plan := [.inner] }

/-- An idle machine whose host is about to execute one statement. -/
def atStmt (st : Stmt) : State := { State.reset with host := { script := [st], pos := 0, vars := [] } }

def sixA : Bytes := [0x61, 0x61, 0x61, 0x61, 0x61, 0x61]
def sixAFrame : Bytes := [0x00, 0x09, 0xB0, 0x80, 0x11]
def abTree : PrefixTree := .internal (.leaf 0x61) (.leaf 0x62)
def abracadabra : Bytes := [0x61, 0x62, 0x72, 0x61, 0x63, 0x61, 0x64, 0x61, 0x62, 0x72, 0x61]
def abracadabraTree : PrefixTree :=
  .internal (.leaf 0x61) (.internal (.internal (.leaf 0x63) (.leaf 0x64)) (.internal (.leaf 0x62) (.leaf 0x72)))

/-- A bit string of the spec, most significant bit first. -/
def bits (s : List Nat) : Bits := s.map (· == 1)

/-! ### WellFormed: an ill-formed term for each check -/

theorem test_wellFormed_refuses_compress_word : Instr.wellFormed (.illegalCommand 0x00000001#32) = false := by decide
theorem test_wellFormed_refuses_decompress_word : Instr.wellFormed (.illegalCommand 0x00000002#32) = false := by decide
theorem test_wellFormed_takes_zero_word : Instr.wellFormed (.illegalCommand 0x00000000#32) = true := by decide
theorem test_written_refuses_pad_eight : Instr.writtenByCompress (.frameCompressed 8#4 0#3) = false := by decide
theorem test_written_refuses_reserved_bits : Instr.writtenByCompress (.frameCompressed 1#4 1#3) = false := by decide
theorem test_written_refuses_ignored_bits : Instr.writtenByCompress (.frameStored 1#7) = false := by decide
theorem test_stmt_refuses_offset : Stmt.wellFormed (.rd32 0x1000000 0) = false := by decide
theorem test_stmt_refuses_wide_byte : Stmt.wellFormed (.wr8 0x100000 (.lit 0x100#32)) = false := by decide

/-! ### Decoding: words written out from the encodings of the spec -/

/-- R55. -/
theorem test_decode_compress : decode .cmdWord (bits [0,0,0,0,0,0,0,0, 0,0,0,0,0,0,0,0, 0,0,0,0,0,0,0,0, 0,0,0,0,0,0,0,1])
    = .ok (.compress, []) := by decide
/-- R55. -/
theorem test_decode_decompress : decode .cmdWord (bits [0,0,0,0,0,0,0,0, 0,0,0,0,0,0,0,0, 0,0,0,0,0,0,0,0, 0,0,0,0,0,0,1,0])
    = .ok (.decompress, []) := by decide
/-- R55, R105. -/
theorem test_decode_illegal : decodeCmd 0xFFFFFFFF#32 = .illegalCommand 0xFFFFFFFF#32 := by decide
/-- R56, R64. -/
theorem test_decode_frame_empty : decodeFrame [] = .frameEmpty := by decide
/-- R59: trailer 1111111 0. -/
theorem test_decode_frame_stored : decode .frame (bits [1,1,1,1,1,1,1,0]) = .ok (.frameStored 0x7F#7, []) := by decide
/-- R59: trailer PAD 0101, reserved 011, FLAG 1. -/
theorem test_decode_frame_compressed : decode .frame (bits [0,1,0,1, 0,1,1, 1]) = .ok (.frameCompressed 5#4 3#3, []) := by
  decide
/-- R61. -/
theorem test_decode_tree_internal : decode .treeNode (bits [0, 1, 1]) = .ok (.treeInternal, bits [1, 1]) := by decide
/-- R61: 1 01100010 is the leaf 0x62. -/
theorem test_decode_tree_leaf : decode .treeNode (bits [1, 0,1,1,0,0,0,1,0, 1]) = .ok (.treeLeaf 0x62#8, bits [1]) := by
  decide
/-- R83: fewer than 8 bits after a leaf marker. -/
theorem test_decode_short_leaf : decode .treeNode (bits [1, 0,1,1,0,0,0,1]) = .error .shortLeaf := by decide
/-- R99. -/
theorem test_decode_data : decode .dataBit (bits [0]) = .ok (.dataLeft, []) ∧ decode .dataBit (bits [1]) = .ok (.dataRight, []) := by
  decide
/-- The opcode table's numbering: 0x161 in nine bits is `1 01100001`. -/
theorem test_table_word_leaf : decodeTableWord 16 0x161 = some (.treeLeaf 0x61#8) := by decide

/-! ### The sub-operations on the vectors of 95_test_vectors.md -/

/-- 2.1. -/
theorem test_freqCount : (freqCount abracadabra)[0x61]? = some 5 ∧ (freqCount abracadabra)[0x64]? = some 1
    ∧ (freqCount abracadabra).sum = 11 := by decide +kernel
/-- 2.2: equal weights, the leaves before the internal node. -/
theorem test_buildTree_ties : buildTree (freqCount [0x61, 0x61, 0x62, 0x62, 0x63, 0x64])
    = some (.internal (.internal (.leaf 0x63) (.leaf 0x64)) (.internal (.leaf 0x61) (.leaf 0x62))) := by decide
/-- 2.2. -/
theorem test_buildTree_abracadabra : buildTree (freqCount abracadabra) = some abracadabraTree := by decide
/-- 2.3. -/
theorem test_genCodes : genCodes abracadabraTree = [(0x61, bits [0]), (0x62, bits [1,1,0]), (0x63, bits [1,0,0]),
    (0x64, bits [1,0,1]), (0x72, bits [1,1,1])] := by decide
/-- 2.4. -/
theorem test_serialize : serialize abTree = bits [0, 1, 0,1,1,0,0,0,0,1, 1, 0,1,1,0,0,0,1,0] := by decide
/-- 2.4, S10. -/
theorem test_checkTreeSize : checkTreeSize 65535 = .ok () ∧ checkTreeSize 65536 = .error .treeTooLarge := by decide
/-- 2.5. -/
theorem test_deserialize : deserialize (bits [0, 1, 0,1,1,0,0,0,0,1, 1, 0,1,1,0,0,0,1,0]) = .ok abTree := by decide
/-- 2.5: one bit left over. -/
theorem test_deserialize_left_over : deserialize (bits [1, 0,1,1,0,0,0,0,1, 0]) = .error .malformedTree := by decide
/-- 2.6. -/
theorem test_pack : pack (bits [1,0,1,1,0, 0,0,0,1]) = ([0xB0#8, 0x80#8], 7) := by decide
/-- 2.6. -/
theorem test_unpack : unpack [0x00#8, 0x13#8] = bits [0,0,0,0,0,0,0,0, 0,0,0,1,0,0,1,1] := by decide
/-- 2.7. -/
theorem test_trailers : makeTrailer 3 = 0x31#8 ∧ makeTrailer 7 = 0x71#8 ∧ parseTrailer 0x1F#8 = (true, 1)
    ∧ parseTrailer 0xF1#8 = (true, 15) ∧ (parseTrailer 0xFE#8).1 = false := by decide
/-- 2.8. -/
theorem test_encodeData : encodeData abracadabra abracadabraTree (genCodes abracadabraTree)
    = .ok (bits [0, 1,1,0, 1,1,1, 0, 1,0,0, 0, 1,0,1, 0, 1,1,0, 1,1,1, 0]) := by decide
/-- 2.9. -/
theorem test_compress_sixA : compress sixA = .ok sixAFrame := by decide
/-- 2.9: the candidate has 12 bytes, so the input is stored. -/
theorem test_compress_abracadabra : compress abracadabra = .ok (abracadabra ++ [0x00]) := by decide +kernel
/-- 2.9. -/
theorem test_compress_sevenA_b : compress [0x61, 0x61, 0x61, 0x61, 0x61, 0x61, 0x61, 0x62]
    = .ok [0x00, 0x13, 0x58, 0xAC, 0x3F, 0xC0, 0x51] := by decide
/-- 2.10. -/
theorem test_splitFrame : splitFrame [0x00, 0x13, 0x58, 0x6C, 0x48, 0x31]
    = .ok (bits [0, 1, 0,1,1,0,0,0,0,1, 1, 0,1,1,0,0,0,1,0], bits [0, 1]) := by decide
/-- 2.10. -/
theorem test_splitFrame_past_end : splitFrame [0x00, 0xFF, 0x00, 0x01] = .error .corruptStream := by decide
/-- 2.11. -/
theorem test_walk : walk abracadabraTree (bits [0, 1,1,0, 1,0,0]) = .ok [0x61, 0x62, 0x63]
    ∧ walk abracadabraTree (bits [1,0]) = .error .corruptStream := by decide
/-- 2.12. -/
theorem test_decompress_sixA : decompress sixAFrame = .ok sixA := by decide
/-- 2.12: the error of the first check that fails. -/
theorem test_decompress_errors : decompress [0x01] = .error .corruptStream ∧ decompress [0x00, 0x00, 0x01] = .error .malformedTree
    ∧ decompress [0x00, 0x0A, 0xB0, 0x80, 0x31] = .error .malformedTree
    ∧ decompress [0x00, 0x09, 0xB0, 0xC0, 0x11] = .error .corruptStream := by decide
/-- 2.12: pad bits, reserved bits and padding counts. -/
theorem test_decompress_padding : decompress [0x00, 0x09, 0xB0, 0x81, 0x1F] = .ok sixA
    ∧ decompress [0x00, 0x13, 0x58, 0x6C, 0x48, 0x21] = .ok [0x61, 0x62, 0x61]
    ∧ decompress [0x61, 0x62, 0xFE] = .ok [0x61, 0x62] := by decide

/-! ### One step of each instruction -/

/-- R103, 2.13: STATUS 0x1 while BUSY, n latched. -/
theorem test_exec_compress : (nextOf (exec .compress (loaded sixA))).map (fun t => (t.status, t.core))
    = some (0x00000001#32, .busy { op := .compress, n := 6#32 } .accepted) := by decide
/-- R104. -/
theorem test_exec_decompress_busy : nextOf (exec .decompress (accepted .compress sixA)) = some (accepted .compress sixA) := by
  decide
/-- R103. -/
theorem test_exec_decompress : (nextOf (exec .decompress (loaded sixAFrame))).map (·.core)
    = some (.busy { op := .decompress, n := 5#32 } .accepted) := by decide
/-- R105, 2.13. -/
theorem test_exec_illegal : (nextOf (exec (.illegalCommand 3#32) { loaded sixA with outLen := 5#32 })).map
    (fun t => (t.status, t.outLen, t.inLen)) = some (0x00000052#32, 0#32, 6#32) := by decide
/-- R56. -/
theorem test_exec_frameEmpty : (nextOf (exec .frameEmpty (atWork (.frame [])))).map (·.core)
    = some (.busy { op := .decompress, n := 0#32 } (.finished (.ok []))) := by decide
/-- R100: `61 62 FE` gives `61 62`. -/
theorem test_exec_frameStored : (nextOf (exec (.frameStored 0x7F#7) (atWork (.frame [0x61, 0x62, 0xFE])))).map (·.core)
    = some (.busy { op := .decompress, n := 0#32 } (.finished (.ok [0x61, 0x62]))) := by decide
/-- R98: p = 8 is CorruptStream. -/
theorem test_exec_frameCompressed_pad : (nextOf (exec (.frameCompressed 8#4 0#3)
    (atWork (.frame [0x00, 0x09, 0xB0, 0x80, 0x81])))).map (·.core)
    = some (.busy { op := .decompress, n := 0#32 } (.finished (.error .corruptStream))) := by decide
/-- R98: the frame of "ab". -/
theorem test_exec_frameCompressed : (nextOf (exec (.frameCompressed 3#4 0#3)
    (atWork (.frame [0x00, 0x13, 0x58, 0x6C, 0x48, 0x31])))).map (·.core)
    = some (.busy { op := .decompress, n := 0#32 }
        (.tree (bits [0, 1, 0,1,1,0,0,0,0,1, 1, 0,1,1,0,0,0,1,0]) 0 [] (bits [0, 1]))) := by decide
/-- R83. -/
theorem test_exec_treeInternal : (nextOf (exec .treeInternal (atWork (.tree (bits [0]) 0 [] [])))).map (·.core)
    = some (.busy { op := .decompress, n := 0#32 } (.tree (bits [0]) 1 [none] [])) := by decide
/-- R83: the second leaf of `Internal(Leaf(61), Leaf(62))` ends its 19 bits. -/
theorem test_exec_treeLeaf : (nextOf (exec (.treeLeaf 0x62#8)
    (atWork (.tree (serialize abTree) 10 [some (.leaf 0x61)] (bits [0, 1]))))).map (·.core)
    = some (.busy { op := .decompress, n := 0#32 } (.walk abTree abTree 0 (bits [0, 1]) 0 [])) := by decide
/-- R99. -/
theorem test_exec_dataLeft : (nextOf (exec .dataLeft (atWork (.walk abTree abTree 0 (bits [0, 1]) 0 [])))).map (·.core)
    = some (.busy { op := .decompress, n := 0#32 } (.walk abTree abTree 0 (bits [0, 1]) 1 [0x61])) := by decide
/-- R99: a 1 bit in single-leaf mode. -/
theorem test_exec_dataRight : (nextOf (exec .dataRight (atWork (.walk (.leaf 0x61) (.leaf 0x61) 0 (bits [1]) 0 [])))).map
    (·.core) = some (.busy { op := .decompress, n := 0#32 } (.finished (.error .corruptStream))) := by decide

/-! ### Completion, the bus, the host and reset -/

/-- R109. -/
theorem test_completion_compress : (nextOf (completionStep (accepted .compress sixA))).map
    (fun t => (t.status, t.outLen, t.obuf)) = some (0x00000002#32, 5#32, Memory.ofBytes 0 sixAFrame) := by decide +kernel
/-- R110. -/
theorem test_completion_decompress : (nextOf (completionStep (accepted .decompress sixAFrame))).map
    (fun t => (t.status, t.outLen, t.obuf)) = some (0x00000002#32, 6#32, Memory.ofBytes 0 sixA) := by decide
/-- 2.13: OBUF_SIZE = 4. -/
theorem test_completion_overflow : (nextOf (completionStep { accepted .compress sixA with
    params := { ibufSize := 65536, obufSize := 4 } })).map (fun t => (t.status, t.outLen)) = some (0x00000072#32, 0#32) := by
  decide +kernel
/-- P5. -/
theorem test_completion_length : (nextOf (completionStep { State.reset with
    core := .busy { op := .compress, n := 0x00010001#32 } .accepted })).map (fun t => (t.status, t.outLen))
    = some (0x00000062#32, 0#32) := by decide
/-- 2.13: IBUF⟨1⟩ never written. -/
theorem test_completion_unwritten : faultOf (completionStep { accepted .compress [0x61] with
    core := .busy { op := .compress, n := 2#32 } .accepted }) = some (.unwrittenInput 1) := by decide
/-- R13, R108, by internal steps: the same state as the atomic completion. -/
theorem test_inner_steps : nextOf (innerSteps 11 (accepted .decompress sixAFrame))
    = nextOf (completionStep (accepted .decompress sixAFrame)) := by decide
/-- 2.14. -/
theorem test_write_inLen : (nextOf (busWrite 0x000008 4 0xDEADBEEF#32 State.reset)).map (·.inLen) = some 0xDEADBEEF#32 := by
  decide
/-- 2.14. -/
theorem test_refused_forms : refusalOf (busWrite 0x000000 1 0#32 State.reset) = some .unsupportedAccess
    ∧ refusalOf (busWrite 0x000002 4 0#32 State.reset) = some .unsupportedAccess
    ∧ refusalOf (busWrite 0x100000 4 0#32 State.reset) = some .unsupportedAccess := by decide
/-- R71: `wr32 0x000008, 6` is W4 000008 00000006. -/
theorem test_request : Stmt.request [] (.wr32 0x000008 (.lit 6#32)) = .access (.write 0x000008 4 6#32) := by decide
/-- R72: `load 0x61, 0x62`. -/
theorem test_load : Script.load [.lit 0x61#32, .lit 0x62#32] = [.wr8 0x100000 (.lit 0x61#32), .wr8 0x100001 (.lit 0x62#32),
    .wr32 0x000008 (.lit 2#32)] := by decide
/-- P4: an illegal command leaves OBUF. -/
theorem test_step_illegal : (nextOf (step { atStmt (.wr32 0 (.lit 3#32)) with
    obuf := [(0, 0x00#8)], done := true, outLen := 1#32 })).map (fun t => (t.status, t.outLen, t.obuf))
    = some (0x00000052#32, 0#32, [(0, 0x00#8)]) := by decide
/-- R72: `setlen len` of a host variable. -/
theorem test_setlen_variable : (Script.setlen (.var 4)).map (Stmt.request [(4, 5#32)]) = [.access (.write 0x000008 4 5#32)] := by
  decide
/-- R36, log 10: a value wider than a byte is written as a free draw, and a reserved offset ignores it as any other. -/
theorem test_wide_byte_write : busWrite 0x100002 1 0x100#32 State.reset
      = .next { State.reset with ibuf := [(2, Config.freeByte 0)], draws := 1 }
    ∧ busWrite 0x300000 1 0x100#32 State.reset = .next State.reset := ⟨rfl, rfl⟩
/-- R70: `poll` until STATUS bit 0 is the value of a host variable. -/
theorem test_poll_variable : (nextOf (hostStep { accepted .compress sixA with
    host := { script := [.poll 0x000004 1#32 (.var 4)], pos := 0, vars := [(4, 1#32)] } })).map (·.host.pos) = some 1 := by
  decide
/-- R70: `poll` with BUSY = 1 stays. -/
theorem test_poll_stays : (nextOf (hostStep { accepted .compress sixA with
    host := { script := Script.wait, pos := 0, vars := [] } })).map (·.host.pos) = some 0 := by decide
/-- 2.15. -/
theorem test_reset_while_busy : (nextOf (step { accepted .compress sixA with plan := [.reset] })).map
    (fun t => (t.status, t.inLen, t.ibuf, t.core)) = some (0x00000000#32, 0#32, [], .idle) := by decide

/-- The three kinds of table word the next step fetches and runs. -/
theorem test_fetch_words :
    nextOf (step (State.reset.withFetchWord 32 2)) = nextOf (exec .decompress
      { State.reset with host := { script := [.wr32 0 (.lit 2#32)], pos := 1, vars := [] } })
    ∧ (nextOf (step (State.reset.withFetchWord 8 0))).map (·.core)
      = some (.busy { op := .decompress, n := 3#32 } (.finished (.ok [0x00, 0x00])))
    ∧ (nextOf (step (State.reset.withFetchWord 16 0x100))).map (·.core)
      = some (.busy { op := .decompress, n := 0#32 } (.walk (.leaf 0x00) (.leaf 0x00) 0 [] 0 [])) := by decide

/-! ### Witnesses: for each statement with hypotheses, a concrete case that meets them all -/

theorem witness_DecodeReadsBackEncode : Instr.wellFormed (.illegalCommand 0xFFFFFFFF#32) = true
    ∧ Instr.wellFormed (.treeLeaf 0xFF#8) = true ∧ Instr.space (.treeLeaf 0xFF#8) ≠ .frame := by decide
theorem witness_DecodeReadsBackEncode_frame : Instr.wellFormed (.frameCompressed 15#4 7#3) = true
    ∧ Instr.space (.frameCompressed 15#4 7#3) = .frame ∧ Instr.frameCompressed 15#4 7#3 ≠ .frameEmpty := by decide
theorem witness_DecodedBitsEncodeBack : decode .treeNode (bits [1, 1,1,1,1,1,1,1,1, 0]) = .ok (.treeLeaf 0xFF#8, [false]) := by
  decide
theorem witness_DecodedBitsEncodeBack_frame : decode .frame (bits [1, 0,0,0,0, 0,0,0, 1])
    = .ok (.frameCompressed 0#4 0#3, [true]) := by decide

theorem witness_StepRunsTheDecodedInstruction_command : (atStmt (.wr32 0 (.lit 0#32))).nextMove = .host
    ∧ (atStmt (.wr32 0 (.lit 0#32))).host.script[(atStmt (.wr32 0 (.lit 0#32))).host.pos]? = some (.wr32 0x000000 (.lit 0#32))
    ∧ Val.eval [] (.lit 0#32) = some 0#32 := by decide
theorem witness_StepRunsTheDecodedInstruction_frame : (atWork (.frame [])).nextMove = .inner
    ∧ (atWork (.frame [])).core = .busy { op := .decompress, n := 0#32 } (.frame []) := by decide
theorem witness_StepRunsTheDecodedInstruction_node : (atWork (.tree (bits [0, 1]) 0 [] [])).nextMove = .inner
    ∧ decodeNode ((bits [0, 1]).drop 0) = .ok (.treeInternal, [true]) := by decide
theorem witness_StepRunsTheDecodedInstruction_data : (atWork (.walk abTree abTree 0 (bits [0, 1]) 1 [])).nextMove = .inner
    ∧ decodeData ((bits [0, 1]).drop 1) = .ok (.dataRight, []) := by decide
theorem witness_TrailersEncodeTheFrameKinds : (7 : Nat) ≤ 7 := by decide

theorem witness_CommandsAreAccepted : State.reset.busy = false := by decide
theorem witness_CommandWriteWhileBusyIsIgnored : (accepted .compress []).busy = true := by decide
theorem witness_IllegalCommandIsReported : State.reset.busy = false ∧ 0x00000003#32 ≠ 0x00000001#32
    ∧ 0x00000003#32 ≠ 0x00000002#32 := by decide
theorem witness_InstructionsChangeOnlyTheCore : (∃ t, exec .compress (loaded sixA) = .next t)
    ∧ ∃ t, exec .frameEmpty (atWork (.frame [])) = .next t := ⟨⟨_, rfl⟩, ⟨_, rfl⟩⟩
theorem witness_EmptyAndStoredFramesYieldTheirBytes : (atWork (.frame [])).core = .busy { op := .decompress, n := 0#32 } (.frame [])
    ∧ (atWork (.frame [0x00])).core = .busy { op := .decompress, n := 0#32 } (.frame ([] ++ [0x00#8])) := by decide
/-- The first sizes at which a padding count is illegal and at which a header fits. -/
theorem witness_CompressedFrameIsSplit_errors :
    (atWork (.frame [0x00, 0x81])).core = .busy { op := .decompress, n := 0#32 } (.frame ([0x00#8] ++ [0x81#8]))
    ∧ 7 < (8#4).toNat ∧ 8 * ([0x00#8] : Bytes).length < (0#4).toNat + 16 := by decide
/-- A header that counts one bit more than there is, and one that counts exactly what there is. -/
theorem witness_CompressedFrameIsSplit_regions :
    unpack [0x00, 0x06, 0xB0] = bitsBE 6 16 ++ bits [1,0,1,1,0] ++ bits [0,0,0] ∧ (bits [1,0,1,1,0]).length < valBE (bitsBE 6 16)
    ∧ unpack [0x00, 0x05, 0xB0] = bitsBE 5 16 ++ bits [1,0,1,1,0] ++ bits [0,0,0] ∧ valBE (bitsBE 5 16) ≤ (bits [1,0,1,1,0]).length
    ∧ (bitsBE 5 16).length = 16 ∧ (bits [0,0,0]).length = (3#4).toNat ∧ (3#4).toNat ≤ 7 := by decide
theorem witness_TreeNodesExtendTheOpenTree :
    ([some (.leaf 0x61), none] : List (Option PrefixTree)) = [PrefixTree.leaf 0x61].map some ++ none :: []
    ∧ ([some (.leaf 0x61)] : List (Option PrefixTree)) = [PrefixTree.leaf 0x61].map some
    ∧ 10 + 9 = (serialize abTree).length ∧ 9 + 9 ≠ (serialize abTree).length := by decide
theorem witness_DataBitsWalkTheTree :
    (atWork (.walk abracadabraTree abracadabraTree 0 [] 0 [])).core
      = .busy { op := .decompress, n := 0#32 } (.walk abracadabraTree abracadabraTree 0 [] 0 [])
    ∧ abracadabraTree = .internal (.leaf 0x61) (.internal (.internal (.leaf 0x63) (.leaf 0x64)) (.internal (.leaf 0x62) (.leaf 0x72))) := by
  decide

theorem witness_CompletionReportsTheResult_ok : (accepted .compress sixA).params.Legal
    ∧ (accepted .compress sixA).inputIs { op := .compress, n := 6#32 } sixA
    ∧ codec .compress sixA = .ok sixAFrame ∧ sixAFrame.length ≤ (accepted .compress sixA).params.obufSize :=
  ⟨by decide, ⟨by decide, by rfl⟩, by decide, by decide⟩
theorem witness_CompletionReportsTheResult_error : (accepted .decompress [0x01]).inputIs { op := .decompress, n := 1#32 } [0x01]
    ∧ codec .decompress [0x01] = .error .corruptStream := ⟨⟨by decide, by rfl⟩, by decide⟩
/-- n = IBUF_SIZE + 1 and n = IBUF_SIZE. -/
theorem witness_LengthErrorWithoutReadingInput : State.reset.params.ibufSize < (0x00010001#32).toNat
    ∧ (0x00010000#32).toNat ≤ State.reset.params.ibufSize
    ∧ ∃ t, completionStep { accepted .compress [0x61] with params := { ibufSize := 1, obufSize := 2 } } = .next t :=
  ⟨by decide, by decide, ⟨_, rfl⟩⟩
/-- An output of OBUF_SIZE + 1 bytes. -/
theorem witness_OutputOverflowIsReported : codec .compress sixA = .ok sixAFrame
    ∧ (Params.mk 65536 4).obufSize < sixAFrame.length ∧ (accepted .compress sixA).params = Params.default := by decide
theorem witness_ErrorEntrySavesNothingElse : ∃ t, (accepted .decompress [0x01]).busy = true
    ∧ completionStep (accepted .decompress [0x01]) = .next t ∧ t.err ≠ 0#4 ∧ t.status = 0x00000032#32
    ∧ t.err.setWidth 32 <<< 4 ||| 0x00000002#32 = 0x00000032#32 := ⟨_, by decide, rfl, by decide, by decide, by decide⟩
theorem witness_UnwrittenInputFaults : (∀ j : Nat, j < 1 → (accepted .compress [0x61]).ibuf.get j ≠ none)
    ∧ (accepted .compress [0x61]).ibuf.get 1 = none ∧ (2#32).toNat ≤ (accepted .compress [0x61]).params.ibufSize
    ∧ 1 < (2#32).toNat := by decide
theorem witness_CompletedResultIsVisible : ∃ t, (accepted .compress [0x61]).params.Legal ∧ (accepted .compress [0x61]).busy = true
    ∧ completionStep (accepted .compress [0x61]) = .next t ∧ t.err = 0#4 ∧ 1 < t.outLen.toNat :=
  ⟨_, by decide, by decide, rfl, by decide +kernel, by decide +kernel⟩
theorem witness_CommandsAreIndependent : ∃ t, { accepted .compress [0x61] with done := true }.params = (accepted .compress [0x61]).params
    ∧ completionStep { accepted .compress [0x61] with done := true } = .next t := ⟨_, by decide, rfl⟩
/-- A machine with a finished report whose host is about to execute one statement. -/
def reported (st : Stmt) : State := { atStmt st with done := true, err := 3#4 }
theorem witness_ReportStandsUntilTheNextCommand_command : (reported (.wr32 0 (.lit 2#32))).busy = false
    ∧ (reported (.wr32 0 (.lit 2#32))).nextMove = .host ∧ (∃ t, step (reported (.wr32 0 (.lit 2#32))) = .next t)
    ∧ (∃ t, step (reported (.wr32 0 (.lit 3#32))) = .next t) ∧ 3#32 ≠ 0x00000001#32 ∧ 3#32 ≠ 0x00000002#32 :=
  ⟨by decide, by decide, ⟨_, rfl⟩, ⟨_, rfl⟩, by decide, by decide⟩
theorem witness_ReportStandsUntilTheNextCommand_other : (∃ t, step (reported (.wr32 8 (.lit 2#32))) = .next t)
    ∧ (reported (.wr32 8 (.lit 2#32))).nextMove ≠ .reset
    ∧ ¬ ∃ v : Val, (reported (.wr32 8 (.lit 2#32))).host.script[0]? = some (.wr32 0x000000 v) :=
  ⟨⟨_, rfl⟩, by decide, fun ⟨_, h⟩ => by simp [reported, atStmt] at h⟩

/-- The first and last offsets of the reserved ranges. -/
theorem witness_ReservedOffsetsReadZero : State.reset.params.Legal ∧ legalForm 0x000010 4 = true ∧ legalForm 0x0FFFFC 4 = true
    ∧ legalForm (0x100000 + 65536) 1 = true ∧ legalForm 0x1FFFFF 1 = true ∧ legalForm (0x200000 + 524288) 1 = true
    ∧ legalForm 0xFFFFFF 1 = true := by decide
/-- Each side of the two legal windows' boundaries. -/
theorem witness_UnsupportedFormsAreRefused : (2 ≠ 1 ∧ 2 ≠ 4) ∧ (0x1000000 ≤ 0x1000000) ∧ 0x0FFFFF < 0x100000
    ∧ 0x000002 % 4 ≠ 0 ∧ (0x0FFFFC % 4 = 0 ∧ 0x0FFFFC < 0x100000)
    ∧ (0x100000 ≤ 0xFFFFFF ∧ 0xFFFFFF < 0x1000000) := by decide
theorem witness_InputBufferHoldsWhatWasWritten : State.reset.params.Legal ∧ State.reset.busy = false
    ∧ 65535 < State.reset.params.ibufSize ∧ 256 ≤ (0x100#32).toNat := by decide
theorem witness_UnspecifiedBytesAreFreeDraws : State.reset.params.Legal ∧ 524287 < State.reset.params.obufSize
    ∧ State.reset.obuf.get 524287 = none ∧ State.reset.ibuf.get 65535 = none
    ∧ { State.reset with obuf := [(0, 0x55#8)] }.obuf.get 0 = some 0x55#8 := by decide
theorem witness_ReadsWhileBusyAreFreeDraws : (accepted .compress sixA).params.Legal ∧ (accepted .compress sixA).busy = true
    ∧ (accepted .compress sixA).ibuf.get 5 = some 0x61#8 ∧ (accepted .compress sixA).ibuf.get 6 = none
    ∧ 6 < (accepted .compress sixA).params.ibufSize
    ∧ legalForm 0x0FFFFC 4 = true ∧ legalForm (0x100000 + 65536) 1 = true ∧ legalForm 0xFFFFFF 1 = true := by decide
theorem witness_HostHazardFaults : (accepted .compress sixA).busy = true
    ∧ busWrite 0x000008 4 7#32 (accepted .compress sixA) = .fault .hostHazard
    ∧ busWrite 0x10FFFF 1 0xFF#32 (accepted .compress sixA) = .fault .hostHazard := ⟨by decide, rfl, rfl⟩

theorem witness_HostStatements_writes : (atStmt (.wr8 0x100000 (.lit 0xFF#32))).nextMove = .host
    ∧ (atStmt (.wr8 0x100000 (.lit 0xFF#32))).host.script[(atStmt (.wr8 0x100000 (.lit 0xFF#32))).host.pos]?
      = some (.wr8 0x100000 (.lit 0xFF#32)) ∧ Val.eval [] (.lit 0xFF#32) = some 0xFF#32 := by decide
theorem witness_HostStatements_reads : ∃ v t, (atStmt (.rd32 0x000004 9)).nextMove = .host
    ∧ busRead 0x000004 4 (atStmt (.rd32 0x000004 9)).takeMove = .ok (v, t) := ⟨_, _, by decide, rfl⟩
theorem witness_HostStatements_poll : (0x00000002#32 &&& 0x00000001#32 = 0#32) ∧ (0x00000001#32 &&& 0x00000001#32 ≠ 0#32)
    ∧ Val.eval [(3, 0#32)] (.var 3) = some 0#32
    ∧ ∃ t, busRead 0x000004 4 (atStmt (.poll 0x000004 1#32 (.lit 0#32))).takeMove = .ok (0#32, t) :=
  ⟨by decide, by decide, by decide, ⟨_, rfl⟩⟩
theorem witness_HostStatements_bnz : mapGet 3 [(3, 1#32)] = some 1#32
    ∧ ([.label 7, .bnz 3 7] : List Stmt)[0]? = some (.label 7)
    ∧ ∀ j : Nat, j < 0 → ([.label 7, .bnz 3 7] : List Stmt)[j]? ≠ some (.label 7) :=
  ⟨by decide, by decide, fun j h => absurd h (by omega)⟩
theorem witness_ResetAbandonsTheCommand : { accepted .compress sixA with plan := [.reset] }.nextMove = .reset := by decide

/-- A state with a result in OBUF has the invariant, and a step from it answers. -/
def holdsResult : State := { loaded [0x61] with done := true, outLen := 2#32, obuf := Memory.ofBytes 0 [0x61, 0x00] }
theorem witness_StepKeepsTheInvariant : holdsResult.Inv ∧ ∃ t, step holdsResult = .next t :=
  ⟨{ legal := by decide
     ibufWf := by decide
     ibufWithin := by decide
     obufWf := by decide
     obufWithin := by decide
     busyNotDone := by decide
     errNeedsDone := by decide
     errCode := by decide
     errNoOutput := by decide
     outLenFits := by decide
     resultStands := fun _ _ => ⟨[0x61, 0x00], by decide, by decide⟩
     latchIsInLen := fun _ _ h => by simp [holdsResult, loaded, State.reset] at h
     varsSorted := by decide }, ⟨_, rfl⟩⟩
theorem witness_BusyChanges_accept : ∃ t, step (atStmt (.wr32 0 (.lit 2#32))) = .next t
    ∧ (atStmt (.wr32 0 (.lit 2#32))).core.isBusy = false ∧ t.core.isBusy = true := ⟨_, rfl, by decide, by decide⟩
theorem witness_BusyChanges_complete : ∃ t, step (accepted .compress []) = .next t
    ∧ (accepted .compress []).core.isBusy = true ∧ t.core.isBusy = false := ⟨_, rfl, by decide, by decide⟩
theorem witness_CoreNeverWritesItsInput : ∃ t, step (atWork (.frame [])) = .next t
    ∧ (atWork (.frame [])).nextMove = .inner := ⟨_, rfl, by decide⟩
theorem witness_StepStopsOnlyWhereTheSpecSays :
    step { accepted .compress [] with host := (atStmt (.wr32 8 (.lit 0#32))).host, plan := [.host] } = .fault .hostHazard
    ∧ step { accepted .compress [] with host := (atStmt (.wr8 0x10FFFF (.lit 0#32))).host, plan := [.host] } = .fault .hostHazard
    ∧ step { State.reset with core := .busy { op := .compress, n := 1#32 } .accepted } = .fault (.unwrittenInput 0) :=
  ⟨rfl, rfl, rfl⟩
theorem witness_StepStopsOnlyWhereTheSpecSays_refusals :
    step (atStmt (.wr8 0x0FFFFF (.lit 0#32))) = .refused .unsupportedAccess
    ∧ step (atStmt (.rd32 0x100000 0)) = .refused .unsupportedAccess
    ∧ step (atStmt (.poll 4 1#32 (.var 7))) = .refused .unboundVariable
    ∧ step { atStmt (.bnz 7 9) with host := { script := [.bnz 7 9], pos := 0, vars := [(7, 1#32)] } } = .refused .missingLabel :=
  ⟨rfl, rfl, rfl, rfl⟩
theorem witness_UnitsAreRefusedAwayFromTheirPlace : Instr.space .dataLeft ≠ .cmdWord
    ∧ refusalOf (exec .dataLeft State.reset) = some .outOfPhase
    ∧ refusalOf (exec .dataLeft (atWork (.walk abTree abTree 0 [] 0 []))) = none := by decide
theorem witness_AcceptedCommandCompletesAfterThePlan : (accepted .compress sixA).plan = []
    ∧ (accepted .compress sixA).inputIs { op := .compress, n := 6#32 } sixA := ⟨by decide, by decide, by rfl⟩
theorem witness_InternalStepsRefineTheCompletion : (accepted .decompress sixAFrame).core
      = .busy { op := .decompress, n := 5#32 } .accepted ∧ (∃ t, completionStep (accepted .decompress sixAFrame) = .next t)
    ∧ (∃ s', innerSteps 3 (accepted .decompress sixAFrame) = .next s' ∧ s'.busy = true)
    ∧ completionStep { State.reset with core := .busy { op := .compress, n := 1#32 } .accepted } = .fault (.unwrittenInput 0) :=
  ⟨by decide, ⟨_, rfl⟩, ⟨_, rfl, by decide⟩, rfl⟩

theorem witness_DecompressInvertsCompress : Params.default.Legal ∧ sixA.length ≤ Params.default.ibufSize
    ∧ abracadabraTree.symbols.Nodup ∧ (∀ b ∈ abracadabra, b ∈ abracadabraTree.symbols) :=
  ⟨by decide, by decide, by decide, by decide⟩
theorem witness_CommandsRoundTripThroughTheBuffers : (loaded sixA).params.Legal ∧ (loaded sixA).busy = false
    ∧ (loaded sixA).inLen.toNat = sixA.length ∧ sixA.length + 1 ≤ (loaded sixA).params.obufSize
    ∧ (loaded sixA).ibuf.read 0 sixA.length = .ok sixA
    ∧ (∃ t u, exec .compress (loaded sixA) = .next t ∧ completionStep t = .next u
        ∧ (loaded sixAFrame).params = (loaded sixA).params ∧ (loaded sixAFrame).inLen = u.outLen
        ∧ ∀ j : Nat, j < 5 → (loaded sixAFrame).ibuf.get j = u.obuf.get j) :=
  ⟨by decide, by decide, by decide, by decide, by decide, _, _, rfl, rfl, by decide, by decide +kernel, by decide +kernel⟩
theorem witness_FrequenciesCountTheInput : Params.default.Legal ∧ abracadabra.length ≤ Params.default.ibufSize := by decide
theorem witness_BuiltTreeHasOneLeafForEachSymbol : (freqCount abracadabra).length = 256 ∧ (∃ f ∈ freqCount abracadabra, 0 < f)
    ∧ buildTree (freqCount abracadabra) = some abracadabraTree :=
  ⟨by decide +kernel, by decide +kernel, by decide +kernel⟩
/-- Two entries of equal weight and one of less: a queue that a merge can take. -/
def threeEntries : List Entry := [⟨2, 0x61, .leaf 0x61⟩, ⟨2, 0x62, .leaf 0x62⟩, ⟨1, 0x63, .leaf 0x63⟩]
theorem witness_BuiltTreeHasOneLeafForEachSymbol_merge : 2 ≤ threeEntries.length ∧ (threeEntries.map (·.key)).Nodup
    ∧ threeEntries.length ≤ 3
    ∧ mergeOnce threeEntries 256 = some [⟨2, 0x62, .leaf 0x62⟩, ⟨3, 256, .internal (.leaf 0x63) (.leaf 0x61)⟩] := by decide
theorem witness_CodesLeadToTheirLeaves : abracadabraTree.symbols.Nodup
    ∧ mapGet 0x64 (genCodes abracadabraTree) = some (bits [1,0,1]) := by decide
theorem witness_CodesArePrefixFree : 2 ≤ abTree.leaves ∧ mapGet 0x61 (genCodes abTree) = some [false]
    ∧ mapGet 0x62 (genCodes abTree) = some [true] ∧ (0x62 : Nat) ≠ 0x61 := by decide
theorem witness_CodeLengthsFillTheCodeSpace : (freqCount [0x61, 0x62]).length = 256
    ∧ buildTree (freqCount [0x61, 0x62]) = some abTree ∧ 2 ≤ abTree.leaves :=
  ⟨by decide +kernel, by decide +kernel, by decide⟩
theorem witness_EqualCountsGiveEightBitCodes : 0 < 1 ∧ (buildTree (List.replicate 256 1)).isSome = true :=
  ⟨by decide, by decide +kernel⟩
theorem witness_DeserializeInvertsSerialize : buildTree (freqCount [0x61, 0x62]) = some abTree
    ∧ deserialize (serialize abTree) = .ok abTree := ⟨by decide +kernel, by decide⟩
theorem witness_DeserializerCapacityIsNeverExceeded : (serialize abTree).length ≤ 65535
    ∧ deserialize (serialize abTree) = .ok abTree := by decide
theorem witness_UnpackInvertsPack : pack (bits [1]) = ([0x80#8], 7) ∧ ([0x00#8, 0x13#8] : Bytes)[15 / 8]? = some 0x13#8
    ∧ (bits [1])[0]? = some true := by decide
theorem witness_EncodedDataHasABitForEachByte : buildTree (freqCount sixA) = some (.leaf 0x61)
    ∧ PrefixTree.leaves (.leaf 0x61) = 1 := ⟨by decide +kernel, by decide⟩
/-- Both sides of R94's comparison: six equal bytes against a candidate of five, and five against five. -/
theorem witness_CompressedLengthLaws : buildTree (freqCount sixA) = some (.leaf 0x61)
    ∧ encodeData sixA (.leaf 0x61) (genCodes (.leaf 0x61)) = .ok (bits [0, 0, 0, 0, 0, 0])
    ∧ (16 + serializedLength (.leaf 0x61) + 6 + 7) / 8 + 1 < sixA.length
    ∧ buildTree (freqCount (sixA.take 5)) = some (.leaf 0x61)
    ∧ encodeData (sixA.take 5) (.leaf 0x61) (genCodes (.leaf 0x61)) = .ok (bits [0, 0, 0, 0, 0])
    ∧ (sixA.take 5).length ≤ (16 + serializedLength (.leaf 0x61) + 5 + 7) / 8 + 1 := by decide +kernel
theorem witness_ShortInputsAreStored : ([0x61, 0x61, 0x61, 0x61, 0x61] : Bytes) ≠ []
    ∧ ([0x61, 0x61, 0x61, 0x61, 0x61] : Bytes).length ≤ 5 := by decide
theorem witness_DecompressedLengthBound : decompress sixAFrame = .ok sixA ∧ sixAFrame.getLast? = some 0x11#8
    ∧ (0x11#8).getLsbD 0 = true ∧ decompress [0x00] = .ok [] ∧ (0x00#8).getLsbD 0 = false := by decide
theorem witness_UnusedFrameBitsAreIgnored : (0xFE#8).getLsbD 0 = false ∧ (0x11#8).getLsbD 0 = true ∧ (0x1F#8).getLsbD 0 = true
    ∧ (0x11#8).extractLsb' 4 4 = (0x1F#8).extractLsb' 4 4
    ∧ (unpack [0x00, 0x09, 0xB0, 0x80]).take (8 * 4 - 1) = (unpack [0x00, 0x09, 0xB0, 0x81]).take (8 * 4 - 1) := by decide
theorem witness_WalkEndsOnlyAfterWholeCodeWords : (bits [0, 1]).drop 2 = []
    ∧ (atWork (.walk abracadabraTree (.internal (.leaf 0x62) (.leaf 0x72)) 2 (bits [1, 1]) 2 [])).core
      = .busy { op := .decompress, n := 0#32 } (.walk abracadabraTree (.internal (.leaf 0x62) (.leaf 0x72)) 2 (bits [1, 1]) 2 [])
    ∧ walk abracadabraTree (bits [0]) = .ok [0x61] ∧ bits [1, 1] ≠ []
    ∧ PrefixTree.follow abracadabraTree (bits [1, 1]) = some (.internal (.leaf 0x62) (.leaf 0x72))
    ∧ walk (.leaf 0x61) (bits [1]) = .error .corruptStream := by decide
/-- A cursor one past the last bit, and a leaf marker before seven bits. -/
theorem witness_DeserializeFailsOnlyWithMalformedTree : (bits [0]).length ≤ 1
    ∧ (bits [0, 1, 0,1,1,0,0,0,0]).drop 1 = true :: bits [0,1,1,0,0,0,0] ∧ (bits [0,1,1,0,0,0,0]).length < 8
    ∧ (atWork (.tree (bits [0]) 1 [none] [])).core = .busy { op := .decompress, n := 0#32 } (.tree (bits [0]) 1 [none] []) := by
  decide

end Sys2Proof.Tests
end

section
/-! PROOFS. What an implementation fixes and what the core only reads: the parameters (00_scope.md R6), the reset values
(70_reset_and_hazards.md R132), and the frame of the core's steps on IBUF and IN_LEN (10_state.md R22, R25). -/

namespace Sys2Proof.Machine

/-! ### Reset -/

/-- An empty buffer has no byte with a value. -/
theorem Memory.get_nil (i : Nat) : Memory.get [] i = none := by
  rw [Memory.get_eq, mapGet_nil]

/-- CMD stores nothing: it reads 0 in every state (10_state.md R17). -/
theorem busRead_cmd (s : State) : busRead 0x000000 4 s = .ok (0x00000000#32, s) := rfl

/-- Settles O31: each register's reset value is the literal of `State.reset`, and the two quantified clauses are about
empty buffers. -/
theorem resetValues : Obligations.ResetValues := by
  have hstatus : State.reset.status = 0x00000000#32 := by decide
  exact ⟨rfl, hstatus, rfl, rfl, busRead_cmd State.reset, Memory.get_nil, Memory.get_nil, rfl, rfl⟩

/-! ### The frame of the core -/

/-- The frame of the core's moves: of `State` they write only the core itself, STATUS, OUT_LEN and OBUF. -/
structure State.CoreFrame (s t : State) : Prop where
  params : t.params = s.params
  inLen : t.inLen = s.inLen
  ibuf : t.ibuf = s.ibuf
  draws : t.draws = s.draws
  host : t.host = s.host
  plan : t.plan = s.plan

theorem State.coreFrame_refl (s : State) : s.CoreFrame s := ⟨rfl, rfl, rfl, rfl, rfl, rfl⟩

theorem State.coreFrame_setWork (s : State) (l : Latch) (w : Work) : s.CoreFrame (s.setWork l w) :=
  ⟨rfl, rfl, rfl, rfl, rfl, rfl⟩

/-- A completion writes OBUF, OUT_LEN and STATUS only, whichever form it takes (45_command_interface.md R108,
60_exceptions.md R121). -/
theorem State.coreFrame_complete (s : State) (r : Result) : s.CoreFrame (s.complete r) := by
  rcases complete_cases s r with ⟨out, -, -, h⟩ | ⟨out, -, -, h⟩ | ⟨e, -, h⟩ <;> rw [h] <;>
    exact ⟨rfl, rfl, rfl, rfl, rfl, rfl⟩

theorem completionStep_coreFrame {s u : State} (h : completionStep s = .next u) : s.CoreFrame u := by
  rcases completionStep_cases h with ⟨-, rfl⟩ | ⟨-, -, -, -, rfl⟩ | ⟨-, -, -, -, -, -, rfl⟩
  · exact u.coreFrame_refl
  · exact s.coreFrame_complete _
  · exact s.coreFrame_complete _

theorem innerStep_coreFrame {s u : State} (h : innerStep s = .next u) : s.CoreFrame u := by
  rcases innerStep_cases h with ⟨-, rfl⟩ | ⟨l, -, w', -, rfl⟩ | ⟨-, r, -, rfl⟩
  · exact u.coreFrame_refl
  · exact s.coreFrame_setWork l w'
  · exact s.coreFrame_complete r

/-- Both kinds of core move have the one frame. -/
theorem runMove_coreFrame {m : Move} {s u : State} (hm : m = .complete ∨ m = .inner)
    (h : runMove m s = .next u) : s.CoreFrame u := by
  rcases hm with rfl | rfl
  · exact completionStep_coreFrame h
  · exact innerStep_coreFrame h

/-! ### The parameters -/

theorem exec_keeps_params {i : Instr} {s u : State} (h : exec i s = .next u) : u.params = s.params := by
  rcases exec_cases h with ⟨-, -, rfl⟩ | ⟨-, ⟨-, rfl⟩ | ⟨-, rfl⟩ | ⟨-, rfl⟩⟩ | ⟨-, l, -, w', -, rfl⟩ <;> simp

theorem writtenByte_params (data : Word) (s : State) : (writtenByte data s).2.params = s.params := by
  rcases writtenByte_cases data s with ⟨-, h⟩ | ⟨-, h⟩ <;> simp [h]

theorem busWrite_keeps_params {off width : Nat} {data : Word} {s u : State} (h : busWrite off width data s = .next u) :
    u.params = s.params := by
  rcases busWrite_cases h with ⟨-, he⟩ | ⟨-, -, rfl⟩ | ⟨i, -, -, -, rfl⟩ | rfl
  · exact exec_keeps_params he
  · exact s.setInLen_params data
  · simp [writtenByte_params]
  · rfl

theorem hostStep_keeps_params {s u : State} (h : hostStep s = .next u) : u.params = s.params := by
  rcases hostStep_cases h with ⟨-, off, width, data, -, -, hw⟩ | ⟨-, -, rfl, -⟩
  · exact (busWrite_keeps_params hw).trans s.advanceHost_params
  · rfl

/-- No agent's move changes the parameters, reset included (log 1, log 18). -/
theorem runMove_keeps_params {m : Move} {s u : State} (h : runMove m s = .next u) : u.params = s.params := by
  cases m with
  | host => exact hostStep_keeps_params h
  | complete => exact (completionStep_coreFrame h).params
  | inner => exact (innerStep_coreFrame h).params
  | reset => cases h; exact s.applyReset_params

/-- Settles O36: a step is a move of one agent from the state with its plan moved on, every move keeps the parameters,
and the core's moves have its frame. -/
theorem coreNeverWritesItsInput : Obligations.CoreNeverWritesItsInput := by
  intro s t h
  rw [step_of_nextMove rfl] at h
  refine ⟨(runMove_keeps_params h).trans s.takeMove_params, fun hm => ?_⟩
  have hframe := runMove_coreFrame hm h
  exact ⟨hframe.inLen, fun i => by rw [hframe.ibuf, State.takeMove_ibuf], hframe.draws, hframe.host⟩

end Sys2Proof.Machine
end

section
/-! PROOFS. Every move of every agent keeps the invariant of `State.Inv` (10_state.md R15-R27; 45_command_interface.md R107;
60_exceptions.md R118, R119): one lemma for each named update of State, and one for each agent's move. -/

namespace Sys2Proof.Machine

/-! ### The updates keep the invariant -/

theorem State.Inv.takeMove {s : State} (h : s.Inv) : s.takeMove.Inv := { h with }

theorem State.Inv.draw {s : State} (h : s.Inv) : s.draw.Inv := { h with }

theorem State.Inv.advanceHost {s : State} (h : s.Inv) : s.advanceHost.Inv := { h with }

theorem State.Inv.setHost {s : State} (h : s.Inv) (d : Nat) (a : HostAgent) (ha : mapSorted a.vars = true) :
    State.Inv { s with draws := d, host := a } := { h with varsSorted := ha }

theorem State.Inv.setIbuf {s : State} (h : s.Inv) {i : Nat} (hi : i < s.params.ibufSize) (b : Byte) :
    (s.setIbuf i b).Inv :=
  { h with
    ibufWf := mapSet_sorted i b s.ibuf h.ibufWf
    ibufWithin := mapSet_within _ i b s.ibuf hi h.ibufWithin }

/-- IN_LEN may change only while no command has latched it. -/
theorem State.Inv.setInLen {s : State} (h : s.Inv) (hb : s.busy = false) (w : Word) : (s.setInLen w).Inv :=
  { h with
    latchIsInLen := fun l k hc => by
      rw [State.busy_of_busy s l k hc] at hb
      cases hb }

theorem State.Inv.accept {s : State} (h : s.Inv) (op : Op) : (s.accept op).Inv :=
  { h with
    busyNotDone := fun _ => rfl
    errNeedsDone := fun _ => rfl
    errCode := Nat.zero_le 7
    errNoOutput := fun he => absurd rfl he
    resultStands := fun hd => nomatch hd
    latchIsInLen := fun l w hc => by cases hc; rfl }

/-- A command of the same latch goes on. -/
theorem State.Inv.setWork {s : State} (h : s.Inv) {l : Latch} {w : Work} (hc : s.core = .busy l w) (w' : Work) :
    (s.setWork l w').Inv :=
  { h with
    busyNotDone := fun _ => h.busyNotDone (State.busy_of_busy s l w hc)
    latchIsInLen := fun l' k hc' => by cases hc'; exact h.latchIsInLen l w hc }

theorem ErrorKind.code_ne_zero (e : ErrorKind) : e.code ≠ 0#4 := by cases e <;> decide

theorem ErrorKind.code_le (e : ErrorKind) : e.code.toNat ≤ 7 := by cases e <;> decide

theorem State.Inv.rejectCommand {s : State} (h : s.Inv) : s.rejectCommand.Inv :=
  { h with
    busyNotDone := fun hb => nomatch hb
    errNeedsDone := fun hd => nomatch hd
    errCode := ErrorKind.code_le _
    errNoOutput := fun _ => rfl
    outLenFits := Nat.zero_le _
    resultStands := fun _ he => absurd he (ErrorKind.code_ne_zero .illegalCommand)
    latchIsInLen := fun _ _ hc => nomatch hc }

theorem State.Inv.fail {s : State} (h : s.Inv) (e : ErrorKind) : (s.fail e).Inv :=
  { h with
    obufWf := rfl
    obufWithin := rfl
    busyNotDone := fun hb => nomatch hb
    errNeedsDone := fun hd => nomatch hd
    errCode := e.code_le
    errNoOutput := fun _ => rfl
    outLenFits := Nat.zero_le _
    resultStands := fun _ he => absurd he e.code_ne_zero
    latchIsInLen := fun _ _ hc => nomatch hc }

/-- With legal parameters OUT_LEN holds the length of every output that fits OBUF exactly (log 23). -/
theorem outLen_toNat {p : Params} (hp : p.Legal) {out : Bytes} (hout : out.length ≤ p.obufSize) :
    (BitVec.ofNat 32 out.length).toNat = out.length := by
  obtain ⟨-, ⟨-, hmax⟩, -⟩ := hp
  have hword : Config.maxBufferSize < 2 ^ 32 := by decide
  exact (BitVec.toNat_ofNat _ _).trans (Nat.mod_eq_of_lt (by omega))

theorem State.Inv.succeed {s : State} (h : s.Inv) {out : Bytes} (hout : out.length ≤ s.params.obufSize) :
    (s.succeed out).Inv :=
  { h with
    obufWf := Memory.ofBytes_wf 0 out
    obufWithin := Memory.ofBytes_within _ out hout
    busyNotDone := fun hb => nomatch hb
    errNeedsDone := fun hd => nomatch hd
    errCode := Nat.zero_le 7
    errNoOutput := fun he => absurd rfl he
    outLenFits := (outLen_toNat h.legal hout).le.trans hout
    resultStands := fun _ _ => ⟨out, rfl, (outLen_toNat h.legal hout).symm⟩
    latchIsInLen := fun _ _ hc => nomatch hc }

theorem State.Inv.complete {s : State} (h : s.Inv) (r : Result) : (s.complete r).Inv := by
  rcases complete_cases s r with ⟨out, -, hout, heq⟩ | ⟨-, -, -, heq⟩ | ⟨e, -, heq⟩ <;> rw [heq]
  · exact h.succeed hout
  · exact h.fail .outputOverflow
  · exact h.fail e

theorem State.Inv.applyReset {s : State} (h : s.Inv) : s.applyReset.Inv where
  legal := h.legal
  ibufWf := rfl
  ibufWithin := rfl
  obufWf := rfl
  obufWithin := rfl
  busyNotDone := fun _ => rfl
  errNeedsDone := fun _ => rfl
  errCode := Nat.zero_le 7
  errNoOutput := fun he => absurd rfl he
  outLenFits := Nat.zero_le _
  resultStands := fun hd => nomatch hd
  latchIsInLen := fun _ _ hc => nomatch hc
  varsSorted := h.varsSorted

/-! ### The moves keep the invariant -/

theorem exec_keeps_inv {i : Instr} {s u : State} (h : s.Inv) (he : exec i s = .next u) : u.Inv := by
  rcases exec_cases he with ⟨-, -, rfl⟩ | ⟨-, ⟨-, rfl⟩ | ⟨-, rfl⟩ | ⟨-, rfl⟩⟩ | ⟨-, l, w, w', hc, rfl⟩
  · exact h
  · exact h.accept .compress
  · exact h.accept .decompress
  · exact h.rejectCommand
  · exact h.setWork hc w'

theorem writtenByte_keeps_inv {s : State} (h : s.Inv) (data : Word) : (writtenByte data s).2.Inv := by
  rcases writtenByte_cases data s with ⟨-, heq⟩ | ⟨-, heq⟩ <;> rw [heq]
  · exact h
  · exact h.draw

theorem busWrite_keeps_inv {off width : Nat} {data : Word} {s u : State} (h : s.Inv)
    (hw : busWrite off width data s = .next u) : u.Inv := by
  rcases busWrite_cases hw with ⟨-, he⟩ | ⟨-, hb, rfl⟩ | ⟨i, -, hi, -, rfl⟩ | rfl
  · exact exec_keeps_inv h he
  · exact h.setInLen hb data
  · exact (writtenByte_keeps_inv h data).setIbuf (by rwa [writtenByte_params]) _
  · exact h

theorem hostStep_keeps_inv {s u : State} (h : s.Inv) (hs : hostStep s = .next u) : u.Inv := by
  rcases hostStep_cases hs with ⟨-, off, width, data, -, -, hw⟩ | ⟨d, a, rfl, hsorted⟩
  · exact busWrite_keeps_inv h.advanceHost hw
  · exact h.setHost d a (hsorted h.varsSorted)

theorem completionStep_keeps_inv {s u : State} (h : s.Inv) (hs : completionStep s = .next u) : u.Inv := by
  rcases completionStep_cases hs with ⟨-, rfl⟩ | ⟨-, -, -, -, rfl⟩ | ⟨l, -, input, -, -, -, rfl⟩
  · exact h
  · exact h.complete (.error .lengthError)
  · exact h.complete (codec l.op input)

theorem innerStep_keeps_inv {s u : State} (h : s.Inv) (hs : innerStep s = .next u) : u.Inv := by
  rcases innerStep_cases hs with ⟨-, rfl⟩ | ⟨l, w, w', hc, rfl⟩ | ⟨-, r, -, rfl⟩
  · exact h
  · exact h.setWork hc w'
  · exact h.complete r

theorem runMove_keeps_inv {m : Move} {s u : State} (h : s.Inv) (hs : runMove m s = .next u) : u.Inv := by
  cases m with
  | host => exact hostStep_keeps_inv h hs
  | complete => exact completionStep_keeps_inv h hs
  | inner => exact innerStep_keeps_inv h hs
  | reset => cases hs; exact h.applyReset

/-- Settles O34: a step is one agent's move from the state with its plan moved on, and each agent's move is one of the
named updates of State, which keep the invariant. -/
theorem stepKeepsTheInvariant : Obligations.StepKeepsTheInvariant := by
  intro s t h hs
  rw [step_of_nextMove rfl] at hs
  exact runMove_keeps_inv h.takeMove hs

end Sys2Proof.Machine
end

section
/-! PROOFS. The registers and buffers at the bus: the STATUS layout (10_state.md R18), what stands at each offset
(20_memory.md R35), and what a read returns and a write stores there (20_memory.md R47; 70_reset_and_hazards.md R136). -/

namespace Sys2Proof.Machine

/-! ### The registers -/

/-- The fields of the STATUS word, over its 64 values. -/
theorem statusWord_fields : ∀ (busy done : Bool) (err : BitVec 4),
    (statusWord busy done err).getLsbD 0 = busy ∧ (statusWord busy done err).getLsbD 1 = done
      ∧ (statusWord busy done err).extractLsb' 4 4 = err ∧ (statusWord busy done err).extractLsb' 2 2 = 0#2
      ∧ (statusWord busy done err).extractLsb' 8 24 = 0#24 := by
  decide

theorem busRead_status (s : State) : busRead 0x000004 4 s = .ok (s.status, s) := rfl

theorem busWrite_status (s : State) (v : Word) : busWrite 0x000004 4 v s = .next s := rfl

theorem busRead_inLen (s : State) : busRead 0x000008 4 s = .ok (s.inLen, s) := rfl

theorem busWrite_inLen (s : State) (v : Word) :
    busWrite 0x000008 4 v s = if s.busy then .fault .hostHazard else .next (s.setInLen v) := rfl

theorem busRead_outLen (s : State) :
    busRead 0x00000C 4 s = .ok (if s.busy then (Config.freeWord s.draws, s.draw) else (s.outLen, s)) := rfl

theorem busWrite_outLen (s : State) (v : Word) : busWrite 0x00000C 4 v s = .next s := rfl

/-- Settles O22: STATUS is the word of its three fields, and neither access changes it. -/
theorem statusRegisterLayout : Obligations.StatusRegisterLayout := by
  intro s
  obtain ⟨hbusy, hdone, herr, hlow, hhigh⟩ := statusWord_fields s.busy s.done s.err
  exact ⟨hbusy, hdone, herr, hlow, hhigh, busRead_status s, busWrite_status s⟩

/-- Settles O23: each register's reads and writes, with BUSY = 0 where the access depends on it. -/
theorem registersReadAndWrite : Obligations.RegistersReadAndWrite := by
  intro s
  refine ⟨busRead_cmd s, busRead_inLen s, fun hb v => ?_, fun hb => ?_, busWrite_outLen s⟩
  · rw [busWrite_inLen, hb]
    rfl
  · rw [busRead_outLen, hb]
    rfl

/-! ### The address map above the registers -/

/-- The reserved offsets and the two windows, with their numbers written out. -/
theorem target_above_registers (p : Params) {off : Nat} (h : 0x000010 ≤ off) :
    target p off = if off < 0x100000 then .reserved
      else if off < 0x100000 + p.ibufSize then .ibuf (off - 0x100000)
      else if off < 0x200000 then .reserved
      else if off < 0x200000 + p.obufSize then .obuf (off - 0x200000)
      else .reserved := by
  unfold target
  rw [if_neg (by omega), if_neg (by omega), if_neg (by omega), if_neg (by omega)]

theorem ibufSize_le_of_legal {p : Params} (hp : p.Legal) : p.ibufSize ≤ 0x100000 := hp.1.2

theorem obufSize_le_of_legal {p : Params} (hp : p.Legal) : p.obufSize ≤ 0x100000 := hp.2.1.2

theorem target_ibufBase_add {p : Params} {i : Nat} (hi : i < p.ibufSize) : target p (0x100000 + i) = .ibuf i := by
  rw [target_above_registers p (by omega), if_neg (by omega), if_pos (by omega), Nat.add_sub_cancel_left]

/-- With legal parameters the IBUF window ends no later than the OBUF window begins. -/
theorem target_obufBase_add {p : Params} (hp : p.Legal) {j : Nat} (hj : j < p.obufSize) :
    target p (0x200000 + j) = .obuf j := by
  have hsize := ibufSize_le_of_legal hp
  rw [target_above_registers p (by omega), if_neg (by omega), if_neg (by omega), if_neg (by omega), if_pos (by omega),
    Nat.add_sub_cancel_left]

theorem target_reserved {p : Params} (hp : p.Legal) {off : Nat} (h : (0x000010 ≤ off ∧ off < 0x100000)
    ∨ (0x100000 + p.ibufSize ≤ off ∧ off < 0x200000) ∨ 0x200000 + p.obufSize ≤ off) : target p off = .reserved := by
  have hsize := ibufSize_le_of_legal hp
  rw [target_above_registers p (by omega)]
  rcases h with ⟨-, hlt⟩ | ⟨hle, hlt⟩ | hle
  · rw [if_pos hlt]
  · rw [if_neg (by omega), if_neg (by omega), if_pos hlt]
  · rw [if_neg (by omega), if_neg (by omega), if_neg (by omega), if_neg (by omega)]

/-- The two legal forms of 20_memory.md R36, with their numbers written out. -/
theorem legalForm_iff {off width : Nat} : legalForm off width = true ↔
    (width = 4 ∧ off % 4 = 0 ∧ off < 0x100000) ∨ (width = 1 ∧ 0x100000 ≤ off ∧ off < 0x1000000) := by
  simp only [legalForm, Bool.or_eq_true, Bool.and_eq_true, beq_iff_eq, decide_eq_true_eq, and_assoc]

theorem legalForm_byte {off : Nat} (h : 0x100000 ≤ off) (h' : off < 0x1000000) : legalForm off 1 = true :=
  legalForm_iff.mpr (.inr ⟨rfl, h, h'⟩)

/-! ### Accesses to a legal form -/

theorem busRead_of_legalForm {off width : Nat} (h : legalForm off width = true) (s : State) :
    busRead off width s = .ok (readTarget s (target s.params off)) := if_pos h

theorem busWrite_of_legalForm {off width : Nat} (h : legalForm off width = true) (data : Word) (s : State) :
    busWrite off width data s = writeTarget data s (target s.params off) := if_pos h

theorem busRead_ibuf {s : State} (hp : s.params.Legal) {i : Nat} (hi : i < s.params.ibufSize) :
    busRead (0x100000 + i) 1 s = .ok (readByte s (s.ibuf.get i)) := by
  have hsize := ibufSize_le_of_legal hp
  rw [busRead_of_legalForm (legalForm_byte (by omega) (by omega)), target_ibufBase_add hi]
  rfl

theorem busRead_obuf {s : State} (hp : s.params.Legal) {j : Nat} (hj : j < s.params.obufSize) :
    busRead (0x200000 + j) 1 s = .ok (readByte s (if s.busy then none else s.obuf.get j)) := by
  have hsize := obufSize_le_of_legal hp
  rw [busRead_of_legalForm (legalForm_byte (by omega) (by omega)), target_obufBase_add hp hj]
  rfl

theorem busWrite_obuf {s : State} (hp : s.params.Legal) {j : Nat} (hj : j < s.params.obufSize) (data : Word) :
    busWrite (0x200000 + j) 1 data s = .next s := by
  have hsize := obufSize_le_of_legal hp
  rw [busWrite_of_legalForm (legalForm_byte (by omega) (by omega)), target_obufBase_add hp hj]
  rfl

theorem busWrite_ibuf_idle {s : State} (hp : s.params.Legal) (hb : s.busy = false) {i : Nat}
    (hi : i < s.params.ibufSize) (data : Word) :
    busWrite (0x100000 + i) 1 data s = .next ((writtenByte data s).2.setIbuf i (writtenByte data s).1) := by
  have hsize := ibufSize_le_of_legal hp
  rw [busWrite_of_legalForm (legalForm_byte (by omega) (by omega)), target_ibufBase_add hi, writeTarget, hb]
  rfl

/-- An IBUF byte just written is read back, and every other byte is what it was. -/
theorem setIbuf_get (s : State) (i : Nat) (b : Byte) :
    (s.setIbuf i b).ibuf.get i = some b ∧ ∀ j, j ≠ i → (s.setIbuf i b).ibuf.get j = s.ibuf.get j := by
  simp only [State.setIbuf_ibuf, Memory.get_eq]
  exact ⟨mapGet_mapSet_self i b s.ibuf, fun j hj => mapGet_mapSet_of_ne hj b s.ibuf⟩

/-- Settles O26: the write is `State.setIbuf` of the byte itself, or of a draw where the data is wider than a byte. -/
theorem inputBufferHoldsWhatWasWritten : Obligations.InputBufferHoldsWhatWasWritten := by
  intro s i hp hb hi
  constructor
  · intro b
    obtain ⟨hget, hother⟩ := setIbuf_get s i b
    refine ⟨s.setIbuf i b, ?_, hget, hother, rfl, ?_⟩
    · rw [busWrite_ibuf_idle hp hb hi, writtenByte_byte]
    · rw [busRead_ibuf (s := s.setIbuf i b) hp hi, hget]
      rfl
  · intro data hwide
    obtain ⟨hget, hother⟩ := setIbuf_get s.draw i (Config.freeByte s.draws)
    refine ⟨s.draw.setIbuf i (Config.freeByte s.draws), ?_, hget, hother, rfl⟩
    rcases writtenByte_cases data s with ⟨hnarrow, -⟩ | ⟨-, hdraw⟩
    · omega
    · rw [busWrite_ibuf_idle hp hb hi, hdraw]

/-- Settles O27: each byte access, by whether the byte has a value. -/
theorem unspecifiedBytesAreFreeDraws : Obligations.UnspecifiedBytesAreFreeDraws := by
  intro s hp
  refine ⟨fun j data hj => busWrite_obuf hp hj data, fun j b hj hb hget => ?_, fun j hj hb hget => ?_,
    fun i hi hget => ?_⟩
  · rw [busRead_obuf hp hj, hb, hget]
    rfl
  · rw [busRead_obuf hp hj, hb, hget]
    rfl
  · rw [busRead_ibuf hp hi, hget]
    rfl

/-- Settles O28: only the reads of OUT_LEN and OBUF look at BUSY. -/
theorem readsWhileBusyAreFreeDraws : Obligations.ReadsWhileBusyAreFreeDraws := by
  intro s hp hb
  refine ⟨?_, fun j hj => ?_, busRead_cmd s, busRead_status s, busRead_inLen s, fun i hi => ⟨fun b hget => ?_,
    fun hget => ?_⟩, fun off width hform hoff => ?_⟩
  · rw [busRead_outLen, hb]
    rfl
  · rw [busRead_obuf hp hj, hb]
    rfl
  · rw [busRead_ibuf hp hi, hget]
    rfl
  · rw [busRead_ibuf hp hi, hget]
    rfl
  · rw [busRead_of_legalForm hform, target_reserved hp hoff]
    rfl

end Sys2Proof.Machine
end

section
/-! PROOFS. The completion step (45_command_interface.md R106-R108) and the input it reads (10_state.md R25), and the
deserializer's stack of open nodes (41_tree_codec.md R83, R84). -/

namespace Sys2Proof.Machine

/-! ### The completion step -/

/-- A command whose input is written completes with its codec's result. -/
theorem completionStep_of_inputIs {s : State} {l : Latch} {w : Work} {input : Bytes} (hc : s.core = .busy l w)
    (hin : s.inputIs l input) : completionStep s = .next (s.complete (codec l.op input)) := by
  obtain ⟨hlen, hread⟩ := hin
  simp only [completionStep, hc, hread]
  exact if_neg (by omega)

theorem complete_ok {s : State} {out : Bytes} (hout : out.length ≤ s.params.obufSize) :
    s.complete (.ok out) = s.succeed out := by
  have hcap : checkCapacity s.params (.ok out) = .ok out := if_neg (by omega)
  simp only [State.complete, hcap]

theorem complete_error (s : State) (e : ErrorKind) : s.complete (.error e) = s.fail e := rfl

/-- OBUF after a success holds the output, each byte at its own index, and no other byte (10_state.md R26). -/
theorem succeed_obuf_get (s : State) (out : Bytes) (j : Nat) : (s.succeed out).obuf.get j = out[j]? := by
  rw [State.succeed_obuf, Memory.get_eq, Memory.get_ofBytes, if_pos (Nat.zero_le j), Nat.sub_zero]

theorem succeed_status (s : State) (out : Bytes) : (s.succeed out).status = 0x00000002#32 := by
  simp only [State.status, State.succeed_busy, State.succeed_done, State.succeed_err]
  decide

/-- Settles O14: the codes are the literals of `ErrorKind.code`; a fitting result is `State.succeed`, an error
`State.fail`. -/
theorem completionReportsTheResult : Obligations.CompletionReportsTheResult := by
  refine ⟨⟨rfl, rfl, rfl, rfl, rfl, rfl, rfl⟩, fun s l w input hp hc hin => ⟨fun out hcodec hout => ?_,
    fun e hcodec => ?_⟩⟩
  · refine ⟨s.succeed out, ?_, succeed_status s out, outLen_toNat hp hout, succeed_obuf_get s out, rfl, rfl, rfl,
      fun _ => rfl, rfl, rfl, rfl⟩
    rw [completionStep_of_inputIs hc hin, hcodec, complete_ok hout]
  · rw [completionStep_of_inputIs hc hin, hcodec, complete_error]
    rfl

/-! ### Unwritten input -/

/-- A core read stops at the first index without a value. -/
theorem Memory.read_eq_error (m : Memory) {i k count : Nat} (hle : k ≤ i) (hlt : i < k + count)
    (hbefore : ∀ j, k ≤ j → j < i → m.get j ≠ none) (hi : m.get i = none) : m.read k count = .error i := by
  induction count generalizing k with
  | zero => omega
  | succ count ih =>
    rcases Nat.lt_or_eq_of_le hle with hki | rfl
    · obtain ⟨b, hb⟩ := Option.ne_none_iff_exists'.mp (hbefore k le_rfl hki)
      have hrest : m.read (k + 1) count = .error i :=
        ih hki (by omega) fun j hj hji => hbefore j (by omega) hji
      simp only [Memory.read, hb, hrest]
    · simp only [Memory.read, hi]

/-- The running command cannot read its input: IBUF⟨i⟩ is the first byte of it that is not written. -/
def State.inputStopsAt (s : State) (l : Latch) (i : Nat) : Prop :=
  l.n.toNat ≤ s.params.ibufSize ∧ s.ibuf.read 0 l.n.toNat = .error i

theorem completionStep_of_inputStopsAt {s : State} {l : Latch} {w : Work} {i : Nat} (hc : s.core = .busy l w)
    (hin : s.inputStopsAt l i) : completionStep s = .fault (.unwrittenInput i) := by
  obtain ⟨hlen, hread⟩ := hin
  simp only [completionStep, hc, hread]
  exact if_neg (by omega)

theorem innerStep_accepted {s : State} {l : Latch} (hc : s.core = .busy l .accepted) : innerStep s = loadInput l s := by
  simp only [innerStep, hc]

theorem loadInput_of_inputStopsAt {s : State} {l : Latch} {i : Nat} (hin : s.inputStopsAt l i) :
    loadInput l s = .fault (.unwrittenInput i) := by
  obtain ⟨hlen, hread⟩ := hin
  simp only [loadInput, hread]
  exact if_neg (by omega)

/-- The one fault of the completion step: unwritten input. -/
theorem completionStep_fault {s : State} {r : Fault} (h : completionStep s = .fault r) :
    ∃ l w i, s.core = .busy l w ∧ s.inputStopsAt l i ∧ r = .unwrittenInput i := by
  unfold completionStep at h
  split at h
  · cases h
  · rename_i l w hc
    split at h
    · cases h
    · rename_i hlen
      split at h
      · rename_i i hread
        cases h
        exact ⟨l, w, i, hc, ⟨by omega, hread⟩, rfl⟩
      · cases h

/-- The one fault of the load, likewise. -/
theorem loadInput_fault {s : State} {l : Latch} {r : Fault} (h : loadInput l s = .fault r) :
    ∃ i, s.inputStopsAt l i ∧ r = .unwrittenInput i := by
  unfold loadInput at h
  split at h
  · cases h
  · rename_i hlen
    split at h
    · rename_i i hread
      cases h
      exact ⟨i, ⟨by omega, hread⟩, rfl⟩
    · split at h <;> cases h

/-- Settles O18: both steps read the whole input, and the read stops at its first unwritten byte. -/
theorem unwrittenInputFaults : Obligations.UnwrittenInputFaults := by
  intro s l w i hc hlen hi hbefore hnone
  have hread : s.ibuf.read 0 l.n.toNat = .error i :=
    Memory.read_eq_error s.ibuf (Nat.zero_le i) (by omega) (fun j _ hj => hbefore j hj) hnone
  refine ⟨completionStep_of_inputStopsAt hc ⟨hlen, hread⟩, fun hw => ?_⟩
  rw [innerStep_accepted (hw ▸ hc), loadInput_of_inputStopsAt ⟨hlen, hread⟩]

/-! ### The open nodes of a tree -/

/-- A subtree closes every open node whose left subtree stands, and becomes the left subtree of the next one. -/
theorem plug_lefts_none (lefts : List PrefixTree) (t : PrefixTree) (below : List (Option PrefixTree)) :
    plug t (lefts.map some ++ none :: below)
      = .inr (some (lefts.foldl (fun t left => .internal left t) t) :: below) := by
  induction lefts generalizing t with
  | nil => rfl
  | cons left lefts ih => exact ih (.internal left t)

theorem plug_lefts (lefts : List PrefixTree) (t : PrefixTree) :
    plug t (lefts.map some) = .inl (lefts.foldl (fun t left => .internal left t) t) := by
  induction lefts generalizing t with
  | nil => rfl
  | cons left lefts ih => exact ih (.internal left t)

theorem exec_treeInternal {s : State} {l : Latch} {tb d : Bits} {c : Nat} {stack : List (Option PrefixTree)}
    (hc : s.core = .busy l (.tree tb c stack d)) :
    exec .treeInternal s = .next (s.setWork l (.tree tb (c + 1) (none :: stack) d)) :=
  onWork_next hc rfl

theorem exec_treeLeaf {s : State} {l : Latch} {tb d : Bits} {c : Nat} {stack : List (Option PrefixTree)}
    (hc : s.core = .busy l (.tree tb c stack d)) (sym : Byte) :
    exec (.treeLeaf sym) s = .next (s.setWork l (treeWork tb (c + 9) d (plug (.leaf sym) stack))) :=
  onWork_next hc rfl

/-- Settles O12: TREE_LEAF plugs its leaf into the stack, whose shape says which nodes it closes. -/
theorem treeNodesExtendTheOpenTree : Obligations.TreeNodesExtendTheOpenTree := by
  intro s l tb c stack d hc
  refine ⟨exec_treeInternal hc, fun sym lefts closed hclosed => ⟨fun below hstack => ?_, fun hstack hend => ?_,
    fun hstack hend => ?_⟩⟩
  · rw [exec_treeLeaf hc, hstack, plug_lefts_none, hclosed]
    rfl
  · rw [exec_treeLeaf hc, hstack, plug_lefts, treeWork, if_pos hend, hclosed]
    rfl
  · rw [exec_treeLeaf hc, hstack, plug_lefts, treeWork, if_neg hend]
    rfl

end Sys2Proof.Machine
end

section
/-! PROOFS. The instruction a step fetches (10_state.md R13, R17; 30_encoding.md R64), and what a step does to the core and
to a finished command's report (10_state.md R15, R20; 60_exceptions.md R122). -/

namespace Sys2Proof.Machine

/-! ### The step of each fetch path -/

theorem hostStep_of_stmt {s : State} {st : Stmt} (h : s.host.script[s.host.pos]? = some st) :
    hostStep s = runStmt st s := by
  simp only [hostStep, h]

theorem runStmt_wr32 {s : State} {off : Nat} {v : Val} {w : Word} (h : v.eval s.host.vars = some w) :
    runStmt (.wr32 off v) s = busWrite off 4 w s.advanceHost := by
  simp only [runStmt, Stmt.request, h, Request.write]

theorem busWrite_cmd (w : Word) (s : State) : busWrite 0x000000 4 w s = exec (decodeCmd w) s := rfl

theorem innerStep_frame {s : State} {l : Latch} {input : Bytes} (hc : s.core = .busy l (.frame input)) :
    innerStep s = exec (decodeFrame input) s := by
  simp only [innerStep, hc]

theorem innerStep_tree {s : State} {l : Latch} {tb d rest : Bits} {cursor : Nat} {stack : List (Option PrefixTree)}
    {i : Instr} (hc : s.core = .busy l (.tree tb cursor stack d)) (hi : decodeNode (tb.drop cursor) = .ok (i, rest)) :
    innerStep s = exec i s := by
  simp only [innerStep, hc, hi]

theorem innerStep_walk {s : State} {l : Latch} {tree cur : PrefixTree} {depth pos : Nat} {d rest : Bits} {out : Bytes}
    {i : Instr} (hc : s.core = .busy l (.walk tree cur depth d pos out))
    (hi : decodeData (d.drop pos) = .ok (i, rest)) : innerStep s = exec i s := by
  simp only [innerStep, hc, hi]

/-- Settles O4: a CMD write reaches the command decoder, and an internal step decodes the unit at its cursor. -/
theorem stepRunsTheDecodedInstruction : Obligations.StepRunsTheDecodedInstruction := by
  intro s
  refine ⟨fun v w hm hst hv => ?_, fun l input hm hc => ?_, fun l tb cursor stack d rest i hm hc hi => ?_,
    fun l tree cur depth d pos out rest i hm hc hi => ?_⟩ <;> rw [step_of_nextMove hm]
  · calc hostStep s.takeMove = runStmt (.wr32 0x000000 v) s.takeMove := hostStep_of_stmt hst
      _ = busWrite 0x000000 4 w s.takeMove.advanceHost := runStmt_wr32 hv
      _ = exec (decodeCmd w) s.takeMove.advanceHost := busWrite_cmd w _
  · exact innerStep_frame hc
  · exact innerStep_tree hc hi
  · exact innerStep_walk hc hi

/-! ### What a host move does to the core and the report -/

/-- Two states with the same core and the same report of a finished command: STATUS, OUT_LEN and OBUF. -/
structure State.ReportFrame (s t : State) : Prop where
  core : t.core = s.core
  done : t.done = s.done
  err : t.err = s.err
  outLen : t.outLen = s.outLen
  obuf : t.obuf = s.obuf

theorem State.ReportFrame.busy {s t : State} (h : s.ReportFrame t) : t.busy = s.busy := by
  rw [State.busy, State.busy, h.core]

theorem legalForm_of_busWrite_next {off width : Nat} {data : Word} {s u : State}
    (h : busWrite off width data s = .next u) : legalForm off width = true := by
  by_contra hform
  simp [busWrite, hform] at h

/-- Registers take the four-byte form only (20_memory.md R36). -/
theorem width_of_legalForm_register {off width : Nat} (h : legalForm off width = true) (hoff : off < 0x100000) :
    width = 4 := by
  rcases legalForm_iff.mp h with ⟨hwidth, -⟩ | ⟨-, hle, -⟩
  · exact hwidth
  · omega

theorem busWrite_report {off width : Nat} {data : Word} {s u : State} (h : busWrite off width data s = .next u) :
    (off = 0x000000 ∧ width = 4 ∧ exec (decodeCmd data) s = .next u) ∨ s.ReportFrame u := by
  rcases busWrite_cases h with ⟨htarget, he⟩ | ⟨-, -, rfl⟩ | ⟨i, -, -, -, rfl⟩ | rfl
  · obtain rfl := target_cmd htarget
    exact .inl ⟨rfl, width_of_legalForm_register (legalForm_of_busWrite_next h) (by decide), he⟩
  · exact .inr ⟨rfl, rfl, rfl, rfl, rfl⟩
  · rcases writtenByte_cases data s with ⟨-, heq⟩ | ⟨-, heq⟩ <;> rw [heq] <;>
      exact .inr ⟨rfl, rfl, rfl, rfl, rfl⟩
  · exact .inr ⟨rfl, rfl, rfl, rfl, rfl⟩

/-- The host's statement writes the word `w` to CMD. -/
def State.WritesCmd (s : State) (w : Word) : Prop :=
  ∃ v : Val, s.host.script[s.host.pos]? = some (.wr32 0x000000 v) ∧ v.eval s.host.vars = some w

/-- A host move that is no CMD write leaves the core and the report. -/
theorem hostStep_report {s u : State} (h : hostStep s = .next u) :
    (∃ w, s.WritesCmd w ∧ exec (decodeCmd w) s.advanceHost = .next u) ∨ s.ReportFrame u := by
  rcases hostStep_cases h with ⟨st, off, width, data, hst, hreq, hw⟩ | ⟨d, a, rfl, -⟩
  · rcases busWrite_report hw with ⟨rfl, rfl, he⟩ | hframe
    · rcases request_write hreq with ⟨v, rfl, -, hv⟩ | ⟨-, -, hwidth, -⟩
      · exact .inl ⟨data, ⟨v, hst, hv⟩, he⟩
      · cases hwidth
    · exact .inr ⟨hframe.core, hframe.done, hframe.err, hframe.outLen, hframe.obuf⟩
  · exact .inr ⟨rfl, rfl, rfl, rfl, rfl⟩

/-- From an idle core every step but reset is a CMD write, or leaves the core and the report. -/
theorem step_idle_report {s t : State} (hb : s.busy = false) (hm : s.nextMove ≠ .reset) (h : step s = .next t) :
    (s.nextMove = .host ∧ ∃ w, s.WritesCmd w ∧ exec (decodeCmd w) s.takeMove.advanceHost = .next t)
      ∨ s.ReportFrame t := by
  have hidle : ∀ l w, s.core ≠ .busy l w := fun l w hc => by simp [State.busy_of_busy s l w hc] at hb
  cases hmove : s.nextMove with
  | host =>
    rw [step_of_nextMove hmove] at h
    rcases hostStep_report h with hcmd | hframe
    · exact .inl ⟨rfl, hcmd⟩
    · exact .inr ⟨hframe.core, hframe.done, hframe.err, hframe.outLen, hframe.obuf⟩
  | complete =>
    rw [step_of_nextMove hmove] at h
    rcases completionStep_cases h with ⟨-, rfl⟩ | ⟨l, w, hc, -⟩ | ⟨l, w, -, hc, -⟩
    · exact .inr ⟨rfl, rfl, rfl, rfl, rfl⟩
    · exact absurd hc (hidle l w)
    · exact absurd hc (hidle l w)
  | inner =>
    rw [step_of_nextMove hmove] at h
    rcases innerStep_cases h with ⟨-, rfl⟩ | ⟨l, w, -, hc, -⟩ | ⟨l, r, hc, -⟩
    · exact .inr ⟨rfl, rfl, rfl, rfl, rfl⟩
    · exact absurd hc (hidle l w)
    · exact absurd hc (hidle l (.finished r))
  | reset => exact absurd hmove hm

/-- No instruction writes OBUF: the completion does. -/
theorem exec_keeps_obuf {i : Instr} {s u : State} (h : exec i s = .next u) : u.obuf = s.obuf := by
  rcases exec_cases h with ⟨-, -, rfl⟩ | ⟨-, ⟨-, rfl⟩ | ⟨-, rfl⟩ | ⟨-, rfl⟩⟩ | ⟨-, l, -, w', -, rfl⟩ <;> rfl

theorem exec_decodeCmd_compress {s : State} (hb : s.busy = false) :
    exec (decodeCmd 0x00000001#32) s = .next (s.accept .compress) := by
  rw [exec_decodeCmd, hb]
  rfl

theorem exec_decodeCmd_decompress {s : State} (hb : s.busy = false) :
    exec (decodeCmd 0x00000002#32) s = .next (s.accept .decompress) := by
  rw [exec_decodeCmd, hb]
  rfl

theorem exec_decodeCmd_illegal {s : State} (hb : s.busy = false) {w : Word} (h1 : w ≠ 0x00000001#32)
    (h2 : w ≠ 0x00000002#32) : exec (decodeCmd w) s = .next s.rejectCommand := by
  rw [exec_decodeCmd, hb, if_neg h1, if_neg h2]
  rfl

theorem exec_decodeCmd_busy {s : State} (hb : s.busy = true) (w : Word) : exec (decodeCmd w) s = .next s := by
  rw [exec_decodeCmd, if_pos hb]

/-- Settles O21: the report changes only where a CMD write is decoded, and then as the decoded word says. -/
theorem reportStandsUntilTheNextCommand : Obligations.ReportStandsUntilTheNextCommand := by
  intro s t hb hdone h hm
  refine ⟨fun j => ?_, fun v w hmove hst hv => ?_, fun hno => ?_⟩
  · rcases step_idle_report hb hm h with ⟨-, w, -, he⟩ | hframe
    · rw [exec_keeps_obuf he]
      rfl
    · rw [hframe.obuf]
  · rw [(stepRunsTheDecodedInstruction s).1 v w hmove hst hv] at h
    have hb' : s.takeMove.advanceHost.busy = false := hb
    constructor
    · rintro (rfl | rfl)
      · rw [exec_decodeCmd_compress hb'] at h
        cases h
        exact ⟨rfl, rfl, rfl, rfl⟩
      · rw [exec_decodeCmd_decompress hb'] at h
        cases h
        exact ⟨rfl, rfl, rfl, rfl⟩
    · intro h1 h2
      rw [exec_decodeCmd_illegal hb' h1 h2] at h
      cases h
      exact ⟨rfl, rfl, rfl, rfl⟩
  · rcases step_idle_report hb hm h with ⟨hmove, w, ⟨v, hst, -⟩, -⟩ | hframe
    · exact absurd ⟨v, hmove, hst⟩ hno
    · exact ⟨hframe.busy.trans hb, hframe.done.trans hdone, hframe.err, hframe.outLen⟩

/-! ### The core state machine -/

theorem complete_done (s : State) (r : Result) : (s.complete r).done = true := by
  rcases complete_cases s r with ⟨out, -, -, h⟩ | ⟨-, -, -, h⟩ | ⟨e, -, h⟩ <;> rw [h] <;> rfl

theorem complete_core (s : State) (r : Result) : (s.complete r).core = .idle := by
  rcases complete_cases s r with ⟨out, -, -, h⟩ | ⟨-, -, -, h⟩ | ⟨e, -, h⟩ <;> rw [h] <;> rfl

/-- An idle core becomes busy by taking the word of a command. -/
theorem step_leaves_idle {s t : State} (hb : s.busy = false) (ht : t.busy = true) (h : step s = .next t) :
    s.nextMove = .host ∧ ∃ w, s.WritesCmd w
      ∧ ((w = 0x00000001#32 ∧ t.core = .busy { op := .compress, n := s.inLen } .accepted)
        ∨ (w = 0x00000002#32 ∧ t.core = .busy { op := .decompress, n := s.inLen } .accepted)) := by
  have hm : s.nextMove ≠ .reset := fun hm => by
    rw [step_of_nextMove hm] at h
    cases h
    cases ht
  rcases step_idle_report hb hm h with ⟨hmove, w, hw, he⟩ | hframe
  · refine ⟨hmove, w, hw, ?_⟩
    have hb' : s.takeMove.advanceHost.busy = false := hb
    by_cases h1 : w = 0x00000001#32
    · rw [h1, exec_decodeCmd_compress hb'] at he
      cases he
      exact .inl ⟨h1, rfl⟩
    · by_cases h2 : w = 0x00000002#32
      · rw [h2, exec_decodeCmd_decompress hb'] at he
        cases he
        exact .inr ⟨h2, rfl⟩
      · rw [exec_decodeCmd_illegal hb' h1 h2] at he
        cases he
        cases ht
  · rw [hframe.busy, hb] at ht
    cases ht

/-- A busy core becomes idle by a completion, of either kind, or by reset. -/
theorem step_leaves_busy {s t : State} (hb : s.busy = true) (ht : t.busy = false) (h : step s = .next t) :
    s.nextMove = .reset ∨ ((s.nextMove = .complete ∨ s.nextMove = .inner) ∧ t.done = true) := by
  have hsame : t.busy ≠ s.busy := by simp [hb, ht]
  cases hmove : s.nextMove with
  | host =>
    rw [step_of_nextMove hmove] at h
    rcases hostStep_report h with ⟨w, -, he⟩ | hframe
    · rw [exec_decodeCmd_busy (s := s.takeMove.advanceHost) hb] at he
      cases he
      exact absurd rfl hsame
    · exact absurd hframe.busy hsame
  | complete =>
    rw [step_of_nextMove hmove] at h
    rcases completionStep_cases h with ⟨-, rfl⟩ | ⟨-, -, -, -, rfl⟩ | ⟨-, -, -, -, -, -, rfl⟩
    · exact absurd rfl hsame
    · exact .inr ⟨.inl rfl, complete_done _ _⟩
    · exact .inr ⟨.inl rfl, complete_done _ _⟩
  | inner =>
    rw [step_of_nextMove hmove] at h
    rcases innerStep_cases h with ⟨-, rfl⟩ | ⟨l, -, w', -, rfl⟩ | ⟨-, r, -, rfl⟩
    · exact absurd rfl hsame
    · cases ht
    · exact .inr ⟨.inr rfl, complete_done _ _⟩
  | reset => exact .inl rfl

/-- Settles O35: STATUS.BUSY is the core state, which a step leaves only in these ways. -/
theorem busyChangesOnlyByCommandCompletionOrReset : Obligations.BusyChangesOnlyByCommandCompletionOrReset := by
  refine ⟨rfl, fun s => (statusWord_fields s.busy s.done s.err).1, fun s t h => ⟨fun hs ht => ?_,
    fun hs ht => step_leaves_busy hs ht h⟩⟩
  obtain ⟨hmove, w, ⟨v, hst, hv⟩, hcore⟩ := step_leaves_idle hs ht h
  exact ⟨hmove, v, w, hst, hv, hcore⟩

end Sys2Proof.Machine
end

section
/-! PROOFS. The core's internal steps refine its atomic completion (45_command_interface.md R108): which transient state
each internal step gives, and the stages through which COMPRESS (43_encoder.md R95) and DECOMPRESS (44_decoder.md R100)
reach the result of their codec function. -/

namespace Sys2Proof.Machine

/-! ### One internal step on the transient state -/

/-- The internal step of a command at `w` leaves it at `w'`, and changes nothing else. -/
def WorkStep (w w' : Work) : Prop :=
  ∀ (s : State) (l : Latch), s.core = .busy l w → innerStep s = .next (s.setWork l w')

/-- Some internal steps take a command from `w` to `w'`. -/
abbrev WorkSteps : Work → Work → Prop := Relation.ReflTransGen WorkStep

/-- The transient states of COMPRESS once its input is read. -/
def Work.ofCompress : Work → Bool
  | .loaded _ | .counted _ _ | .building _ _ _ | .treed _ _ | .coded _ _ _ | .serialized _ _ _ _ | .encoded _ _ _
  | .assembled _ _ | .packed _ _ _ => true
  | .accepted | .frame _ | .tree _ _ _ _ | .walk _ _ _ _ _ _ | .finished _ => false

theorem workStep_compressStep {w : Work} (hw : w.ofCompress = true) : WorkStep w (compressStep w) := by
  intro s l hc
  cases w with
  | accepted | frame | tree | walk | finished => cases hw
  | loaded | counted | building | treed | coded | serialized | encoded | assembled | packed => simp only [innerStep, hc]

theorem workStep_frameEmpty : WorkStep (.frame []) (.finished (.ok [])) := fun _ _ hc =>
  (innerStep_frame hc).trans (onWork_next hc rfl)

theorem decodeFrame_of_getLast {frame : Bytes} {tr : Byte} (h : frame.getLast? = some tr) :
    decodeFrame frame = decodeTrailer tr := by
  simp only [decodeFrame, h]

theorem workStep_frameStored {frame : Bytes} {tr : Byte} (h : frame.getLast? = some tr)
    (hflag : (parseTrailer tr).1 = false) : WorkStep (.frame frame) (.finished (.ok frame.dropLast)) := by
  intro s l hc
  have hi : decodeFrame frame = .frameStored (tr.extractLsb' 1 7) := by
    simp [decodeFrame_of_getLast h, decodeTrailer, hflag]
  rw [innerStep_frame hc, hi]
  cases frame with
  | nil => cases h
  | cons b rest => exact onWork_next hc rfl

/-- The deserializer's start on a split frame, or the error of the split. -/
def splitWork : Except ErrorKind (Bits × Bits) → Work
  | .error e => .finished (.error e)
  | .ok (tb, d) => .tree tb 0 [] d

theorem workStep_frameCompressed {frame : Bytes} {tr : Byte} (h : frame.getLast? = some tr)
    (hflag : (parseTrailer tr).1 = true) : WorkStep (.frame frame) (splitWork (splitFrame frame)) := by
  intro s l hc
  have hi : decodeFrame frame = .frameCompressed (tr.extractLsb' 4 4) (tr.extractLsb' 1 3) := by
    simp [decodeFrame_of_getLast h, decodeTrailer, hflag]
  have hsplit : splitFrame frame = splitBody (tr.extractLsb' 4 4).toNat frame.dropLast := by
    simp only [splitFrame, h, parseTrailer]
  rw [innerStep_frame hc, hi, hsplit]
  cases frame with
  | nil => cases h
  | cons b rest =>
    refine onWork_next hc ?_
    dsimp only
    cases splitBody (tr.extractLsb' 4 4).toNat (b :: rest).dropLast <;> rfl

section Tree

variable {tb d rest : Bits} {cursor : Nat} {stack : List (Option PrefixTree)}

theorem workStep_treeInternal (h : tb.drop cursor = false :: rest) :
    WorkStep (.tree tb cursor stack d) (.tree tb (cursor + 1) (none :: stack) d) := fun _ _ hc =>
  (innerStep_tree hc (by rw [h]; rfl)).trans (exec_treeInternal hc)

theorem workStep_treeLeaf (h : tb.drop cursor = true :: rest) (hlen : 8 ≤ rest.length) :
    WorkStep (.tree tb cursor stack d)
      (treeWork tb (cursor + 9) d (plug (.leaf (byteBE (rest.take 8))) stack)) := fun _ _ hc =>
  (innerStep_tree hc (by rw [h]; exact if_neg (by omega))).trans (exec_treeLeaf hc _)

theorem workStep_treeError {e : DecodeError} (h : decodeNode (tb.drop cursor) = .error e) :
    WorkStep (.tree tb cursor stack d) (.finished (.error .malformedTree)) := fun _ _ hc => by
  simp only [innerStep, hc, h]

end Tree

section Walk

variable {tree cur : PrefixTree} {depth pos : Nat} {d rest : Bits} {out : Bytes}

theorem workStep_walkBit {b : Bool} {w' : Work} (h : d.drop pos = b :: rest)
    (hw : walkWork b (.walk tree cur depth d pos out) = some w') : WorkStep (.walk tree cur depth d pos out) w' := by
  intro s l hc
  cases b with
  | false => exact (innerStep_walk (i := .dataLeft) hc (by rw [h]; rfl)).trans (onWork_next hc hw)
  | true => exact (innerStep_walk (i := .dataRight) hc (by rw [h]; rfl)).trans (onWork_next hc hw)

theorem workStep_walkEnd (h : d.drop pos = []) :
    WorkStep (.walk tree cur depth d pos out) (.finished (walkEnd depth out)) := fun _ _ hc => by
  simp only [innerStep, hc, h, decodeData]

end Walk

/-! ### DECOMPRESS -/

/-- The walk on the machine gives the result of Walk (44_decoder.md R99). -/
theorem walk_reaches (tree cur : PrefixTree) (depth : Nat) (d rest : Bits) (pos : Nat) (out : Bytes)
    (h : d.drop pos = rest) :
    WorkSteps (.walk tree cur depth d pos out) (.finished (walkFrom tree cur depth rest out)) := by
  induction rest generalizing cur depth pos out with
  | nil => exact .single (workStep_walkEnd h)
  | cons b rest ih =>
    have hrest : d.drop (pos + 1) = rest := by rw [← List.drop_drop, h]; rfl
    cases hbit : walkBit tree cur depth b with
    | error e =>
      have hstep : WorkStep (.walk tree cur depth d pos out) (.finished (.error e)) :=
        workStep_walkBit h (by simp only [walkWork, hbit])
      simpa only [walkFrom, hbit] using .single hstep
    | ok next =>
      obtain ⟨cur', depth', emitted⟩ := next
      have hstep : WorkStep (.walk tree cur depth d pos out) (.walk tree cur' depth' d (pos + 1) (out ++ emitted)) :=
        workStep_walkBit h (by simp only [walkWork, hbit])
      simpa only [walkFrom, hbit] using (ih cur' depth' (pos + 1) (out ++ emitted) hrest).head hstep

/-- The recursion of the parse: two subtrees, one after the other. -/
theorem parseNode_internal_ok {fuel : Nat} {bits rest : Bits} {t : PrefixTree}
    (h : parseNode (fuel + 1) (false :: bits) = .ok (t, rest)) :
    ∃ l r mid, parseNode fuel bits = .ok (l, mid) ∧ parseNode fuel mid = .ok (r, rest) ∧ t = .internal l r := by
  simp only [parseNode, bind, Except.bind] at h
  split at h
  · cases h
  · rename_i left hleft
    split at h
    · cases h
    · rename_i right hright
      cases h
      exact ⟨left.1, right.1, left.2, hleft, hright, rfl⟩

theorem parseNode_internal_error {fuel : Nat} {bits : Bits} {e : ErrorKind}
    (h : parseNode (fuel + 1) (false :: bits) = .error e) :
    parseNode fuel bits = .error e
      ∨ ∃ l mid, parseNode fuel bits = .ok (l, mid) ∧ parseNode fuel mid = .error e := by
  simp only [parseNode, bind, Except.bind] at h
  split at h
  · rename_i hleft
    cases h
    exact .inl hleft
  · rename_i left hleft
    split at h
    · rename_i hright
      cases h
      exact .inr ⟨left.1, left.2, hleft, hright⟩
    · cases h

/-- Where the parse succeeds the machine takes in the same subtree: from the bits before the cursor to the bits before the
rest, with any nodes open. -/
theorem parseNode_ok_reaches {fuel : Nat} {tb before bits rest d : Bits} {t : PrefixTree}
    (h : parseNode fuel bits = .ok (t, rest)) (htb : tb = before ++ bits) (stack : List (Option PrefixTree)) :
    ∃ before', before.length ≤ before'.length ∧ tb = before' ++ rest
      ∧ WorkSteps (.tree tb before.length stack d) (treeWork tb before'.length d (plug t stack)) := by
  induction fuel generalizing bits rest t before stack with
  | zero => cases h
  | succ fuel ih =>
    have hdrop : tb.drop before.length = bits := by rw [htb, List.drop_left]
    match bits with
    | [] => cases h
    | true :: bits =>
      simp only [parseNode] at h
      split at h
      · cases h
      · rename_i hlen
        cases h
        have hend : (before ++ true :: bits.take 8).length = before.length + 9 := by
          simp only [List.length_append, List.length_cons, List.length_take]
          omega
        refine ⟨before ++ true :: bits.take 8, by omega, by simp [htb], ?_⟩
        rw [hend]
        exact .single (workStep_treeLeaf hdrop (by omega))
    | false :: bits =>
      obtain ⟨l, r, mid, hl, hr, rfl⟩ := parseNode_internal_ok h
      obtain ⟨before1, hle1, htb1, hleft⟩ := ih (before := before ++ [false]) hl (by simp [htb]) (none :: stack)
      obtain ⟨before2, hle2, htb2, hright⟩ := ih hr htb1 (some l :: stack)
      rw [List.length_append, List.length_singleton] at hle1 hleft
      exact ⟨before2, by omega, htb2, .head (workStep_treeInternal hdrop) (hleft.trans hright)⟩

/-- Where the parse fails the machine ends with MalformedTree: fuel for every bit is never used up. -/
theorem parseNode_error_reaches {fuel : Nat} {tb before bits d : Bits} {e : ErrorKind}
    (h : parseNode fuel bits = .error e) (hfuel : bits.length < fuel) (htb : tb = before ++ bits)
    (stack : List (Option PrefixTree)) :
    e = .malformedTree ∧ WorkSteps (.tree tb before.length stack d) (.finished (.error .malformedTree)) := by
  induction fuel generalizing bits before stack with
  | zero => omega
  | succ fuel ih =>
    have hdrop : tb.drop before.length = bits := by rw [htb, List.drop_left]
    match bits with
    | [] =>
      cases h
      exact ⟨rfl, .single (workStep_treeError (e := .noMarker) (by rw [hdrop]; rfl))⟩
    | true :: bits =>
      simp only [parseNode] at h
      split at h
      · rename_i hlen
        cases h
        exact ⟨rfl, .single (workStep_treeError (e := .shortLeaf) (by rw [hdrop]; exact if_pos hlen))⟩
      · cases h
    | false :: bits =>
      rw [List.length_cons] at hfuel
      have hopen : WorkStep (.tree tb before.length stack d) (.tree tb (before ++ [false]).length (none :: stack) d) := by
        rw [List.length_append]
        exact workStep_treeInternal hdrop
      have htb0 : tb = before ++ [false] ++ bits := by simp [htb]
      rcases parseNode_internal_error h with hl | ⟨l, mid, hl, hr⟩
      · obtain ⟨he, hleft⟩ := ih hl (by omega) htb0 (none :: stack)
        exact ⟨he, .head hopen hleft⟩
      · obtain ⟨before1, hle, htb1, hleft⟩ := parseNode_ok_reaches (d := d) hl htb0 (none :: stack)
        have hmid : mid.length < fuel := by
          have hsame := congrArg List.length (htb0.symm.trans htb1)
          simp only [List.length_append] at hsame hle
          omega
        obtain ⟨he, hright⟩ := ih hr hmid htb1 (some l :: stack)
        exact ⟨he, .head hopen (hleft.trans hright)⟩

/-- Steps 2 to 5 of Decompress (44_decoder.md R100), from the split frame. -/
theorem tree_reaches (tb d : Bits) :
    WorkSteps (.tree tb 0 [] d) (.finished ((deserialize tb).bind fun tree => walk tree d)) := by
  cases h : parseNode (tb.length + 1) tb with
  | error e =>
    obtain ⟨rfl, hsteps⟩ := parseNode_error_reaches (d := d) h (by omega) (List.nil_append tb).symm []
    have hdes : deserialize tb = .error .malformedTree := by simp only [deserialize, h, bind, Except.bind]
    rw [hdes]
    exact hsteps
  | ok parsed =>
    obtain ⟨t, rest⟩ := parsed
    obtain ⟨before, -, htb, hsteps⟩ := parseNode_ok_reaches (d := d) h (List.nil_append tb).symm []
    have hlen : tb.length = before.length + rest.length := by rw [htb, List.length_append]
    have hdes : deserialize tb = if rest = [] then .ok t else .error .malformedTree := by
      simp only [deserialize, h, bind, Except.bind]
      rfl
    rw [hdes]
    by_cases hrest : rest = []
    · have hend : before.length = tb.length := by simp [hlen, hrest]
      rw [plug, treeWork, if_pos hend] at hsteps
      rw [if_pos hrest]
      exact hsteps.trans (walk_reaches t t 0 d d 0 [] rfl)
    · have hend : before.length ≠ tb.length := by
        have := List.length_pos_iff.mpr hrest
        omega
      rw [plug, treeWork, if_neg hend] at hsteps
      rw [if_neg hrest]
      exact hsteps

theorem frame_reaches (frame : Bytes) : WorkSteps (.frame frame) (.finished (decompress frame)) := by
  cases hlast : frame.getLast? with
  | none =>
    obtain rfl := List.getLast?_eq_none_iff.mp hlast
    exact .single workStep_frameEmpty
  | some tr =>
    by_cases hflag : (parseTrailer tr).1 = true
    · have hdec : decompress frame = decompressCompressed frame := by simp only [decompress, hlast, hflag, if_true]
      have hstep := workStep_frameCompressed hlast hflag
      rw [hdec, decompressCompressed]
      cases hsplit : splitFrame frame with
      | error e =>
        rw [hsplit] at hstep
        exact .single hstep
      | ok regions =>
        rw [hsplit] at hstep
        exact .head hstep (tree_reaches regions.1 regions.2)
    · rw [Bool.not_eq_true] at hflag
      have hdec : decompress frame = .ok frame.dropLast := by simp [decompress, hlast, hflag]
      rw [hdec]
      exact .single (workStep_frameStored hlast hflag)

/-! ### COMPRESS -/

theorem extractMin_length {queue rest : List Entry} {least : Entry} (h : extractMin queue = some (least, rest)) :
    queue.length = rest.length + 1 := by
  induction queue generalizing least rest with
  | nil => cases h
  | cons e es ih =>
    simp only [extractMin] at h
    split at h
    · rename_i hes
      cases h
      cases es with
      | nil => rfl
      | cons e' es' =>
        simp only [extractMin] at hes
        split at hes
        · cases hes
        · split at hes <;> cases hes
    · rename_i m es' hes
      split at h <;> cases h
      · exact congrArg (· + 1) (ih hes)
      · rfl

/-- A merge takes two entries and adds one. -/
theorem mergeOnce_length {queue queue' : List Entry} {next : Nat} (h : mergeOnce queue next = some queue') :
    queue.length = queue'.length + 1 := by
  unfold mergeOnce at h
  split at h
  · cases h
  · rename_i a q1 ha
    split at h
    · cases h
    · rename_i b q2 hb
      cases h
      rw [extractMin_length ha, extractMin_length hb, List.length_append, List.length_singleton]

/-- The transient state after BuildTree. -/
def builtWork (data : Bytes) : Option PrefixTree → Work
  | none => .finished (.error .logicError)
  | some tree => .treed data tree

theorem workStep_onlyTree {data : Bytes} {queue : List Entry} {next : Nat} (h : mergeOnce queue next = none) :
    WorkStep (.building data queue next) (builtWork data (onlyTree queue)) := by
  have hstep : compressStep (.building data queue next) = builtWork data (onlyTree queue) := by
    simp only [compressStep, h]
    cases onlyTree queue <;> rfl
  exact hstep ▸ workStep_compressStep rfl

theorem workStep_merge {data : Bytes} {queue queue' : List Entry} {next : Nat} (h : mergeOnce queue next = some queue') :
    WorkStep (.building data queue next) (.building data queue' (next + 1)) := by
  have hstep : compressStep (.building data queue next) = .building data queue' (next + 1) := by
    simp only [compressStep, h]
  exact hstep ▸ workStep_compressStep rfl

/-- The merges on the machine are those of BuildTree (40_prefix_tree.md R74). -/
theorem building_reaches (data : Bytes) (fuel : Nat) (queue : List Entry) (next : Nat) (hfuel : queue.length ≤ fuel) :
    WorkSteps (.building data queue next) (builtWork data (mergeAll fuel queue next)) := by
  induction fuel generalizing queue next with
  | zero =>
    obtain rfl := List.eq_nil_of_length_eq_zero (Nat.le_zero.mp hfuel)
    exact .single (workStep_onlyTree rfl)
  | succ fuel ih =>
    cases hmerge : mergeOnce queue next with
    | none =>
      simp only [mergeAll, hmerge]
      exact .single (workStep_onlyTree hmerge)
    | some queue' =>
      have hlen := mergeOnce_length hmerge
      simp only [mergeAll, hmerge]
      exact .head (workStep_merge hmerge) (ih queue' (next + 1) (by omega))

/-- Steps 3 to 8 of Compress (43_encoder.md R95), each a step of the machine. -/
theorem treed_reaches (data : Bytes) (tree : PrefixTree) :
    WorkSteps (.treed data tree) (.finished (compressWith data tree)) := by
  refine .head (workStep_compressStep rfl) (.head (workStep_compressStep rfl) ?_)
  have hencode := workStep_compressStep (w := .serialized data tree (genCodes tree) (serialize tree)) rfl
  simp only [compressStep] at hencode ⊢
  simp only [compressWith, bind, Except.bind]
  cases hd : encodeData data tree (genCodes tree) with
  | error e =>
    rw [hd] at hencode
    exact .single hencode
  | ok d =>
    rw [hd] at hencode
    refine .head hencode ?_
    have hcheck := workStep_compressStep (w := .encoded data (serialize tree) d) rfl
    simp only [compressStep] at hcheck ⊢
    cases ht : checkTreeSize (serialize tree).length with
    | error e =>
      rw [ht] at hcheck
      exact .single hcheck
    | ok _ =>
      rw [ht] at hcheck
      exact .head hcheck (.head (workStep_compressStep rfl) (.single (workStep_compressStep rfl)))

theorem loaded_reaches {data : Bytes} (hne : data ≠ []) : WorkSteps (.loaded data) (.finished (compress data)) := by
  have hbuild : WorkSteps (.loaded data) (builtWork data (buildTree (freqCount data))) :=
    .head (workStep_compressStep rfl) (.head (workStep_compressStep rfl) (building_reaches data _ _ _ le_rfl))
  simp only [compress, if_neg hne]
  cases htree : buildTree (freqCount data) with
  | none =>
    rw [htree] at hbuild
    exact hbuild
  | some tree =>
    rw [htree] at hbuild
    exact hbuild.trans (treed_reaches data tree)

/-! ### From the first internal step to the completion -/

/-- The transient state after the input is read (20_memory.md R39). -/
def loadedWork (op : Op) (input : Bytes) : Work :=
  match op with
  | .compress => if input = [] then .finished (.ok []) else .loaded input
  | .decompress => .frame input

theorem loadInput_ok {s : State} {l : Latch} {input : Bytes} (hin : s.inputIs l input) :
    loadInput l s = .next (s.setWork l (loadedWork l.op input)) := by
  obtain ⟨hlen, hread⟩ := hin
  simp only [loadInput, hread, if_neg (Nat.not_lt.mpr hlen)]
  cases l.op <;> rfl

/-- The codec function's result is what the internal steps arrive at, for either operation. -/
theorem loadedWork_reaches (op : Op) (input : Bytes) :
    WorkSteps (loadedWork op input) (.finished (codec op input)) := by
  cases op with
  | decompress => exact frame_reaches input
  | compress =>
    by_cases hnil : input = []
    · rw [hnil]
      exact .refl
    · rw [loadedWork, if_neg hnil]
      exact loaded_reaches hnil

/-- A command whose internal steps arrive at a result completes with it. -/
theorem innerSteps_of_workSteps {w : Work} {r : Result} (h : WorkSteps w (.finished r)) (s : State) (l : Latch)
    (hc : s.core = .busy l w) : ∃ k, innerSteps k s = .next (s.complete r) := by
  induction h using Relation.ReflTransGen.head_induction_on generalizing s with
  | refl => exact ⟨1, by simp only [innerSteps, innerStep, hc]⟩
  | head hstep _ ih =>
    obtain ⟨k, hk⟩ := ih (s.setWork l _) rfl
    exact ⟨k + 1, (innerSteps_succ_next (hstep s l hc)).trans hk⟩

/-- From acceptance the internal steps reach the completed state, in the three ways a completion can go. -/
theorem innerSteps_reach_completion {s t : State} {l : Latch} (hc : s.core = .busy l .accepted)
    (h : completionStep s = .next t) : ∃ k, innerSteps k s = .next t := by
  rcases completionStep_cases h with ⟨hidle, -⟩ | ⟨l', w, hc', hlen, rfl⟩ | ⟨l', w, input, hc', hlen, hread, rfl⟩
  · rw [hc] at hidle
    cases hidle
  · rw [hc] at hc'
    cases hc'
    have hload : innerStep s = .next (s.setWork l (.finished (.error .lengthError))) :=
      (innerStep_accepted hc).trans (if_pos hlen)
    obtain ⟨k, hk⟩ := innerSteps_of_workSteps .refl (s.setWork l (.finished (.error .lengthError))) l rfl
    exact ⟨k + 1, (innerSteps_succ_next hload).trans hk⟩
  · rw [hc] at hc'
    cases hc'
    have hload := (innerStep_accepted hc).trans (loadInput_ok ⟨hlen, hread⟩)
    obtain ⟨k, hk⟩ := innerSteps_of_workSteps (loadedWork_reaches l.op input) (s.setWork l _) l rfl
    exact ⟨k + 1, (innerSteps_succ_next hload).trans hk⟩

/-- The atomic completion does not look at the transient state. -/
theorem completionStep_setWork {s : State} {l : Latch} {w : Work} (hc : s.core = .busy l w) (w' : Work) :
    completionStep (s.setWork l w') = completionStep s := by
  unfold completionStep
  rw [hc]
  rfl

/-- An idle core takes no internal step. -/
theorem innerSteps_idle {s : State} (hc : s.core = .idle) (k : Nat) : innerSteps k s = .next s := by
  induction k with
  | zero => rfl
  | succ k ih =>
    have hstay : innerStep s = .next s := by simp only [innerStep, hc]
    rw [innerSteps_succ_next hstay, ih]

/-- Internal steps that have not completed leave the atomic completion as it was. -/
theorem completionStep_innerSteps {k : Nat} {s s' : State} (h : innerSteps k s = .next s') (hb : s'.busy = true) :
    completionStep s' = completionStep s := by
  induction k generalizing s with
  | zero =>
    cases h
    rfl
  | succ k ih =>
    simp only [innerSteps] at h
    split at h
    · rename_i s1 hs1
      rcases innerStep_cases hs1 with ⟨-, rfl⟩ | ⟨l, w, w', hc, rfl⟩ | ⟨l, r, -, rfl⟩
      · exact ih h
      · exact (ih h).trans (completionStep_setWork hc w')
      · rw [innerSteps_idle (complete_core s r)] at h
        cases h
        rw [State.busy_of_idle _ (complete_core s r)] at hb
        cases hb
    · cases h
    · cases h

/-- Settles O40: the stages of each codec function, and the read that both kinds of step share. -/
theorem internalStepsRefineTheCompletion : Obligations.InternalStepsRefineTheCompletion := by
  intro s l hc
  refine ⟨fun t h => innerSteps_reach_completion hc h, fun k s' h hb => completionStep_innerSteps h hb, fun r h => ?_⟩
  obtain ⟨l', w, i, hc', hin, rfl⟩ := completionStep_fault h
  rw [hc] at hc'
  cases hc'
  rw [innerStep_accepted hc, loadInput_of_inputStopsAt hin]

end Sys2Proof.Machine
end

section
/-! PROOFS. Where a step stops: each fault and refusal traced to the statement and access, or to the unwritten byte, that
raises it (10_state.md R25; 20_memory.md R37; 30_encoding.md R70; 70_reset_and_hazards.md R135). -/

namespace Sys2Proof.Machine

/-! ### The core stops only at unwritten input -/

/-- Every transient state but the first and the last has an internal step of its own: DECOMPRESS decodes only units its
core is at (log 9). -/
theorem workStep_exists {w : Work} (haccepted : w ≠ .accepted) (hfinished : ∀ r, w ≠ .finished r) :
    ∃ w', WorkStep w w' := by
  cases w with
  | accepted => exact absurd rfl haccepted
  | finished r => exact absurd rfl (hfinished r)
  | loaded | counted | building | treed | coded | serialized | encoded | assembled | packed =>
    exact ⟨_, workStep_compressStep rfl⟩
  | frame input =>
    cases hlast : input.getLast? with
    | none =>
      obtain rfl := List.getLast?_eq_none_iff.mp hlast
      exact ⟨_, workStep_frameEmpty⟩
    | some tr =>
      cases hflag : (parseTrailer tr).1 with
      | false => exact ⟨_, workStep_frameStored hlast hflag⟩
      | true => exact ⟨_, workStep_frameCompressed hlast hflag⟩
  | tree tb cursor stack d =>
    match hbits : tb.drop cursor with
    | [] => exact ⟨_, workStep_treeError (e := .noMarker) (by rw [hbits]; rfl)⟩
    | false :: rest => exact ⟨_, workStep_treeInternal hbits⟩
    | true :: rest =>
      by_cases hlen : rest.length < 8
      · exact ⟨_, workStep_treeError (e := .shortLeaf) (by rw [hbits]; exact if_pos hlen)⟩
      · exact ⟨_, workStep_treeLeaf hbits (by omega)⟩
  | walk tree cur depth d pos out =>
    match hbits : d.drop pos with
    | [] => exact ⟨_, workStep_walkEnd hbits⟩
    | b :: rest =>
      cases hbit : walkBit tree cur depth b with
      | error e => exact ⟨.finished (.error e), workStep_walkBit hbits (by simp only [walkWork, hbit])⟩
      | ok next =>
        exact ⟨.walk tree next.1 next.2.1 d (pos + 1) (out ++ next.2.2),
          workStep_walkBit hbits (by simp only [walkWork, hbit])⟩

/-- An internal step answers, unless it is the load of the input. -/
theorem innerStep_next_or_load (s : State) :
    (∃ t, innerStep s = .next t) ∨ ∃ l, s.core = .busy l .accepted ∧ innerStep s = loadInput l s := by
  cases hc : s.core with
  | idle => exact .inl ⟨s, by simp only [innerStep, hc]⟩
  | busy l w =>
    by_cases haccepted : w = .accepted
    · subst haccepted
      exact .inr ⟨l, rfl, innerStep_accepted hc⟩
    · by_cases hfinished : ∃ r, w = .finished r
      · obtain ⟨r, rfl⟩ := hfinished
        exact .inl ⟨s.complete r, by simp only [innerStep, hc]⟩
      · obtain ⟨w', hstep⟩ := workStep_exists haccepted fun r hr => hfinished ⟨r, hr⟩
        exact .inl ⟨s.setWork l w', hstep s l hc⟩

theorem innerStep_fault {s : State} {r : Fault} (h : innerStep s = .fault r) :
    ∃ l w i, s.core = .busy l w ∧ s.inputStopsAt l i ∧ r = .unwrittenInput i := by
  rcases innerStep_next_or_load s with ⟨t, ht⟩ | ⟨l, hc, hload⟩
  · rw [ht] at h
    cases h
  · obtain ⟨i, hin, hr⟩ := loadInput_fault (hload.symm.trans h)
    exact ⟨l, .accepted, i, hc, hin, hr⟩

theorem loadInput_not_refused {l : Latch} {s : State} {r : Refusal} : loadInput l s ≠ .refused r := by
  unfold loadInput
  split
  · exact nofun
  · split
    · exact nofun
    · split <;> exact nofun

theorem innerStep_not_refused {s : State} {r : Refusal} : innerStep s ≠ .refused r := by
  rcases innerStep_next_or_load s with ⟨t, ht⟩ | ⟨l, -, hload⟩
  · rw [ht]
    exact nofun
  · rw [hload]
    exact loadInput_not_refused

theorem completionStep_not_refused {s : State} {r : Refusal} : completionStep s ≠ .refused r := by
  unfold completionStep
  split
  · exact nofun
  · split
    · exact nofun
    · split <;> exact nofun

/-! ### A host access -/

theorem target_inLen {p : Params} {off : Nat} (h : target p off = .inLen) : off = 0x000008 := by
  unfold target at h
  repeat' (split at h)
  all_goals first
    | assumption
    | simp only [reduceCtorEq] at h

/-- The writes that fault are those R135 names. -/
theorem busWrite_fault {off width : Nat} {data : Word} {s : State} {r : Fault} (h : busWrite off width data s = .fault r) :
    r = .hostHazard ∧ s.busy = true
      ∧ ((off = 0x000008 ∧ width = 4) ∨ ∃ i, i < s.params.ibufSize ∧ off = 0x100000 + i ∧ width = 1) := by
  by_cases hform : legalForm off width = true
  · rw [busWrite_of_legalForm hform] at h
    cases ht : target s.params off with
    | cmd => exact absurd (ht ▸ h) exec_not_fault
    | status | outLen | obuf | reserved => rw [ht] at h; cases h
    | inLen =>
      rw [ht, writeTarget] at h
      obtain rfl := target_inLen ht
      split at h <;> cases h
      rename_i hb
      exact ⟨rfl, hb, .inl ⟨rfl, width_of_legalForm_register hform (by decide)⟩⟩
    | ibuf i =>
      rw [ht, writeTarget] at h
      obtain ⟨hi, hoff⟩ := target_ibuf ht
      split at h <;> cases h
      rename_i hb
      have hoff' : off = 0x100000 + i := hoff
      refine ⟨rfl, hb, .inr ⟨i, hi, hoff', ?_⟩⟩
      rcases legalForm_iff.mp hform with ⟨-, -, hlt⟩ | ⟨hwidth, -⟩
      · omega
      · exact hwidth
  · simp [busWrite, hform] at h

theorem busWrite_refused {off width : Nat} {data : Word} {s : State} {r : Refusal}
    (h : busWrite off width data s = .refused r) : r = .unsupportedAccess ∧ ¬ legalForm off width = true := by
  by_cases hform : legalForm off width = true
  · rw [busWrite_of_legalForm hform] at h
    cases ht : target s.params off with
    | cmd => rw [ht, writeTarget, exec_decodeCmd] at h; cases h
    | status | outLen | obuf | reserved => rw [ht] at h; cases h
    | inLen | ibuf => rw [ht, writeTarget] at h; split at h <;> cases h
  · simp only [busWrite, if_neg hform] at h
    cases h
    exact ⟨rfl, hform⟩

theorem busRead_error {off width : Nat} {s : State} {r : Refusal} (h : busRead off width s = .error r) :
    r = .unsupportedAccess ∧ ¬ legalForm off width = true := by
  unfold busRead at h
  split at h
  · cases h
  · rename_i hform
    cases h
    exact ⟨rfl, hform⟩

/-! ### A host statement -/

theorem Val.eval_eq_none {vars : Vars} {v : Val} (h : v.eval vars = none) :
    ∃ name, v = .var name ∧ mapGet name vars = none := by
  cases v with
  | lit w => cases h
  | var name => exact ⟨name, rfl, h⟩

theorem Request.write_eq_unbound {off width : Nat} {value : Option Word} (h : Request.write off width value = .unbound) :
    value = none := by
  cases value with
  | none => rfl
  | some w => cases h

/-- The statements that ask for an operand: the two stores and the poll. -/
theorem request_unbound {st : Stmt} {vars : Vars} (h : st.request vars = .unbound) :
    ∃ name, mapGet name vars = none ∧ ((∃ off, st = .wr32 off (.var name)) ∨ (∃ off, st = .wr8 off (.var name))
      ∨ ∃ off mask, st = .poll off mask (.var name)) := by
  cases st with
  | wr32 off v =>
    obtain ⟨name, rfl, hname⟩ := Val.eval_eq_none (Request.write_eq_unbound h)
    exact ⟨name, hname, .inl ⟨off, rfl⟩⟩
  | wr8 off v =>
    obtain ⟨name, rfl, hname⟩ := Val.eval_eq_none (Request.write_eq_unbound h)
    exact ⟨name, hname, .inr (.inl ⟨off, rfl⟩)⟩
  | poll off mask v =>
    simp only [Stmt.request] at h
    split at h
    · cases h
    · rename_i hv
      obtain ⟨name, rfl, hname⟩ := Val.eval_eq_none hv
      exact ⟨name, hname, .inr (.inr ⟨off, mask, rfl⟩)⟩
  | rd32 | rd8 | label | bnz => cases h

theorem findLabel_eq_none {name : Nat} {script : List Stmt} (h : findLabel name script = none) (k : Nat) :
    script[k]? ≠ some (.label name) := by
  induction script generalizing k with
  | nil => exact nofun
  | cons st rest ih =>
    rw [findLabel] at h
    split at h
    · cases h
    · rename_i hst
      cases k with
      | zero => simpa using hst
      | succ k => simpa using ih (Option.map_eq_none_iff.mp h) k

theorem hostCompute_not_fault {st : Stmt} {s : State} {r : Fault} : hostCompute st s ≠ .fault r := by
  unfold hostCompute
  split
  · split
    · exact nofun
    · split
      · exact nofun
      · split <;> exact nofun
  · exact nofun

/-- A branch without a meaning: its variable has no value, or its label is absent. -/
theorem hostCompute_refused {st : Stmt} {s : State} {r : Refusal} (h : hostCompute st s = .refused r) :
    ∃ name lbl, st = .bnz name lbl
      ∧ ((r = .unboundVariable ∧ mapGet name s.host.vars = none)
        ∨ (r = .missingLabel ∧ findLabel lbl s.host.script = none
          ∧ ∃ v, mapGet name s.host.vars = some v ∧ v ≠ 0#32)) := by
  unfold hostCompute at h
  split at h
  · rename_i name lbl
    split at h
    · rename_i hnone
      cases h
      exact ⟨name, lbl, rfl, .inl ⟨rfl, hnone⟩⟩
    · rename_i v hv
      split at h
      · cases h
      · rename_i hne
        split at h
        · rename_i hlabel
          cases h
          exact ⟨name, lbl, rfl, .inr ⟨rfl, hlabel, v, hv, hne⟩⟩
        · cases h
  · cases h

/-- A statement faults only in the bus write it asks for. -/
theorem runStmt_fault {st : Stmt} {s : State} {r : Fault} (h : runStmt st s = .fault r) :
    ∃ off width data, st.request s.host.vars = .access (.write off width data)
      ∧ busWrite off width data s.advanceHost = .fault r := by
  unfold runStmt at h
  split at h
  · cases h
  · exact absurd h hostCompute_not_fault
  · rename_i off width data hreq
    exact ⟨off, width, data, hreq, h⟩
  · split at h <;> cases h

/-- The access a statement asks for: a read or a write of this form. -/
def Stmt.Accesses (st : Stmt) (vars : Vars) (off width : Nat) : Prop :=
  st.request vars = .access (.read off width) ∨ ∃ data : Word, st.request vars = .access (.write off width data)

/-- A statement is refused for its access's form, for an operand without a value, or as a branch. -/
theorem runStmt_refused {st : Stmt} {s : State} {r : Refusal} (h : runStmt st s = .refused r) :
    (r = .unsupportedAccess ∧ ∃ off width, st.Accesses s.host.vars off width ∧ ¬ legalForm off width = true)
      ∨ (r = .unboundVariable ∧ st.request s.host.vars = .unbound)
      ∨ hostCompute st s = .refused r := by
  unfold runStmt at h
  split at h
  · rename_i hreq
    cases h
    exact .inr (.inl ⟨rfl, hreq⟩)
  · exact .inr (.inr h)
  · rename_i off width data hreq
    obtain ⟨hr, hform⟩ := busWrite_refused h
    exact .inl ⟨hr, off, width, .inr ⟨data, hreq⟩, hform⟩
  · rename_i off width hreq
    split at h
    · rename_i hread
      cases h
      obtain ⟨hr, hform⟩ := busRead_error hread
      exact .inl ⟨hr, off, width, .inl hreq, hform⟩
    · cases h

theorem hostStep_fault {s : State} {r : Fault} (h : hostStep s = .fault r) :
    ∃ st, s.host.script[s.host.pos]? = some st ∧ runStmt st s = .fault r := by
  unfold hostStep at h
  split at h
  · cases h
  · rename_i st hst
    exact ⟨st, hst, h⟩

theorem hostStep_refused {s : State} {r : Refusal} (h : hostStep s = .refused r) :
    ∃ st, s.host.script[s.host.pos]? = some st ∧ runStmt st s = .refused r := by
  unfold hostStep at h
  split at h
  · cases h
  · rename_i st hst
    exact ⟨st, hst, h⟩

/-! ### A step -/

/-- Only the host is refused. -/
theorem step_refused {s : State} {r : Refusal} (h : step s = .refused r) :
    s.nextMove = .host ∧ ∃ st, s.host.script[s.host.pos]? = some st ∧ runStmt st s.takeMove = .refused r := by
  cases hmove : s.nextMove <;> rw [step_of_nextMove hmove] at h
  case host => exact ⟨rfl, hostStep_refused h⟩
  case complete => exact absurd h completionStep_not_refused
  case inner => exact absurd h innerStep_not_refused
  case reset => cases h

/-- A faulting step is the host's hazard, or the core's read of an unwritten byte. -/
theorem step_fault {s : State} {r : Fault} (h : step s = .fault r) :
    (s.nextMove = .host ∧ r = .hostHazard ∧ s.busy = true ∧ ∃ st off width data,
        s.host.script[s.host.pos]? = some st ∧ st.request s.host.vars = .access (.write off width data)
        ∧ ((off = 0x000008 ∧ width = 4) ∨ ∃ i, i < s.params.ibufSize ∧ off = 0x100000 + i ∧ width = 1))
      ∨ ((s.nextMove = .complete ∨ s.nextMove = .inner) ∧ ∃ l w i, s.core = .busy l w
        ∧ s.inputStopsAt l i ∧ r = .unwrittenInput i) := by
  cases hmove : s.nextMove <;> rw [step_of_nextMove hmove] at h
  case host =>
    obtain ⟨st, hst, hrun⟩ := hostStep_fault h
    obtain ⟨off, width, data, hreq, hw⟩ := runStmt_fault hrun
    obtain ⟨hr, hb, hplace⟩ := busWrite_fault hw
    exact .inl ⟨rfl, hr, hb, st, off, width, data, hst, hreq, hplace⟩
  case complete => exact .inr ⟨.inl rfl, completionStep_fault (s := s.takeMove) h⟩
  case inner => exact .inr ⟨.inr rfl, innerStep_fault (s := s.takeMove) h⟩
  case reset => cases h

/-- The reasons a step can be refused for: the three of a host script. -/
theorem step_refused_reason {s : State} {r : Refusal} (h : step s = .refused r) :
    r = .unsupportedAccess ∨ r = .unboundVariable ∨ r = .missingLabel := by
  obtain ⟨-, st, -, hrun⟩ := step_refused h
  rcases runStmt_refused hrun with ⟨hr, -⟩ | ⟨hr, -⟩ | hcompute
  · exact .inl hr
  · exact .inr (.inl hr)
  · obtain ⟨-, -, -, ⟨hr, -⟩ | ⟨hr, -⟩⟩ := hostCompute_refused hcompute
    · exact .inr (.inl hr)
    · exact .inr (.inr hr)

theorem step_hostHazard {s : State} (h : step s = .fault .hostHazard) :
    s.busy = true ∧ s.nextMove = .host ∧ ∃ (v : Val) (data : Word), v.eval s.host.vars = some data
      ∧ (s.host.script[s.host.pos]? = some (.wr32 0x000008 v)
        ∨ ∃ i : Nat, i < s.params.ibufSize ∧ s.host.script[s.host.pos]? = some (.wr8 (0x100000 + i) v)) := by
  rcases step_fault h with ⟨hmove, -, hb, st, off, width, data, hst, hreq, hplace⟩ | ⟨-, -, -, i, -, -, hr⟩
  · refine ⟨hb, hmove, ?_⟩
    rcases request_write hreq with ⟨v, rfl, rfl, hv⟩ | ⟨v, rfl, rfl, hv⟩
    · rcases hplace with ⟨rfl, -⟩ | ⟨-, -, -, hwidth⟩
      · exact ⟨v, data, hv, .inl hst⟩
      · cases hwidth
    · rcases hplace with ⟨-, hwidth⟩ | ⟨i, hi, rfl, -⟩
      · cases hwidth
      · exact ⟨v, data, hv, .inr ⟨i, hi, hst⟩⟩
  · cases hr

theorem step_unwrittenInput {s : State} {i : Nat} (h : step s = .fault (.unwrittenInput i)) :
    (s.nextMove = .complete ∨ s.nextMove = .inner) ∧ s.ibuf.get i = none
      ∧ ∃ (l : Latch) (w : Work), s.core = .busy l w ∧ i < l.n.toNat ∧ l.n.toNat ≤ s.params.ibufSize := by
  rcases step_fault h with ⟨-, hr, -⟩ | ⟨hmove, l, w, k, hc, ⟨hlen, hread⟩, hr⟩
  · cases hr
  · cases hr
    obtain ⟨⟨-, hi⟩, hnone⟩ := Memory.read_error _ _ _ _ hread
    rw [Nat.zero_add] at hi
    exact ⟨hmove, (Memory.get_eq s.ibuf i).trans hnone, l, w, hc, hi, hlen⟩

theorem step_unsupportedAccess {s : State} (h : step s = .refused .unsupportedAccess) :
    s.nextMove = .host ∧ ∃ (st : Stmt) (off width : Nat), s.host.script[s.host.pos]? = some st
      ∧ st.Accesses s.host.vars off width ∧ ¬ legalForm off width = true := by
  obtain ⟨hmove, st, hst, hrun⟩ := step_refused h
  refine ⟨hmove, st, ?_⟩
  rcases runStmt_refused hrun with ⟨-, off, width, hacc, hform⟩ | ⟨hr, -⟩ | hcompute
  · exact ⟨off, width, hst, hacc, hform⟩
  · cases hr
  · obtain ⟨-, -, -, ⟨hr, -⟩ | ⟨hr, -⟩⟩ := hostCompute_refused hcompute <;> cases hr

theorem step_unboundVariable {s : State} (h : step s = .refused .unboundVariable) :
    s.nextMove = .host ∧ ∃ name : Nat, mapGet name s.host.vars = none
      ∧ ((∃ off : Nat, s.host.script[s.host.pos]? = some (.wr32 off (.var name)))
        ∨ (∃ off : Nat, s.host.script[s.host.pos]? = some (.wr8 off (.var name)))
        ∨ (∃ (off : Nat) (mask : Word), s.host.script[s.host.pos]? = some (.poll off mask (.var name)))
        ∨ ∃ lbl : Nat, s.host.script[s.host.pos]? = some (.bnz name lbl)) := by
  obtain ⟨hmove, st, hst, hrun⟩ := step_refused h
  refine ⟨hmove, ?_⟩
  rcases runStmt_refused hrun with ⟨hr, -⟩ | ⟨-, hreq⟩ | hcompute
  · cases hr
  · obtain ⟨name, hname, ⟨off, rfl⟩ | ⟨off, rfl⟩ | ⟨off, mask, rfl⟩⟩ := request_unbound hreq
    · exact ⟨name, hname, .inl ⟨off, hst⟩⟩
    · exact ⟨name, hname, .inr (.inl ⟨off, hst⟩)⟩
    · exact ⟨name, hname, .inr (.inr (.inl ⟨off, mask, hst⟩))⟩
  · obtain ⟨name, lbl, rfl, ⟨-, hname⟩ | ⟨hr, -⟩⟩ := hostCompute_refused hcompute
    · exact ⟨name, hname, .inr (.inr (.inr ⟨lbl, hst⟩))⟩
    · cases hr

theorem step_missingLabel {s : State} (h : step s = .refused .missingLabel) :
    s.nextMove = .host ∧ ∃ (name lbl : Nat) (v : Word), s.host.script[s.host.pos]? = some (.bnz name lbl)
      ∧ mapGet name s.host.vars = some v ∧ v ≠ 0#32 ∧ ∀ k : Nat, s.host.script[k]? ≠ some (.label lbl) := by
  obtain ⟨hmove, st, hst, hrun⟩ := step_refused h
  refine ⟨hmove, ?_⟩
  rcases runStmt_refused hrun with ⟨hr, -⟩ | ⟨hr, -⟩ | hcompute
  · cases hr
  · cases hr
  · obtain ⟨name, lbl, rfl, ⟨hr, -⟩ | ⟨-, hlabel, v, hv, hne⟩⟩ := hostCompute_refused hcompute
    · cases hr
    · exact ⟨name, lbl, v, hst, hv, hne, findLabel_eq_none hlabel⟩

/-- Settles O37: one lemma for each fault and refusal above, and no other refusal has a source. -/
theorem stepStopsOnlyWhereTheSpecSays : Obligations.StepStopsOnlyWhereTheSpecSays := by
  intro s
  refine ⟨step_hostHazard, fun i h => step_unwrittenInput h, fun h => ?_, step_unboundVariable, step_missingLabel,
    fun h => ?_, fun m h => ?_⟩
  · obtain ⟨hmove, st, off, width, hst, hacc, hform⟩ := step_unsupportedAccess h
    obtain ⟨hfour, hone⟩ := not_or.mp (mt legalForm_iff.mpr hform)
    exact ⟨hmove, st, off, width, hst, hacc, hfour, hone⟩
  · rcases step_refused_reason h with hr | hr | hr <;> cases hr
  · rcases step_refused_reason h with hr | hr | hr <;> cases hr

end Sys2Proof.Machine
end

section
/-! PROOFS. The host's accesses: the forms refused (20_memory.md R37, R44), reserved offsets (R38), the writes that fault while
a command runs (70_reset_and_hazards.md R135), a finished result read back (20_memory.md R46, R49), and the frame of every
instruction (R39, R47). -/

namespace Sys2Proof.Machine

/-! ### The frame of an instruction -/

/-- An instruction leaves what the core's own moves leave: each of its outcomes is a named update of the core. -/
theorem exec_coreFrame {i : Instr} {s u : State} (h : exec i s = .next u) : s.CoreFrame u := by
  rcases exec_cases h with ⟨-, -, rfl⟩ | ⟨-, ⟨-, rfl⟩ | ⟨-, rfl⟩ | ⟨-, rfl⟩⟩ | ⟨-, l, -, w', -, rfl⟩
  · exact u.coreFrame_refl
  · exact ⟨rfl, rfl, rfl, rfl, rfl, rfl⟩
  · exact ⟨rfl, rfl, rfl, rfl, rfl, rfl⟩
  · exact ⟨rfl, rfl, rfl, rfl, rfl, rfl⟩
  · exact s.coreFrame_setWork l w'

/-- A unit of a frame changes the transient state of the running command only. -/
theorem exec_unit_cases {i : Instr} {s u : State} (hi : i.space ≠ .cmdWord) (h : exec i s = .next u) :
    ∃ l w w', s.core = .busy l w ∧ u = s.setWork l w' := by
  rcases exec_cases h with ⟨hcmd, -⟩ | ⟨-, ⟨rfl, -⟩ | ⟨rfl, -⟩ | ⟨⟨op, rfl⟩, -⟩⟩ | ⟨-, hunit⟩
  · exact absurd hcmd hi
  · exact absurd rfl hi
  · exact absurd rfl hi
  · exact absurd rfl hi
  · exact hunit

/-- Of the instructions only ILLEGAL_COMMAND writes OUT_LEN (45_command_interface.md R103, R105). -/
theorem exec_keeps_outLen {i : Instr} {s u : State} (hi : ∀ op, i ≠ .illegalCommand op) (h : exec i s = .next u) :
    u.outLen = s.outLen := by
  rcases exec_cases h with ⟨-, -, rfl⟩ | ⟨-, ⟨-, rfl⟩ | ⟨-, rfl⟩ | ⟨⟨op, hop⟩, -⟩⟩ | ⟨-, l, -, w', -, rfl⟩
  · rfl
  · rfl
  · rfl
  · exact absurd hop (hi op)
  · rfl

/-- Settles O9: every instruction has the core's frame and leaves OBUF, and a unit of a frame is `State.setWork`. -/
theorem instructionsChangeOnlyTheCore : Obligations.InstructionsChangeOnlyTheCore := by
  intro i s t h
  have hframe := exec_coreFrame h
  refine ⟨hframe.params, hframe.inLen, hframe.draws, hframe.host, hframe.plan, fun a => by rw [hframe.ibuf],
    fun a => by rw [exec_keeps_obuf h], fun hi => ?_, fun hi => exec_keeps_outLen (fun op hop => ?_) h⟩
  · obtain ⟨l, w, w', hc, rfl⟩ := exec_unit_cases hi h
    refine ⟨rfl, rfl, rfl, fun l' v hc' => ?_⟩
    cases hc.symm.trans hc'
    exact ⟨w', rfl⟩
  · subst hop
    rcases hi with hi | hi <;> cases hi

/-! ### A finished result at the bus -/

/-- A completion that reports no error is the success of an output that fits OBUF. -/
theorem complete_of_err_zero {s : State} {r : Result} (h : (s.complete r).err = 0#4) :
    ∃ out, out.length ≤ s.params.obufSize ∧ s.complete r = s.succeed out := by
  rcases complete_cases s r with ⟨out, -, hout, heq⟩ | ⟨-, -, -, heq⟩ | ⟨e, -, heq⟩
  · exact ⟨out, hout, heq⟩
  · rw [heq] at h
    exact absurd h (ErrorKind.code_ne_zero .outputOverflow)
  · rw [heq] at h
    exact absurd h e.code_ne_zero

/-- A running command whose completion reports no error ends in `State.succeed`. -/
theorem completionStep_of_err_zero {s t : State} (hb : s.busy = true) (h : completionStep s = .next t)
    (herr : t.err = 0#4) : ∃ out, out.length ≤ s.params.obufSize ∧ t = s.succeed out := by
  rcases completionStep_cases h with ⟨hidle, -⟩ | ⟨-, -, -, -, rfl⟩ | ⟨l, -, input, -, -, -, rfl⟩
  · rw [State.busy_of_idle s hidle] at hb
    cases hb
  · exact complete_of_err_zero herr
  · exact complete_of_err_zero herr

/-- A byte of the output stands in OBUF and reads back there. -/
theorem busRead_obuf_succeed {s : State} (hp : s.params.Legal) {out : Bytes} (hout : out.length ≤ s.params.obufSize)
    {j : Nat} (hj : j < out.length) :
    busRead (0x200000 + j) 1 (s.succeed out) = .ok (out[j].setWidth 32, s.succeed out) := by
  rw [busRead_obuf (s := s.succeed out) hp (hj.trans_le hout), State.succeed_busy, succeed_obuf_get,
    List.getElem?_eq_getElem hj]
  rfl

/-- Settles O19: the state after a success is `State.succeed`, and each read is one of it. -/
theorem completedResultIsVisible : Obligations.CompletedResultIsVisible := by
  intro s t hp hb h herr
  obtain ⟨out, hout, rfl⟩ := completionStep_of_err_zero hb h herr
  have hlen : (s.succeed out).outLen.toNat = out.length := outLen_toNat hp hout
  refine ⟨?_, busRead_outLen _, hlen.le.trans hout, fun j hj => ?_⟩
  · rw [busRead_status, succeed_status]
  · have hj' : j < out.length := by omega
    exact ⟨out[j], by rw [succeed_obuf_get, List.getElem?_eq_getElem hj'], busRead_obuf_succeed hp hout hj'⟩

/-! ### Access forms -/

theorem busRead_of_not_legalForm {off width : Nat} (h : ¬ legalForm off width = true) (s : State) :
    busRead off width s = .error .unsupportedAccess := if_neg h

theorem busWrite_of_not_legalForm {off width : Nat} (h : ¬ legalForm off width = true) (data : Word) (s : State) :
    busWrite off width data s = .refused .unsupportedAccess := if_neg h

/-- Settles O25: the refusal is the test of `legalForm` alone. -/
theorem unsupportedFormsAreRefused : Obligations.UnsupportedFormsAreRefused := by
  intro s off width data
  constructor
  · intro hbad
    have hform : ¬ legalForm off width = true := by
      rw [legalForm_iff]
      omega
    exact ⟨busRead_of_not_legalForm hform s, busWrite_of_not_legalForm hform data s⟩
  · intro hgood
    have hform := legalForm_iff.mpr hgood
    exact ⟨⟨_, _, busRead_of_legalForm hform s⟩, fun r hr => (busWrite_refused hr).2 hform⟩

/-! ### Reserved offsets -/

/-- Settles O24: with legal parameters each of the three ranges is reserved in the address map. -/
theorem reservedOffsetsReadZero : Obligations.ReservedOffsetsReadZero := by
  intro s off width data hp hform hoff
  rw [busRead_of_legalForm hform, busWrite_of_legalForm hform, target_reserved hp hoff]
  exact ⟨rfl, rfl⟩

/-! ### Writes while a command runs -/

theorem busWrite_ibuf_busy {s : State} (hp : s.params.Legal) (hb : s.busy = true) {i : Nat} (hi : i < s.params.ibufSize)
    (data : Word) : busWrite (0x100000 + i) 1 data s = .fault .hostHazard := by
  have hsize := ibufSize_le_of_legal hp
  rw [busWrite_of_legalForm (legalForm_byte (by omega) (by omega)), target_ibufBase_add hi, writeTarget, if_pos hb]

/-- Settles O29: the two hazards, and the inversion of a faulting write. -/
theorem hostHazardFaults : Obligations.HostHazardFaults := by
  intro s
  refine ⟨fun hb hp => ⟨fun data => ?_, fun i data hi => busWrite_ibuf_busy hp hb hi data⟩, fun off width data r h => ?_⟩
  · rw [busWrite_inLen, if_pos hb]
  · obtain ⟨hr, hb, ⟨hoff, -⟩ | ⟨i, hi, hoff, -⟩⟩ := busWrite_fault h
    · exact ⟨hb, hr, .inl hoff⟩
    · exact ⟨hb, hr, .inr (by omega)⟩

end Sys2Proof.Machine
end

section
/-! PROOFS. The bit packer (42_bit_packer.md R87-R89): the bytes of whole groups of eight bits, the two inverses, and the bit
order within a byte (20_memory.md R41). -/

namespace Sys2Proof.Machine

/-! ### Groups of eight bits -/

/-- The byte of each whole group of eight bits, as `pack` takes them from the padded bits. -/
def groupBytes (f : Bits) : Bytes := (List.range (f.length / 8)).map fun j => byteBE ((f.drop (8 * j)).take 8)

theorem pack_eq (bits : Bits) :
    pack bits = (groupBytes (bits ++ List.replicate (padCount bits.length) false), padCount bits.length) := rfl

theorem groupBytes_append {g : Bits} (hg : g.length = 8) (f : Bits) :
    groupBytes (g ++ f) = byteBE g :: groupBytes f := by
  have hcount : (g ++ f).length / 8 = f.length / 8 + 1 := by
    rw [List.length_append]
    omega
  have hfirst : ((g ++ f).drop (8 * 0)).take 8 = g := List.take_left' hg
  have hrest : ∀ j, (g ++ f).drop (8 * (j + 1)) = f.drop (8 * j) := fun j => by
    rw [List.drop_append, List.drop_eq_nil_of_le (by omega), List.nil_append]
    congr 1
    omega
  simp only [groupBytes, hcount, List.range_succ_eq_map, List.map_cons, List.map_map, hfirst, Function.comp_def,
    Nat.succ_eq_add_one, hrest]

theorem groupBytes_unpack (bytes : Bytes) : groupBytes (unpack bytes) = bytes := by
  induction bytes with
  | nil => rfl
  | cons b bytes ih => rw [unpack_cons, groupBytes_append (bitsBE_length _ _), byteBE_bitsBE, ih]

theorem unpack_groupBytes {f : Bits} {n : Nat} (hf : f.length = 8 * n) : unpack (groupBytes f) = f := by
  induction n generalizing f with
  | zero =>
    obtain rfl := List.eq_nil_of_length_eq_zero hf
    rfl
  | succ n ih =>
    have htake : (f.take 8).length = 8 := by
      rw [List.length_take]
      omega
    have hdrop : (f.drop 8).length = 8 * n := by
      rw [List.length_drop]
      omega
    calc unpack (groupBytes f) = unpack (groupBytes (f.take 8 ++ f.drop 8)) := by rw [List.take_append_drop]
      _ = f.take 8 ++ f.drop 8 := by rw [groupBytes_append htake, unpack_cons, bitsBE_byteBE _ htake, ih hdrop]
      _ = f := List.take_append_drop 8 f

/-! ### The inverses -/

/-- Unpack after pack gives the bits with their padding. -/
theorem unpack_pack (bits : Bits) :
    unpack (pack bits).1 = bits ++ List.replicate (padCount bits.length) false := by
  obtain ⟨-, hmod⟩ := padCount_spec bits.length
  have hlen : (bits ++ List.replicate (padCount bits.length) false).length
      = 8 * ((bits.length + padCount bits.length) / 8) := by
    rw [List.length_append, List.length_replicate]
    omega
  rw [pack_eq, unpack_groupBytes hlen]

theorem pack_unpack (bytes : Bytes) : pack (unpack bytes) = (bytes, 0) := by
  have hpad : padCount (unpack bytes).length = 0 := by
    rw [unpack_length, padCount]
    omega
  rw [pack_eq, hpad, List.replicate_zero, List.append_nil, groupBytes_unpack]

/-! ### The bit order -/

theorem bitsBE_getElem? (v : Nat) {w j : Nat} (hj : j < w) : (bitsBE v w)[j]? = some (v.testBit (w - 1 - j)) := by
  induction w generalizing j with
  | zero => omega
  | succ w ih =>
    cases j with
    | zero => rfl
    | succ j =>
      rw [bitsBE, List.getElem?_cons_succ, ih (by omega)]
      congr 2
      omega

/-- Bit k of the unpacked bits is bit 7 - k mod 8 of byte k / 8. -/
theorem unpack_getElem? {bytes : Bytes} {k : Nat} {b : Byte} (h : bytes[k / 8]? = some b) :
    (unpack bytes)[k]? = some (b.getLsbD (7 - k % 8)) := by
  induction bytes generalizing k with
  | nil => cases h
  | cons c bytes ih =>
    rw [unpack_cons]
    by_cases hk : k < 8
    · rw [Nat.div_eq_of_lt hk] at h
      cases h
      rw [List.getElem?_append_left (by rwa [bitsBE_length]), bitsBE_getElem? _ hk, Nat.mod_eq_of_lt hk]
      rfl
    · have hdiv : k / 8 = (k - 8) / 8 + 1 := by omega
      have hmod : k % 8 = (k - 8) % 8 := by omega
      rw [hdiv, List.getElem?_cons_succ] at h
      rw [List.getElem?_append_right (by rw [bitsBE_length]; omega), bitsBE_length, hmod, ih h]

/-- Bit k packed is bit 7 - k mod 8 of byte k / 8: unpacked again, it is read there. -/
theorem pack_getLsbD {bits : Bits} {k : Nat} {x : Bool} (h : bits[k]? = some x) :
    ∃ b : Byte, (pack bits).1[k / 8]? = some b ∧ b.getLsbD (7 - k % 8) = x := by
  obtain ⟨hk, -⟩ := List.getElem?_eq_some_iff.mp h
  have hunpack := unpack_pack bits
  have hlen : 8 * (pack bits).1.length = bits.length + padCount bits.length := by
    rw [← unpack_length, hunpack, List.length_append, List.length_replicate]
  have hbyte : (pack bits).1[k / 8]? = some (pack bits).1[k / 8] := List.getElem?_eq_getElem (by omega)
  refine ⟨_, hbyte, Option.some.inj ?_⟩
  rw [← unpack_getElem? hbyte, hunpack, List.getElem?_append_left hk, h]

/-- Settles O53: the two inverses, and the bit order of both sides. -/
theorem unpackInvertsPack : Obligations.UnpackInvertsPack := by
  refine ⟨fun bits bytes p hpack => ?_, pack_unpack, fun bytes k b => unpack_getElem?, fun bits k x => pack_getLsbD⟩
  have hunpack := unpack_pack bits
  obtain ⟨hp, -⟩ := padCount_spec bits.length
  rw [hpack] at hunpack
  obtain rfl : padCount bits.length = p := congrArg Prod.snd hpack
  refine ⟨hp, hunpack, ?_⟩
  rw [hunpack, List.length_append, List.length_replicate, Nat.add_sub_cancel_right]

end Sys2Proof.Machine
end

section
/-! PROOFS. The host's statements (30_encoding.md R70, R71): the access each issues, and where the host goes on. -/

namespace Sys2Proof.Machine

/-! ### The statements -/

theorem runStmt_wr8 {s : State} {off : Nat} {v : Val} {w : Word} (h : v.eval s.host.vars = some w) :
    runStmt (.wr8 off v) s = busWrite off 1 w s.advanceHost := by
  simp only [runStmt, Stmt.request, h, Request.write]

/-- A statement that reads goes on as the value it read says. -/
theorem runStmt_read {st : Stmt} {s t : State} {off width : Nat} {value : Word}
    (hreq : st.request s.host.vars = .access (.read off width)) (hread : busRead off width s = .ok (value, t)) :
    runStmt st s = .next (afterRead st value t) := by
  simp only [runStmt, hreq, hread]

theorem request_poll {off : Nat} {mask w : Word} {v : Val} {vars : Vars} (h : v.eval vars = some w) :
    (Stmt.poll off mask v).request vars = .access (.read off 4) := by
  simp only [Stmt.request, h]

/-- No read changes the host (20_memory.md R47). -/
theorem busRead_keeps_host {off width : Nat} {s t : State} {value : Word} (h : busRead off width s = .ok (value, t)) :
    t.host = s.host := by
  obtain ⟨-, -, rfl | rfl⟩ := busRead_cases h <;> rfl

/-- A poll goes on exactly when the value read meets its condition. -/
theorem afterRead_poll {off : Nat} {mask w : Word} {v : Val} {s : State} (h : v.eval s.host.vars = some w)
    (value : Word) :
    afterRead (.poll off mask v) value s = if value &&& mask = w then s.advanceHost else s := by
  simp only [afterRead, h, Option.some.injEq, eq_comm]

/-- The first of the labels with a name is the one found (log 20). -/
theorem findLabel_eq_some {name : Nat} {script : List Stmt} {k : Nat} (hk : script[k]? = some (.label name))
    (hfirst : ∀ j, j < k → script[j]? ≠ some (.label name)) : findLabel name script = some k := by
  induction script generalizing k with
  | nil => cases hk
  | cons st rest ih =>
    rw [findLabel]
    cases k with
    | zero => exact if_pos (Option.some.inj hk)
    | succ k =>
      have hst : st ≠ .label name := fun hst => hfirst 0 (Nat.succ_pos k) (congrArg some hst)
      rw [if_neg hst, ih hk fun j hj => hfirst (j + 1) (Nat.succ_lt_succ hj)]
      rfl

theorem runStmt_bnz_zero {s : State} {name lbl : Nat} (h : mapGet name s.host.vars = some 0#32) :
    runStmt (.bnz name lbl) s = .next s.advanceHost := by
  simp only [runStmt, Stmt.request, hostCompute, h, if_pos]

theorem runStmt_bnz_taken {s : State} {name lbl k : Nat} {v : Word} (h : mapGet name s.host.vars = some v)
    (hv : v ≠ 0#32) (hlabel : findLabel lbl s.host.script = some k) :
    runStmt (.bnz name lbl) s = .next (s.jumpHost k) := by
  simp only [runStmt, Stmt.request, hostCompute, h, if_neg hv, hlabel]

/-! ### The host's step -/

theorem step_of_stmt {s : State} {st : Stmt} (hm : s.nextMove = .host)
    (hst : s.host.script[s.host.pos]? = some st) : step s = runStmt st s.takeMove := by
  rw [step_of_nextMove hm]
  exact hostStep_of_stmt hst

/-- Settles O30: a host step runs the statement at its position, and each statement by its own rule. -/
theorem hostStatementsIssueTheirAccess : Obligations.HostStatementsIssueTheirAccess := by
  intro s hm
  refine ⟨fun off v w hst hv => ?wr32, fun off v w hst hv => ?wr8, fun off name value t hst hread => ?rd32,
    fun off name value t hst hread => ?rd8, fun off mask v w value t hst hv hread => ?poll, fun name hst => ?label,
    fun name lbl v hst hv => ?bnz⟩ <;> rw [step_of_stmt hm hst]
  case wr32 => exact runStmt_wr32 hv
  case wr8 => exact runStmt_wr8 hv
  case rd32 => exact runStmt_read rfl hread
  case rd8 => exact runStmt_read rfl hread
  case poll =>
    have hv' : v.eval t.host.vars = some w := by rwa [busRead_keeps_host hread]
    rw [runStmt_read (s := s.takeMove) (request_poll hv) hread, afterRead_poll hv']
    exact ⟨fun hmet => by rw [if_pos hmet], fun hunmet => by rw [if_neg hunmet]⟩
  case label => rfl
  case bnz =>
    refine ⟨fun hzero => runStmt_bnz_zero (hzero ▸ hv), fun hne k hk hfirst => ?_⟩
    exact runStmt_bnz_taken hv hne (findLabel_eq_some hk hfirst)

end Sys2Proof.Machine
end

section
/-! PROOFS. The decoder and the encoder (30_encoding.md R55-R64; 44_decoder.md R99): decoding reads back what was encoded, and
what decodes is an encoding. For each kind of word, the CMD word, the trailer byte, the tree node and the data bit, one
lemma for each direction. -/

namespace Sys2Proof

open Machine

/-! ### The CMD word -/

theorem ofNat_valBE_bitsBE {w : Nat} (x : BitVec w) : BitVec.ofNat w (valBE (bitsBE x.toNat w)) = x := by
  rw [valBE_bitsBE, Nat.mod_eq_of_lt x.isLt, BitVec.ofNat_toNat, BitVec.setWidth_eq]

theorem bitsBE_ofNat_valBE {s : Bits} {w : Nat} (h : s.length = w) : bitsBE (BitVec.ofNat w (valBE s)).toNat w = s := by
  have hlt := valBE_lt s
  rw [BitVec.toNat_ofNat, Nat.mod_eq_of_lt (h ▸ hlt), ← h, bitsBE_valBE]

theorem decodeCmd_of_wellFormed {op : Word} (h : (Instr.illegalCommand op).wellFormed = true) :
    decodeCmd op = .illegalCommand op := by
  obtain ⟨h1, h2⟩ : op ≠ 1#32 ∧ op ≠ 2#32 := by simpa [Instr.wellFormed, isLegalCommand] using h
  rw [decodeCmd, if_neg h1, if_neg h2]

theorem wellFormed_decodeCmd (w : Word) : (decodeCmd w).wellFormed = true := by
  unfold decodeCmd
  split
  case isTrue => rfl
  case isFalse h1 =>
    split
    case isTrue => rfl
    case isFalse h2 => simp [Instr.wellFormed, isLegalCommand, h1, h2]

theorem encode_decodeCmd (w : Word) : encode (decodeCmd w) = bitsBE w.toNat 32 := by
  unfold decodeCmd
  split
  case isTrue h1 => rw [h1]; rfl
  case isFalse =>
    split
    case isTrue h2 => rw [h2]; rfl
    case isFalse => rfl

theorem decode_cmdWord_append (w : Word) (rest : Bits) :
    decode .cmdWord (bitsBE w.toNat 32 ++ rest) = .ok (decodeCmd w, rest) := by
  have hlen : (bitsBE w.toNat 32).length = 32 := bitsBE_length _ _
  rw [decode, if_neg (by rw [List.length_append]; omega), List.take_left' hlen, List.drop_left' hlen, ofNat_valBE_bitsBE]

theorem decode_cmdWord_ok {bits rest : Bits} {i : Instr} (h : decode .cmdWord bits = .ok (i, rest)) :
    ∃ w : Word, i = decodeCmd w ∧ bits = bitsBE w.toNat 32 ++ rest := by
  rw [decode] at h
  split at h
  · cases h
  · cases h
    refine ⟨_, rfl, ?_⟩
    rw [bitsBE_ofNat_valBE (by rw [List.length_take]; omega), List.take_append_drop]

/-! ### The trailer byte as a number -/

theorem encodeStored_toNat (ignored : BitVec 7) : (encodeStored ignored).toNat = 2 * ignored.toNat := by
  have h : (encodeStored ignored).toNat = ignored.toNat <<< 1 ||| 0 := BitVec.toNat_append _ _
  rw [h, Nat.or_zero, Nat.shiftLeft_eq]
  omega

theorem encodeCompressed_toNat (pad : BitVec 4) (rsv : BitVec 3) :
    (encodeCompressed pad rsv).toNat = 16 * pad.toNat + 2 * rsv.toNat + 1 := by
  have h : (encodeCompressed pad rsv).toNat = (pad.toNat <<< 3 ||| rsv.toNat) <<< 1 ||| 1 :=
    (BitVec.toNat_append _ _).trans (by rw [BitVec.toNat_append]; rfl)
  rw [h, ← Nat.shiftLeft_add_eq_or_of_lt rsv.isLt, ← Nat.shiftLeft_add_eq_or_of_lt (by decide), Nat.shiftLeft_eq,
    Nat.shiftLeft_eq]
  omega

theorem makeTrailer_eq (p : Nat) : makeTrailer p = BitVec.ofNat 8 (16 * p + 1) := by
  rw [makeTrailer, ← Nat.shiftLeft_add_eq_or_of_lt (by decide), Nat.shiftLeft_eq, Nat.mul_comm]

/-- A field of a trailer byte (30_encoding.md R59) is a digit of its number. -/
theorem trailer_field_toNat (tr : Byte) (start len : Nat) :
    (tr.extractLsb' start len).toNat = tr.toNat / 2 ^ start % 2 ^ len := by
  rw [BitVec.extractLsb'_toNat, Nat.shiftRight_eq_div_pow]

theorem parseTrailer_eq (tr : Byte) : parseTrailer tr = (decide (tr.toNat % 2 = 1), tr.toNat / 16) := by
  have hpad : tr.toNat / 2 ^ 4 % 2 ^ 4 = tr.toNat / 16 := by have := tr.isLt; omega
  rw [parseTrailer, trailer_field_toNat, hpad, BitVec.getLsbD, Nat.testBit_zero]

/-! ### The trailer byte -/

theorem decodeTrailer_encodeStored (ignored : BitVec 7) : decodeTrailer (encodeStored ignored) = .frameStored ignored := by
  have hnat := encodeStored_toNat ignored
  have hflag : ¬ (encodeStored ignored).toNat % 2 = 1 := by omega
  have hign : (encodeStored ignored).extractLsb' 1 7 = ignored :=
    BitVec.eq_of_toNat_eq (by rw [trailer_field_toNat]; omega)
  simp [decodeTrailer, parseTrailer_eq, hflag, hign]

theorem decodeTrailer_encodeCompressed (pad : BitVec 4) (rsv : BitVec 3) :
    decodeTrailer (encodeCompressed pad rsv) = .frameCompressed pad rsv := by
  have hnat := encodeCompressed_toNat pad rsv
  have hflag : (encodeCompressed pad rsv).toNat % 2 = 1 := by omega
  have hpad : (encodeCompressed pad rsv).extractLsb' 4 4 = pad :=
    BitVec.eq_of_toNat_eq (by rw [trailer_field_toNat]; omega)
  have hrsv : (encodeCompressed pad rsv).extractLsb' 1 3 = rsv :=
    BitVec.eq_of_toNat_eq (by rw [trailer_field_toNat]; omega)
  simp [decodeTrailer, parseTrailer_eq, hflag, hpad, hrsv]

/-- No bit of a trailer is dropped: FLAG selects the instruction, and the others are its operands. -/
theorem encode_decodeTrailer (tr : Byte) : encode (decodeTrailer tr) = bitsBE tr.toNat 8 := by
  rw [decodeTrailer, parseTrailer_eq]
  split
  case isTrue hflag =>
    rw [decide_eq_true_iff] at hflag
    rw [encode, encodeCompressed_toNat, trailer_field_toNat, trailer_field_toNat]
    congr 1
    omega
  case isFalse hflag =>
    rw [decide_eq_true_iff] at hflag
    rw [encode, encodeStored_toNat, trailer_field_toNat]
    congr 1
    omega

theorem wellFormed_decodeTrailer (tr : Byte) : (decodeTrailer tr).wellFormed = true := by
  unfold decodeTrailer
  split <;> rfl

theorem decodeTrailer_space (tr : Byte) : (decodeTrailer tr).space = .frame := by
  unfold decodeTrailer
  split <;> rfl

theorem decode_frame_append (body : Bits) (tr : Byte) :
    decode .frame (body ++ bitsBE tr.toNat 8) = .ok (decodeTrailer tr, body) := by
  have hlen : (body ++ bitsBE tr.toNat 8).length = body.length + 8 := by rw [List.length_append, bitsBE_length]
  have hne : body ++ bitsBE tr.toNat 8 ≠ [] := List.ne_nil_of_length_pos (by omega)
  rw [decode, if_neg hne, if_neg (by omega), hlen, Nat.add_sub_cancel, List.drop_left, List.take_left, byteBE_bitsBE]

theorem decode_frame_ok {bits rest : Bits} {i : Instr} (h : decode .frame bits = .ok (i, rest)) :
    (i = .frameEmpty ∧ bits = [] ∧ rest = []) ∨ ∃ tr : Byte, i = decodeTrailer tr ∧ bits = rest ++ bitsBE tr.toNat 8 := by
  rw [decode] at h
  split at h
  case isTrue hnil =>
    cases h
    exact .inl ⟨rfl, hnil, rfl⟩
  case isFalse =>
    split at h
    case isTrue => cases h
    case isFalse hlen =>
      cases h
      refine .inr ⟨_, rfl, ?_⟩
      rw [bitsBE_byteBE _ (by rw [List.length_drop]; omega), List.take_append_drop]

/-! ### The tree node and the data bit -/

theorem decodeNode_leaf_append (sym : Byte) (rest : Bits) :
    decodeNode (true :: (bitsBE sym.toNat 8 ++ rest)) = .ok (.treeLeaf sym, rest) := by
  have hlen : (bitsBE sym.toNat 8).length = 8 := bitsBE_length _ _
  rw [decodeNode, if_neg (by rw [List.length_append]; omega), List.take_left' hlen, List.drop_left' hlen, byteBE_bitsBE]

theorem decodeNode_ok {bits rest : Bits} {i : Instr} (h : decodeNode bits = .ok (i, rest)) :
    (i = .treeInternal ∨ ∃ sym, i = .treeLeaf sym) ∧ bits = encode i ++ rest := by
  match bits with
  | [] => cases h
  | false :: tail =>
    cases h
    exact ⟨.inl rfl, rfl⟩
  | true :: tail =>
    rw [decodeNode] at h
    split at h
    case isTrue => cases h
    case isFalse hlen =>
      cases h
      refine ⟨.inr ⟨_, rfl⟩, ?_⟩
      rw [encode, bitsBE_byteBE _ (by rw [List.length_take]; omega), List.cons_append, List.take_append_drop]

theorem decodeData_ok {bits rest : Bits} {i : Instr} (h : decodeData bits = .ok (i, rest)) :
    (i = .dataLeft ∨ i = .dataRight) ∧ bits = encode i ++ rest := by
  match bits with
  | [] => cases h
  | false :: tail =>
    cases h
    exact ⟨.inl rfl, rfl⟩
  | true :: tail =>
    cases h
    exact ⟨.inr rfl, rfl⟩

/-! ### Decoding after encoding -/

/-- In the spaces read from the front the bits after the instruction are left. -/
theorem decode_encode_append {i : Instr} (hi : i.wellFormed = true) (hsp : i.space ≠ .frame) (rest : Bits) :
    decode i.space (encode i ++ rest) = .ok (i, rest) := by
  cases i with
  | compress => exact decode_cmdWord_append 1#32 rest
  | decompress => exact decode_cmdWord_append 2#32 rest
  | illegalCommand op => exact (decode_cmdWord_append op rest).trans (by rw [decodeCmd_of_wellFormed hi])
  | treeLeaf sym => exact decodeNode_leaf_append sym rest
  | treeInternal | dataLeft | dataRight => rfl
  | frameEmpty | frameStored | frameCompressed => exact absurd rfl hsp

/-- In a frame the body before the trailer is left. -/
theorem decode_frame_append_encode {i : Instr} (hsp : i.space = .frame) (hne : i ≠ .frameEmpty) (body : Bits) :
    decode .frame (body ++ encode i) = .ok (i, body) := by
  cases i with
  | frameEmpty => exact absurd rfl hne
  | frameStored ignored => exact (decode_frame_append body _).trans (by rw [decodeTrailer_encodeStored])
  | frameCompressed pad rsv => exact (decode_frame_append body _).trans (by rw [decodeTrailer_encodeCompressed])
  | compress | decompress | illegalCommand | treeInternal | treeLeaf | dataLeft | dataRight => cases hsp

/-- Settles O1: read from the front or from the trailer, as the space has it; alone, the instruction leaves nothing. -/
theorem decodeReadsBackEncode : Obligations.DecodeReadsBackEncode := by
  intro i hi
  refine ⟨?alone, decode_encode_append hi, decode_frame_append_encode⟩
  by_cases hsp : i.space = .frame
  · by_cases hne : i = .frameEmpty
    · rw [hne]
      rfl
    · rw [hsp]
      exact decode_frame_append_encode hsp hne []
  · rw [← List.append_nil (encode i)]
    exact decode_encode_append hi hsp []

/-- Settles O2: each space's decoder reads whole encodings. -/
theorem decodedBitsEncodeBack : Obligations.DecodedBitsEncodeBack := by
  intro sp bits rest i h
  cases sp with
  | cmdWord =>
    obtain ⟨w, rfl, rfl⟩ := decode_cmdWord_ok h
    exact ⟨wellFormed_decodeCmd w, decodeCmd_space w, fun _ => by rw [encode_decodeCmd], nofun⟩
  | frame =>
    obtain ⟨rfl, rfl, rfl⟩ | ⟨tr, rfl, rfl⟩ := decode_frame_ok h
    · exact ⟨rfl, rfl, fun hne => absurd rfl hne, fun _ => rfl⟩
    · exact ⟨wellFormed_decodeTrailer tr, decodeTrailer_space tr, fun hne => absurd rfl hne,
        fun _ => by rw [encode_decodeTrailer]⟩
  | treeNode =>
    obtain ⟨rfl | ⟨sym, rfl⟩, hbits⟩ := decodeNode_ok h
    · exact ⟨rfl, rfl, fun _ => hbits, nofun⟩
    · exact ⟨rfl, rfl, fun _ => hbits, nofun⟩
  | dataBit =>
    obtain ⟨rfl | rfl, hbits⟩ := decodeData_ok h
    · exact ⟨rfl, rfl, fun _ => hbits, nofun⟩
    · exact ⟨rfl, rfl, fun _ => hbits, nofun⟩

/-- Settles O3: each clause is one word, decoded by evaluation. -/
theorem writtenOutWordsDecode : Obligations.WrittenOutWordsDecode := by
  unfold Obligations.WrittenOutWordsDecode
  decide

/-- Settles O5: both sides of each clause are the same number. -/
theorem trailersEncodeTheFrameKinds : Obligations.TrailersEncodeTheFrameKinds := by
  refine ⟨rfl, fun p hp => ?_, fun tr => ⟨rfl, by rw [parseTrailer_eq]⟩⟩
  have hmake : (makeTrailer p).toNat = 16 * p + 1 := by
    rw [makeTrailer_eq, BitVec.toNat_ofNat, Nat.mod_eq_of_lt (by omega)]
  constructor
  · have hpad : (BitVec.ofNat 4 p).toNat = p := Nat.mod_eq_of_lt (by omega)
    exact BitVec.eq_of_toNat_eq (by rw [hmake, encodeCompressed_toNat, hpad]; rfl)
  · have hflag : (16 * p + 1) % 2 = 1 := by omega
    have hpad : (16 * p + 1) / 16 = p := by omega
    rw [parseTrailer_eq, hmake, hflag, hpad]
    rfl

end Sys2Proof
end

section
/-! PROOFS. The frames of DECOMPRESS (30_encoding.md R56-R60, R68; 44_decoder.md R98, R100): what each frame kind gives, the
regions of a compressed frame, and the bits that are not read. -/

namespace Sys2Proof.Machine

/-! ### The frame kinds on the machine -/

theorem exec_frameEmpty {s : State} {l : Latch} (hc : s.core = .busy l (.frame [])) :
    exec .frameEmpty s = .next (s.setWork l (.finished (.ok []))) :=
  onWork_next hc rfl

/-- A frame with a trailer is not empty, and its body is all but its last byte. -/
theorem exists_cons_frame (body : Bytes) (tr : Byte) :
    ∃ b rest, body ++ [tr] = b :: rest ∧ (b :: rest).dropLast = body := by
  obtain ⟨b, rest, h⟩ := List.exists_cons_of_ne_nil (List.concat_ne_nil tr body)
  exact ⟨b, rest, h, h ▸ List.dropLast_concat⟩

theorem exec_frameStored {s : State} {l : Latch} {body : Bytes} {tr : Byte}
    (hc : s.core = .busy l (.frame (body ++ [tr]))) (ignored : BitVec 7) :
    exec (.frameStored ignored) s = .next (s.setWork l (.finished (.ok body))) := by
  obtain ⟨b, rest, hframe, hbody⟩ := exists_cons_frame body tr
  rw [hframe] at hc
  exact onWork_next hc (congrArg (fun out => some (Work.finished (.ok out))) hbody)

theorem exec_frameCompressed {s : State} {l : Latch} {body : Bytes} {tr : Byte}
    (hc : s.core = .busy l (.frame (body ++ [tr]))) (pad : BitVec 4) (rsv : BitVec 3) :
    exec (.frameCompressed pad rsv) s = .next (s.setWork l (splitWork (splitBody pad.toNat body))) := by
  obtain ⟨b, rest, hframe, hbody⟩ := exists_cons_frame body tr
  rw [hframe] at hc
  refine onWork_next hc ?_
  dsimp only
  rw [hbody]
  cases splitBody pad.toNat body <;> rfl

/-- Settles O10: the two frame kinds on the machine, the trailer's bits 7:1 among the operands that do not matter. -/
theorem emptyAndStoredFramesYieldTheirBytes : Obligations.EmptyAndStoredFramesYieldTheirBytes :=
  fun _ _ => ⟨exec_frameEmpty, fun _ _ ignored hc => exec_frameStored hc ignored⟩

/-! ### The regions of a compressed frame -/

theorem splitBody_of_pad_gt {p : Nat} (hp : 7 < p) (body : Bytes) : splitBody p body = .error .corruptStream := by
  rw [splitBody, if_pos hp]

theorem splitBody_of_no_header {p : Nat} {body : Bytes} (h : 8 * body.length < p + 16) :
    splitBody p body = .error .corruptStream := by
  rw [splitBody, unpack_length, if_pos (c := _ < p + _) h, ite_self]

/-- The split reads the header and the bits after it, and none of the padding bits. -/
theorem splitBody_of_unpack {body : Bytes} {hdr rest padBits : Bits} (hbits : unpack body = hdr ++ rest ++ padBits)
    (hhdr : hdr.length = 16) (hp : padBits.length ≤ 7) :
    splitBody padBits.length body =
      if rest.length < valBE hdr then .error .corruptStream
      else .ok (rest.take (valBE hdr), rest.drop (valBE hdr)) := by
  have hkept : (hdr ++ rest ++ padBits).length - padBits.length = (hdr ++ rest).length := by
    rw [List.length_append, Nat.add_sub_cancel]
  have hsize : treeSizeOf (hdr ++ rest ++ padBits) = valBE hdr := by
    rw [treeSizeOf, List.append_assoc, List.take_left' hhdr]
  have hlen : (hdr ++ rest).length = 16 + rest.length := by rw [List.length_append, hhdr]
  have htotal : (hdr ++ rest ++ padBits).length = 16 + rest.length + padBits.length := by
    rw [List.length_append, hlen]
  have hdata : (hdr ++ rest).drop (16 + valBE hdr) = rest.drop (valBE hdr) := by
    rw [← hhdr, List.drop_length_add_append]
  have htree : (hdr ++ rest ++ padBits).drop 16 = rest ++ padBits := by
    rw [List.append_assoc, List.drop_left' hhdr]
  simp only [splitBody, hbits, hkept, hsize, List.take_left, hdata, htree, Config.padMax, Config.treeSizeWidth]
  rw [if_neg (by omega), if_neg (by omega), hlen]
  by_cases h : rest.length < valBE hdr
  · rw [if_pos (by omega), if_pos h]
  · rw [if_neg (by omega), if_neg h, List.take_append_of_le_length (by omega)]

/-- Settles O11: the clauses of `splitBody`, run by FRAME_COMPRESSED. -/
theorem compressedFrameIsSplit : Obligations.CompressedFrameIsSplit := by
  intro s l body tr pad rsv hc
  have hexec := exec_frameCompressed hc pad rsv
  refine ⟨fun hbad => ?noRoom, fun hdr rest padBits hbits hhdr hpad hle => ?regions⟩
  case noRoom =>
    have hsplit : splitBody pad.toNat body = .error .corruptStream :=
      hbad.elim (splitBody_of_pad_gt · body) splitBody_of_no_header
    rw [hexec, hsplit]
    rfl
  case regions =>
    have hsplit := splitBody_of_unpack hbits hhdr (hpad ▸ hle)
    rw [hexec, ← hpad, hsplit]
    refine ⟨fun hlt => ?_, fun hge => ?_⟩
    · rw [if_pos hlt]
      rfl
    · rw [if_neg (by omega)]
      rfl

/-! ### The bits DECOMPRESS ignores -/

theorem decompress_append_stored {tr : Byte} (hflag : tr.getLsbD 0 = false) (body : Bytes) :
    decompress (body ++ [tr]) = .ok body := by
  have hstored : ¬ (parseTrailer tr).1 = true := Bool.not_eq_true _ ▸ hflag
  simp only [decompress, List.getLast?_concat, if_neg hstored, List.dropLast_concat]

theorem decompress_append_compressed {tr : Byte} (hflag : tr.getLsbD 0 = true) (body : Bytes) :
    decompress (body ++ [tr]) =
      (splitBody (tr.extractLsb' 4 4).toNat body).bind fun regions =>
        (deserialize regions.1).bind fun tree => walk tree regions.2 := by
  have hcompressed : (parseTrailer tr).1 = true := hflag
  simp only [decompress, List.getLast?_concat, if_pos hcompressed, decompressCompressed, splitFrame, List.dropLast_concat]
  rfl

/-- The unpacked bits, cut at the end of the header and before the padding. -/
theorem unpack_eq_regions (body : Bytes) (p : Nat) :
    unpack body = ((unpack body).take (8 * body.length - p)).take 16
      ++ ((unpack body).take (8 * body.length - p)).drop 16 ++ (unpack body).drop (8 * body.length - p) := by
  rw [List.take_append_drop, List.take_append_drop]

theorem splitBody_congr {p : Nat} {body body' : Bytes} (hlen : body.length = body'.length)
    (hkept : (unpack body).take (8 * body.length - p) = (unpack body').take (8 * body.length - p)) :
    splitBody p body = splitBody p body' := by
  by_cases hp : 7 < p
  · rw [splitBody_of_pad_gt hp, splitBody_of_pad_gt hp]
  by_cases hroom : 8 * body.length < p + 16
  · rw [splitBody_of_no_header hroom, splitBody_of_no_header (hlen ▸ hroom)]
  have hpad : ((unpack body).drop (8 * body.length - p)).length = p := by
    rw [List.length_drop, unpack_length]
    omega
  have hpad' : ((unpack body').drop (8 * body'.length - p)).length = p := by
    rw [List.length_drop, unpack_length]
    omega
  have hhdr : (((unpack body).take (8 * body.length - p)).take 16).length = 16 := by
    rw [List.length_take, List.length_take, unpack_length]
    omega
  have hsplit := splitBody_of_unpack (unpack_eq_regions body p) hhdr (by omega)
  have hsplit' := splitBody_of_unpack (unpack_eq_regions body' p) (by rw [← hlen, ← hkept]; exact hhdr) (by omega)
  rw [hpad] at hsplit
  rw [hpad', ← hlen, ← hkept] at hsplit'
  rw [hsplit, hsplit']

/-- Settles O58: neither the stored output nor the regions of a compressed frame depend on the ignored bits. -/
theorem unusedFrameBitsAreIgnored : Obligations.UnusedFrameBitsAreIgnored := by
  refine ⟨fun body tr hflag => decompress_append_stored hflag body,
    fun body body' tr tr' hflag hflag' hpad hlen hkept => ?_⟩
  rw [decompress_append_compressed hflag, decompress_append_compressed hflag', ← hpad, splitBody_congr hlen hkept]

end Sys2Proof.Machine
end

section
/-! PROOFS. The form and the length of what Compress answers (43_encoder.md R93-R96), with what it needs of BuildTree
(40_prefix_tree.md R74, R75) and of the serialized length (41_tree_codec.md R81). -/

namespace Sys2Proof.Machine

/-! ### The leaves of a built tree -/

theorem extractMin_eq_none {queue : List Entry} (h : extractMin queue = none) : queue = [] := by
  cases queue with
  | nil => rfl
  | cons e es =>
    rw [extractMin] at h
    split at h
    · cases h
    · split at h <;> cases h

/-- The least entry is taken out, and the others stay. -/
theorem extractMin_perm {queue rest : List Entry} {least : Entry} (h : extractMin queue = some (least, rest)) :
    queue.Perm (least :: rest) := by
  induction queue generalizing least rest with
  | nil => cases h
  | cons e es ih =>
    rw [extractMin] at h
    split at h
    · rename_i hnone
      cases h
      rw [extractMin_eq_none hnone]
    · rename_i hes
      split at h <;> cases h
      · exact ((ih hes).cons e).trans (.swap _ _ _)
      · exact .refl _

/-- The leaves of all the trees of a node store. -/
def queueLeaves (queue : List Entry) : Nat := (queue.map (·.tree.leaves)).sum

theorem queueLeaves_of_perm {queue queue' : List Entry} (h : queue.Perm queue') : queueLeaves queue = queueLeaves queue' :=
  (h.map _).sum_eq

theorem mergeOnce_leaves {queue queue' : List Entry} {next : Nat} (h : mergeOnce queue next = some queue') :
    queueLeaves queue' = queueLeaves queue := by
  unfold mergeOnce at h
  split at h
  · cases h
  · rename_i a q1 ha
    split at h
    · cases h
    · rename_i b q2 hb
      cases h
      rw [queueLeaves_of_perm (extractMin_perm ha), queueLeaves_of_perm ((extractMin_perm hb).cons a)]
      simp only [queueLeaves, List.map_append, List.map_cons, List.map_nil, List.sum_append, List.sum_cons, List.sum_nil,
        PrefixTree.leaves]
      omega

theorem onlyTree_leaves {queue : List Entry} {tree : PrefixTree} (h : onlyTree queue = some tree) :
    tree.leaves = queueLeaves queue := by
  match queue with
  | [e] =>
    cases h
    simp [queueLeaves]
  | [] | _ :: _ :: _ => cases h

/-- The merges keep the leaves. -/
theorem mergeAll_leaves {fuel : Nat} {queue : List Entry} {next : Nat} {tree : PrefixTree}
    (h : mergeAll fuel queue next = some tree) : tree.leaves = queueLeaves queue := by
  induction fuel generalizing queue next with
  | zero => exact onlyTree_leaves h
  | succ fuel ih =>
    rw [mergeAll] at h
    split at h
    · exact onlyTree_leaves h
    · rename_i queue' hmerge
      rw [ih h, mergeOnce_leaves hmerge]

theorem initialQueue_leaf {freq : List Nat} {e : Entry} (h : e ∈ initialQueue freq) : e.tree.leaves = 1 := by
  simp only [initialQueue, List.mem_filterMap] at h
  obtain ⟨s, -, hs⟩ := h
  split at hs
  · split at hs <;> cases hs
    rfl
  · cases hs

theorem queueLeaves_initialQueue (freq : List Nat) : queueLeaves (initialQueue freq) = (initialQueue freq).length := by
  rw [queueLeaves, List.map_congr_left fun _ => initialQueue_leaf, List.map_const', List.sum_replicate, smul_eq_mul, mul_one]

/-- A built tree has at most one leaf for each symbol value (40_prefix_tree.md R75). -/
theorem buildTree_leaves_le {freq : List Nat} {tree : PrefixTree} (h : buildTree freq = some tree) : tree.leaves ≤ 256 := by
  rw [mergeAll_leaves h, queueLeaves_initialQueue]
  exact (List.length_filterMap_le _ _).trans (List.length_range (n := 256)).le

/-! ### The length of the serialized tree -/

theorem serialize_length (tree : PrefixTree) : (serialize tree).length = serializedLength tree := by
  induction tree with
  | leaf s => simp [serialize, serializedLength]
  | internal l r ihl ihr =>
    simp only [serialize, serializedLength, List.length_cons, List.length_append, ihl, ihr]
    omega

/-- Nine bits a leaf and one an internal node. -/
theorem serializedLength_eq (tree : PrefixTree) : serializedLength tree = 9 * tree.leaves + tree.internals := by
  induction tree with
  | leaf s => rfl
  | internal l r ihl ihr =>
    simp only [serializedLength, PrefixTree.leaves, PrefixTree.internals, ihl, ihr]
    omega

theorem buildTree_serializedLength_le {freq : List Nat} {tree : PrefixTree} (h : buildTree freq = some tree) :
    serializedLength tree ≤ 2559 := by
  have hleaves := buildTree_leaves_le h
  have hinternals := tree.internals_succ
  rw [serializedLength_eq]
  omega

/-! ### What Compress answers -/

theorem pack_length (bits : Bits) : (pack bits).1.length = (bits.length + 7) / 8 := by
  have hlen := congrArg List.length (unpack_pack bits)
  rw [unpack_length, List.length_append, List.length_replicate] at hlen
  obtain ⟨hpad, -⟩ := padCount_spec bits.length
  omega

/-- The frame Compress offers in place of a stored one (43_encoder.md R95 step 7). -/
def compressedFrame (tree : PrefixTree) (d : Bits) : Bytes :=
  candidate (pack (assembleFrame (serialize tree) d)).1 (pack (assembleFrame (serialize tree) d)).2

theorem assembleFrame_serialize (tree : PrefixTree) (d : Bits) :
    assembleFrame (serialize tree) d = bitsBE (serializedLength tree) 16 ++ serialize tree ++ d := by
  rw [assembleFrame, serialize_length]

theorem compressedFrame_length (tree : PrefixTree) (d : Bits) :
    (compressedFrame tree d).length = (16 + serializedLength tree + d.length + 7) / 8 + 1 := by
  rw [compressedFrame, candidate, List.length_append, List.length_singleton, pack_length, assembleFrame_serialize,
    List.length_append, List.length_append, bitsBE_length, serialize_length]

theorem checkTreeSize_ok {t : Nat} (h : t ≤ 65535) : checkTreeSize t = .ok () := by
  rw [checkTreeSize, if_neg (Nat.not_lt.mpr h)]

theorem compress_nil : compress [] = .ok [] := rfl

/-- Compress of an input whose tree and data are known: no tree COMPRESS builds is too large. -/
theorem compress_eq {data : Bytes} {tree : PrefixTree} {d : Bits} (hne : data ≠ [])
    (htree : buildTree (freqCount data) = some tree) (hd : encodeData data tree (genCodes tree) = .ok d) :
    compress data = .ok (fallbackSelect data (compressedFrame tree d)) := by
  have hsize := buildTree_serializedLength_le htree
  have hcheck : checkTreeSize (serialize tree).length = .ok () := checkTreeSize_ok (by rw [serialize_length]; omega)
  simp only [compress, if_neg hne, htree, compressWith, hd, hcheck, bind, Except.bind]
  rfl

/-- Where Compress of an input succeeds, it built a tree and encoded the data. -/
theorem compress_ok {data out : Bytes} (hne : data ≠ []) (h : compress data = .ok out) :
    ∃ tree d, buildTree (freqCount data) = some tree ∧ encodeData data tree (genCodes tree) = .ok d := by
  rw [compress, if_neg hne] at h
  split at h
  · cases h
  · rename_i tree htree
    cases hd : encodeData data tree (genCodes tree) with
    | ok d => exact ⟨tree, d, htree, hd⟩
    | error e =>
      simp only [compressWith, hd, bind, Except.bind] at h
      cases h

theorem fallbackSelect_length_le (data cand : Bytes) : (fallbackSelect data cand).length ≤ data.length + 1 := by
  rw [fallbackSelect]
  split
  · omega
  · rw [List.length_append, List.length_singleton]

theorem compress_length_le {data out : Bytes} (h : compress data = .ok out) : out.length ≤ data.length + 1 := by
  by_cases hne : data = []
  · rw [hne, compress_nil] at h
    cases h
    exact Nat.zero_le _
  · obtain ⟨tree, d, htree, hd⟩ := compress_ok hne h
    rw [compress_eq hne htree hd] at h
    cases h
    exact fallbackSelect_length_le _ _

/-- Settles O55: FallbackSelect between the two forms, by the length of the packed one. -/
theorem compressedLengthLaws : Obligations.CompressedLengthLaws := by
  intro data
  refine ⟨fun hnil => hnil ▸ compress_nil, fun tree d f hne htree hd hf => ?forms,
    fun out h => ⟨compress_length_le h, fun hne => compress_ok hne h⟩⟩
  have hlen := compressedFrame_length tree d
  have hframe : compressedFrame tree d = (pack f).1 ++ [BitVec.ofNat 8 (16 * (pack f).2 + 1)] := by
    rw [compressedFrame, assembleFrame_serialize, ← hf, candidate, makeTrailer_eq]
  rw [compress_eq hne htree hd, fallbackSelect]
  refine ⟨fun hshort => ⟨?bytes, ?length, ?flag⟩, fun hlong => ?stored⟩
  case bytes => rw [if_pos (by omega), hframe]
  case length => rw [← hlen, hframe, List.length_append, List.length_singleton]
  case flag =>
    rw [BitVec.getLsbD_ofNat, Nat.testBit_zero]
    simp only [decide_eq_true_eq, Bool.and_eq_true]
    omega
  case stored => rw [if_neg (by omega), storedTrailer]

end Sys2Proof.Machine
end

section
/-! PROOFS. FreqCount (40_prefix_tree.md R73). -/

namespace Sys2Proof.Machine

theorem freqCount_nil : freqCount [] = List.replicate 256 0 := rfl

/-- One more byte increments its own counter. -/
theorem freqCount_append_singleton (data : Bytes) (b : Byte) :
    freqCount (data ++ [b]) = (freqCount data).modify b.toNat (· + 1) := by
  rw [freqCount, List.foldl_append, freqCount, List.foldl_cons, List.foldl_nil]

@[simp] theorem freqCount_length (data : Bytes) : (freqCount data).length = 256 := by
  induction data using List.reverseRecOn with
  | nil => exact List.length_replicate
  | append_singleton data b ih => rw [freqCount_append_singleton, List.length_modify, ih]

theorem freqCount_getElem? (data : Bytes) (b : Byte) : (freqCount data)[b.toNat]? = some (data.count b) := by
  induction data using List.reverseRecOn with
  | nil => exact List.getElem?_replicate_of_lt b.isLt
  | append_singleton data c ih =>
    rw [freqCount_append_singleton, List.getElem?_modify, ih, List.count_append, List.count_singleton]
    by_cases hcb : c = b
    · simp [hcb]
    · simp [hcb, BitVec.toNat_inj]

theorem sum_modify_succ {freq : List Nat} {i : Nat} (hi : i < freq.length) :
    (freq.modify i (· + 1)).sum = freq.sum + 1 := by
  induction freq generalizing i with
  | nil => cases hi
  | cons f freq ih =>
    cases i with
    | zero =>
      rw [List.modify_zero_cons, List.sum_cons, List.sum_cons]
      omega
    | succ i =>
      rw [List.modify_succ_cons, List.sum_cons, List.sum_cons, ih (Nat.lt_of_succ_lt_succ hi)]
      omega

theorem freqCount_sum (data : Bytes) : (freqCount data).sum = data.length := by
  induction data using List.reverseRecOn with
  | nil => rw [freqCount_nil, List.sum_replicate, smul_zero, List.length_nil]
  | append_singleton data b ih =>
    rw [freqCount_append_singleton, sum_modify_succ (by simpa using b.isLt), ih, List.length_append, List.length_singleton]

/-- Settles O43: the counters are followed byte by byte, and a counter is at most their sum. -/
theorem frequenciesCountTheInput : Obligations.FrequenciesCountTheInput := by
  refine fun data => ⟨freqCount_length data, freqCount_sum data, freqCount_getElem? data, fun p hp hlen f hf => ?_⟩
  have hsum : f ≤ data.length := freqCount_sum data ▸ List.le_sum_of_mem hf
  obtain ⟨-, -, hwidth⟩ := hp
  exact (hsum.trans hlen).trans_lt hwidth

end Sys2Proof.Machine
end

section
/-! PROOFS. BuildTree (40_prefix_tree.md R74, R75): the order of its entries, its merges and its shape. -/

namespace Sys2Proof.Machine

/-! ### The least entry -/

/-- The place of an entry in the order of BuildTree: by weight, then by key. -/
def Entry.rank (e : Entry) : ℕ ×ₗ ℕ := toLex (e.weight, e.key)

theorem Entry.rank_lt_iff {a b : Entry} :
    a.rank < b.rank ↔ a.weight < b.weight ∨ a.weight = b.weight ∧ a.key < b.key :=
  Prod.Lex.toLex_lt_toLex

theorem Entry.before_iff_rank_lt {a b : Entry} : a.before b = true ↔ a.rank < b.rank := by
  simp [Entry.before, Entry.rank_lt_iff]

theorem Entry.rank_lt_of_le_of_ne {a b : Entry} (hle : a.rank ≤ b.rank) (hkey : a.key ≠ b.key) : a.rank < b.rank :=
  lt_of_le_of_ne hle fun heq => hkey (congrArg (fun r => (ofLex r).2) heq)

/-- The entry taken out is the least, and the others keep their order. -/
theorem extractMin_least {queue rest : List Entry} {least : Entry} (h : extractMin queue = some (least, rest)) :
    rest.Sublist queue ∧ ∀ e ∈ rest, least.rank ≤ e.rank := by
  induction queue generalizing least rest with
  | nil => cases h
  | cons e es ih =>
    rw [extractMin] at h
    split at h
    · cases h
      exact ⟨List.nil_sublist _, by simp⟩
    · rename_i m others hes
      obtain ⟨hsub, hle⟩ := ih hes
      split at h <;> cases h
      · rename_i hbefore
        have hlt := Entry.before_iff_rank_lt.mp hbefore
        exact ⟨hsub.cons_cons e, List.forall_mem_cons.mpr ⟨hlt.le, hle⟩⟩
      · rename_i hbefore
        have hm : e.rank ≤ m.rank := not_lt.mp (mt Entry.before_iff_rank_lt.mpr hbefore)
        refine ⟨List.sublist_cons_self e es, fun x hx => ?_⟩
        rcases List.mem_cons.mp ((extractMin_perm hes).subset hx) with rfl | hx
        · exact hm
        · exact hm.trans (hle x hx)

theorem exists_extractMin {queue : List Entry} (h : queue ≠ []) : ∃ least rest, extractMin queue = some (least, rest) := by
  cases hmin : extractMin queue with
  | none => exact absurd (extractMin_eq_none hmin) h
  | some found => exact ⟨found.1, found.2, rfl⟩

/-! ### One merge -/

/-- The entry a merge adds: a on the left and b on the right. -/
def Entry.merged (a b : Entry) (next : Nat) : Entry :=
  { weight := a.weight + b.weight, key := next, tree := .internal a.tree b.tree }

theorem mergeOnce_eq {queue rest others : List Entry} {a b : Entry} (ha : extractMin queue = some (a, rest))
    (hb : extractMin rest = some (b, others)) (next : Nat) :
    mergeOnce queue next = some (others ++ [a.merged b next]) := by
  simp [mergeOnce, ha, hb, Entry.merged]

/-- Where a merge answers, it took the two least entries. -/
theorem mergeOnce_some {queue queue' : List Entry} {next : Nat} (h : mergeOnce queue next = some queue') :
    ∃ a b rest others, extractMin queue = some (a, rest) ∧ extractMin rest = some (b, others)
      ∧ queue' = others ++ [a.merged b next] := by
  unfold mergeOnce at h
  split at h
  · cases h
  · rename_i a rest ha
    split at h
    · cases h
    · rename_i b others hb
      cases h
      exact ⟨a, b, rest, others, ha, hb, rfl⟩

theorem exists_extractMin_twice {queue : List Entry} (h : 2 ≤ queue.length) :
    ∃ a b rest others, extractMin queue = some (a, rest) ∧ extractMin rest = some (b, others) := by
  obtain ⟨a, rest, ha⟩ := exists_extractMin (queue := queue) (List.ne_nil_of_length_pos (by omega))
  have hlen := extractMin_length ha
  obtain ⟨b, others, hb⟩ := exists_extractMin (queue := rest) (List.ne_nil_of_length_pos (by omega))
  exact ⟨a, b, rest, others, ha, hb⟩

/-- A merge takes the two least entries of a store with unrepeated keys (40_prefix_tree.md R74). -/
theorem mergeOnce_takes_least {queue : List Entry} (next : Nat) (hlen : 2 ≤ queue.length)
    (hkeys : (queue.map (·.key)).Nodup) :
    ∃ (a b : Entry) (others : List Entry), queue.Perm (a :: b :: others) ∧ others.Sublist queue
      ∧ (∀ e ∈ b :: others, a.rank < e.rank) ∧ (∀ e ∈ others, b.rank < e.rank)
      ∧ mergeOnce queue next = some (others ++ [a.merged b next]) := by
  obtain ⟨a, b, rest, others, ha, hb⟩ := exists_extractMin_twice hlen
  obtain ⟨hsubA, hleA⟩ := extractMin_least ha
  obtain ⟨hsubB, hleB⟩ := extractMin_least hb
  have hrest := extractMin_perm hb
  have hperm := (extractMin_perm ha).trans (hrest.cons a)
  have hnodup : (a.key :: b.key :: others.map (·.key)).Nodup := (hperm.map fun e : Entry => e.key).nodup hkeys
  obtain ⟨hneA, hnodup'⟩ := List.nodup_cons.mp hnodup
  obtain ⟨hneB, -⟩ := List.nodup_cons.mp hnodup'
  refine ⟨a, b, others, hperm, hsubB.trans hsubA, fun e he => ?_, fun e he => ?_, mergeOnce_eq ha hb next⟩
  · have hkey : a.key ≠ e.key := fun heq => hneA (heq ▸ List.mem_map_of_mem (f := (·.key)) he)
    exact Entry.rank_lt_of_le_of_ne (hleA e (hrest.mem_iff.mpr he)) hkey
  · have hkey : b.key ≠ e.key := fun heq => hneB (heq ▸ List.mem_map_of_mem (f := (·.key)) he)
    exact Entry.rank_lt_of_le_of_ne (hleB e he) hkey

/-! ### The loop -/

theorem mergeAll_succ_of_none {fuel next : Nat} {queue : List Entry} (h : mergeOnce queue next = none) :
    mergeAll (fuel + 1) queue next = onlyTree queue := by
  rw [mergeAll, h]

theorem mergeAll_succ_of_some {fuel next : Nat} {queue queue' : List Entry} (h : mergeOnce queue next = some queue') :
    mergeAll (fuel + 1) queue next = mergeAll fuel queue' (next + 1) := by
  rw [mergeAll, h]

/-- A store of as many entries as there are rounds needs no round more. -/
theorem mergeAll_succ {fuel next : Nat} {queue : List Entry} (h : queue.length ≤ fuel) :
    mergeAll (fuel + 1) queue next = mergeAll fuel queue next := by
  induction fuel generalizing queue next with
  | zero =>
    rw [List.eq_nil_of_length_eq_zero (Nat.le_zero.mp h)]
    rfl
  | succ fuel ih =>
    cases hmerge : mergeOnce queue next with
    | none => rw [mergeAll_succ_of_none hmerge, mergeAll_succ_of_none hmerge]
    | some queue' =>
      have hlen := mergeOnce_length hmerge
      rw [mergeAll_succ_of_some hmerge, mergeAll_succ_of_some hmerge, ih (by omega)]

/-- A merge does not change the tree to come. -/
theorem mergeAll_of_mergeOnce {fuel next : Nat} {queue queue' : List Entry} (hfuel : queue.length ≤ fuel)
    (h : mergeOnce queue next = some queue') : mergeAll fuel queue next = mergeAll fuel queue' (next + 1) := by
  have hlen := mergeOnce_length h
  rw [← mergeAll_succ hfuel, mergeAll_succ_of_some h]

theorem mergeAll_singleton (fuel next : Nat) (e : Entry) : mergeAll fuel [e] next = some e.tree := by
  cases fuel <;> rfl

/-- The loop ends with a tree. -/
theorem exists_mergeAll {fuel next : Nat} {queue : List Entry} (hne : queue ≠ []) (hfuel : queue.length ≤ fuel) :
    ∃ tree, mergeAll fuel queue next = some tree := by
  induction fuel generalizing queue next with
  | zero => exact absurd (List.eq_nil_of_length_eq_zero (Nat.le_zero.mp hfuel)) hne
  | succ fuel ih =>
    by_cases htwo : 2 ≤ queue.length
    · obtain ⟨a, b, rest, others, ha, hb⟩ := exists_extractMin_twice htwo
      have hmerge := mergeOnce_eq ha hb next
      have hlen := mergeOnce_length hmerge
      rw [mergeAll_succ_of_some hmerge]
      exact ih (by simp) (by omega)
    · have hpos := List.length_pos_of_ne_nil hne
      obtain ⟨e, rfl⟩ := List.length_eq_one_iff.mp (show queue.length = 1 by omega)
      exact ⟨e.tree, mergeAll_singleton _ _ e⟩

/-! ### The symbols of a store -/

/-- The symbols of all the trees of a node store. -/
def queueSymbols (queue : List Entry) : Bytes := queue.flatMap (·.tree.symbols)

/-- A merge moves symbols and loses none. -/
theorem mergeOnce_symbols {queue queue' : List Entry} {next : Nat} (h : mergeOnce queue next = some queue') :
    (queueSymbols queue').Perm (queueSymbols queue) := by
  obtain ⟨a, b, rest, others, ha, hb, rfl⟩ := mergeOnce_some h
  have hperm := (extractMin_perm ha).trans ((extractMin_perm hb).cons a)
  have hsymbols : queueSymbols (a :: b :: others) = (a.tree.symbols ++ b.tree.symbols) ++ queueSymbols others := by
    simp [queueSymbols]
  have hsymbols' : queueSymbols (others ++ [a.merged b next]) = queueSymbols others ++ (a.tree.symbols ++ b.tree.symbols) := by
    simp [queueSymbols, Entry.merged, PrefixTree.symbols]
  rw [hsymbols']
  exact List.perm_append_comm.trans (hsymbols ▸ (hperm.flatMap_right _).symm)

theorem onlyTree_symbols {queue : List Entry} {tree : PrefixTree} (h : onlyTree queue = some tree) :
    tree.symbols = queueSymbols queue := by
  match queue with
  | [e] =>
    cases h
    simp [queueSymbols]
  | [] | _ :: _ :: _ => cases h

theorem mergeAll_symbols {fuel next : Nat} {queue : List Entry} {tree : PrefixTree}
    (h : mergeAll fuel queue next = some tree) : tree.symbols.Perm (queueSymbols queue) := by
  induction fuel generalizing queue next with
  | zero => exact .of_eq (onlyTree_symbols h)
  | succ fuel ih =>
    cases hmerge : mergeOnce queue next with
    | none => exact .of_eq (onlyTree_symbols (mergeAll_succ_of_none hmerge ▸ h))
    | some queue' => exact (ih (mergeAll_succ_of_some hmerge ▸ h)).trans (mergeOnce_symbols hmerge)

/-! ### The initial store -/

/-- The entry of a symbol's counter in the initial store. -/
def Entry.initial (b : Byte) (w : Nat) : Entry := { weight := w, key := b.toNat, tree := .leaf b }

/-- The entry of a counter in the initial store, if it is not zero. -/
def initialEntry (freq : List Nat) (s : Nat) : Option Entry :=
  (freq[s]?.filter (0 < ·)).map fun w => { weight := w, key := s, tree := .leaf (BitVec.ofNat 8 s) }

theorem initialQueue_eq (freq : List Nat) : initialQueue freq = (List.range 256).filterMap (initialEntry freq) := by
  rw [initialQueue]
  congr 1
  funext s
  rw [initialEntry]
  cases freq[s]? with
  | none => rfl
  | some w => by_cases hw : 0 < w <;> simp [hw, Option.filter]

theorem initialEntry_eq_some {freq : List Nat} {s : Nat} {e : Entry} : initialEntry freq s = some e ↔
    ∃ w, freq[s]? = some w ∧ 0 < w ∧ { weight := w, key := s, tree := .leaf (BitVec.ofNat 8 s) } = e := by
  simp [initialEntry, Option.filter_eq_some_iff, and_assoc]

theorem mem_initialQueue {freq : List Nat} {e : Entry} : e ∈ initialQueue freq ↔ ∃ (b : Byte) (w : Nat),
    freq[b.toNat]? = some w ∧ 0 < w ∧ e = { weight := w, key := b.toNat, tree := .leaf b } := by
  simp only [initialQueue_eq, List.mem_filterMap, List.mem_range, initialEntry_eq_some]
  constructor
  · rintro ⟨s, hs, w, hw, hpos, rfl⟩
    have hbyte : (BitVec.ofNat 8 s).toNat = s := Nat.mod_eq_of_lt hs
    exact ⟨BitVec.ofNat 8 s, w, by rwa [hbyte], hpos, by rw [hbyte]⟩
  · rintro ⟨b, w, hw, hpos, rfl⟩
    exact ⟨b.toNat, b.isLt, w, hw, hpos, by rw [BitVec.ofNat_toNat, BitVec.setWidth_eq]⟩

/-- The keys of the initial store rise, since its entries are in symbol order. -/
theorem initialQueue_keys_pairwise (freq : List Nat) : ((initialQueue freq).map (·.key)).Pairwise (· < ·) := by
  rw [List.pairwise_map, initialQueue_eq, List.pairwise_filterMap]
  refine List.pairwise_lt_range.imp fun hlt e he e' he' => ?_
  obtain ⟨w, -, -, rfl⟩ := initialEntry_eq_some.mp he
  obtain ⟨w', -, -, rfl⟩ := initialEntry_eq_some.mp he'
  exact hlt

theorem mem_queueSymbols_initialQueue {freq : List Nat} {b : Byte} :
    b ∈ queueSymbols (initialQueue freq) ↔ ∃ f, freq[b.toNat]? = some f ∧ 0 < f := by
  rw [queueSymbols, List.mem_flatMap]
  constructor
  · rintro ⟨e, he, hb⟩
    obtain ⟨c, w, hw, hpos, rfl⟩ := mem_initialQueue.mp he
    obtain rfl := List.mem_singleton.mp hb
    exact ⟨w, hw, hpos⟩
  · rintro ⟨w, hw, hpos⟩
    exact ⟨_, mem_initialQueue.mpr ⟨b, w, hw, hpos, rfl⟩, List.mem_singleton_self b⟩

/-- No symbol is twice in the initial store. -/
theorem queueSymbols_initialQueue_nodup (freq : List Nat) : (queueSymbols (initialQueue freq)).Nodup := by
  rw [queueSymbols, List.nodup_flatMap]
  refine ⟨fun e he => ?_, ((List.pairwise_map.mp (initialQueue_keys_pairwise freq)).imp_of_mem ?_)⟩
  · obtain ⟨b, w, -, -, rfl⟩ := mem_initialQueue.mp he
    exact List.nodup_singleton b
  · intro e e' he he' hlt
    obtain ⟨b, w, -, -, rfl⟩ := mem_initialQueue.mp he
    obtain ⟨b', w', -, -, rfl⟩ := mem_initialQueue.mp he'
    have hne : b ≠ b' := fun heq => absurd hlt (heq ▸ lt_irrefl _)
    exact fun c hc hc' => hne ((List.mem_singleton.mp hc).symm.trans (List.mem_singleton.mp hc'))

/-! ### The built tree -/

theorem exists_buildTree {freq : List Nat} (hlen : freq.length = 256) (hpos : ∃ f ∈ freq, 0 < f) :
    ∃ tree, buildTree freq = some tree := by
  obtain ⟨f, hf, hf0⟩ := hpos
  obtain ⟨s, hs, rfl⟩ := List.getElem_of_mem hf
  have hbyte : (BitVec.ofNat 8 s).toNat = s := Nat.mod_eq_of_lt (by rwa [hlen] at hs)
  have hmem := mem_initialQueue.mpr ⟨BitVec.ofNat 8 s, freq[s], by rw [hbyte, List.getElem?_eq_getElem hs], hf0, rfl⟩
  exact exists_mergeAll (List.ne_nil_of_mem hmem) le_rfl

theorem buildTree_symbols_nodup {freq : List Nat} {tree : PrefixTree} (h : buildTree freq = some tree) :
    tree.symbols.Nodup :=
  (mergeAll_symbols h).nodup_iff.mpr (queueSymbols_initialQueue_nodup freq)

theorem mem_buildTree_symbols {freq : List Nat} {tree : PrefixTree} (h : buildTree freq = some tree) {b : Byte} :
    b ∈ tree.symbols ↔ ∃ f, freq[b.toNat]? = some f ∧ 0 < f :=
  (mergeAll_symbols h).mem_iff.trans mem_queueSymbols_initialQueue

/-- Settles O44: the loop by induction on its rounds, and the tree's symbols as those of the initial store, which every
merge keeps. -/
theorem builtTreeHasOneLeafForEachSymbol : Obligations.BuiltTreeHasOneLeafForEachSymbol := by
  refine ⟨fun freq => ⟨rfl, initialQueue_keys_pairwise freq, fun e => mem_initialQueue⟩,
    fun fuel queue next hfuel => ⟨fun queue' => mergeAll_of_mergeOnce hfuel, fun e he => ?last⟩,
    fun queue next hlen hkeys => ?merge, fun freq hlen => ⟨exists_buildTree hlen, fun tree h =>
      ⟨buildTree_symbols_nodup h, fun b => mem_buildTree_symbols h, ?shape⟩⟩⟩
  case last => exact he ▸ mergeAll_singleton fuel next e
  case merge =>
    simpa only [Entry.rank_lt_iff, Entry.merged] using mergeOnce_takes_least next hlen hkeys
  case shape =>
    have hleaves := buildTree_leaves_le h
    have hinternals := tree.internals_succ
    omega

end Sys2Proof.Machine
end

section
/-! PROOFS. GenCodes (40_prefix_tree.md R76-R78): every code leads to its symbol's leaf, and the codes fill the code
space. -/

namespace Sys2Proof.Machine

/-! ### Maps as lists of entries -/

section
variable {α : Type}

theorem mem_of_mapGet {k : Nat} {v : α} {m : List (Nat × α)} (h : mapGet k m = some v) : (k, v) ∈ m := by
  induction m with
  | nil => cases h
  | cons e rest ih =>
    obtain ⟨j, w⟩ := e
    rw [mapGet] at h
    split at h
    · rename_i hj
      cases h
      exact hj ▸ List.mem_cons_self
    · exact List.mem_cons_of_mem _ (ih h)

theorem mem_mapSet {k : Nat} {v : α} {m : List (Nat × α)} {e : Nat × α} (h : e ∈ mapSet k v m) :
    e = (k, v) ∨ e ∈ m := by
  induction m with
  | nil => exact .inl (List.mem_singleton.mp h)
  | cons e' rest ih =>
    rw [mapSet] at h
    split at h
    · exact List.mem_cons.mp h
    · split at h
      · exact (List.mem_cons.mp h).imp_right (List.mem_cons_of_mem _)
      · rcases List.mem_cons.mp h with rfl | h
        · exact .inr List.mem_cons_self
        · exact (ih h).imp_right (List.mem_cons_of_mem _)

/-- Under a key not listed, a write adds an entry. -/
theorem mapSet_perm {k : Nat} {m : List (Nat × α)} (hk : mapGet k m = none) (v : α) :
    (mapSet k v m).Perm ((k, v) :: m) := by
  induction m with
  | nil => exact .refl _
  | cons e rest ih =>
    obtain ⟨j, w⟩ := e
    rw [mapGet] at hk
    split at hk
    · cases hk
    · rename_i hjk
      rw [mapSet]
      split
      · exact .refl _
      · rw [if_neg (Ne.symm hjk)]
        exact ((ih hk).cons _).trans (.swap _ _ _)

end

/-! ### Paths in a tree -/

theorem PrefixTree.follow_append (t : PrefixTree) (path rest : Bits) :
    t.follow (path ++ rest) = (t.follow path).bind (·.follow rest) := by
  induction path generalizing t with
  | nil => cases t <;> simp [PrefixTree.follow]
  | cons b path ih =>
    cases t with
    | leaf s => rfl
    | internal l r => exact ih _

/-- No path goes on from a leaf. -/
theorem PrefixTree.follow_leaf {s : Byte} {path : Bits} {t : PrefixTree} (h : (PrefixTree.leaf s).follow path = some t) :
    path = [] ∧ t = .leaf s := by
  cases path with
  | nil => exact ⟨rfl, (Option.some.inj h).symm⟩
  | cons b path => cases h

theorem PrefixTree.mem_symbols_of_follow {t : PrefixTree} {path : Bits} {s : Byte} (h : t.follow path = some (.leaf s)) :
    s ∈ t.symbols := by
  induction t generalizing path with
  | leaf s' =>
    obtain ⟨-, heq⟩ := follow_leaf h
    cases heq
    exact List.mem_singleton_self s
  | internal l r ihl ihr =>
    match path with
    | false :: path => exact List.mem_append_left _ (ihl h)
    | true :: path => exact List.mem_append_right _ (ihr h)

theorem PrefixTree.length_le_depth_of_follow {t u : PrefixTree} {path : Bits} (h : t.follow path = some u) :
    path.length ≤ t.depth := by
  induction t generalizing path with
  | leaf s =>
    obtain ⟨rfl, -⟩ := follow_leaf h
    exact Nat.zero_le _
  | internal l r ihl ihr =>
    match path with
    | [] => exact Nat.zero_le _
    | false :: path =>
      have := ihl h
      simp only [List.length_cons, PrefixTree.depth]
      omega
    | true :: path =>
      have := ihr h
      simp only [List.length_cons, PrefixTree.depth]
      omega

/-- A full tree of k leaves has at most k - 1 levels below its root (40_prefix_tree.md R78). -/
theorem PrefixTree.depth_lt_leaves (t : PrefixTree) : t.depth < t.leaves := by
  induction t with
  | leaf s => exact Nat.zero_lt_one
  | internal l r ihl ihr =>
    simp only [PrefixTree.depth, PrefixTree.leaves]
    omega

/-- In a tree of two or more leaves a path to a leaf has a step. -/
theorem PrefixTree.length_pos_of_follow_leaf {t : PrefixTree} {path : Bits} {s : Byte} (ht : 2 ≤ t.leaves)
    (h : t.follow path = some (.leaf s)) : 1 ≤ path.length := by
  cases path with
  | nil =>
    obtain rfl : t = .leaf s := by simpa [PrefixTree.follow] using h
    simp [PrefixTree.leaves] at ht
  | cons b path => exact Nat.succ_pos _

/-! ### The code table -/

/-- An entry of the walk's table was there before, or has a code that leads to its symbol's leaf. -/
theorem mem_genCodesFrom {t : PrefixTree} {path : Bits} {codes : CodeTable} {e : Nat × Bits}
    (h : e ∈ genCodesFrom t path codes) :
    e ∈ codes ∨ ∃ (s : Byte) (below : Bits), e = (s.toNat, path ++ below) ∧ t.follow below = some (.leaf s) := by
  induction t generalizing path codes with
  | leaf s =>
    rcases mem_mapSet h with rfl | h
    · exact .inr ⟨s, [], by rw [List.append_nil], rfl⟩
    · exact .inl h
  | internal l r ihl ihr =>
    rcases ihr h with h | ⟨s, below, rfl, hs⟩
    · rcases ihl h with h | ⟨s, below, rfl, hs⟩
      · exact .inl h
      · exact .inr ⟨s, false :: below, by rw [List.append_assoc, List.singleton_append], hs⟩
    · exact .inr ⟨s, true :: below, by rw [List.append_assoc, List.singleton_append], hs⟩

theorem mem_genCodes {tree : PrefixTree} {e : Nat × Bits} (h : e ∈ genCodes tree) :
    ∃ s : Byte, e.1 = s.toNat ∧ tree.follow e.2 = some (.leaf s) := by
  rcases mem_genCodesFrom h with h | ⟨s, below, rfl, hs⟩
  · cases h
  · exact ⟨s, rfl, hs⟩

theorem follow_of_mapGet_genCodes {tree : PrefixTree} {k : Nat} {code : Bits} (h : mapGet k (genCodes tree) = some code) :
    ∃ s : Byte, k = s.toNat ∧ tree.follow code = some (.leaf s) :=
  mem_genCodes (mem_of_mapGet h)

/-- The walk leaves every key alone that is no symbol of its tree. -/
theorem mapGet_genCodesFrom_of_notMem {t : PrefixTree} {b : Byte} (hb : b ∉ t.symbols) (path : Bits) (codes : CodeTable) :
    mapGet b.toNat (genCodesFrom t path codes) = mapGet b.toNat codes := by
  induction t generalizing path codes with
  | leaf s =>
    have hne : b.toNat ≠ s.toNat := mt BitVec.eq_of_toNat_eq (mt List.mem_singleton.mpr hb)
    exact mapGet_mapSet_of_ne hne _ _
  | internal l r ihl ihr =>
    rw [PrefixTree.symbols, List.mem_append, not_or] at hb
    obtain ⟨hl, hr⟩ := hb
    rw [genCodesFrom, ihr hr, ihl hl]

theorem exists_mapGet_genCodesFrom {t : PrefixTree} {b : Byte} (hb : b ∈ t.symbols) (path : Bits) (codes : CodeTable) :
    ∃ code, mapGet b.toNat (genCodesFrom t path codes) = some code := by
  induction t generalizing path codes with
  | leaf s =>
    obtain rfl := List.mem_singleton.mp hb
    exact ⟨path, mapGet_mapSet_self _ _ _⟩
  | internal l r ihl ihr =>
    rw [genCodesFrom]
    by_cases hr : b ∈ r.symbols
    · exact ihr hr _ _
    · rw [mapGet_genCodesFrom_of_notMem hr]
      exact ihl ((List.mem_append.mp hb).resolve_right hr) _ _

/-- Settles O45: the walk lists each leaf under its symbol, with the path it took. -/
theorem codesLeadToTheirLeaves : Obligations.CodesLeadToTheirLeaves := by
  intro tree _ b
  have hleads : ∀ code, mapGet b.toNat (genCodes tree) = some code → tree.follow code = some (.leaf b) := by
    intro code hcode
    obtain ⟨s, hs, hfollow⟩ := follow_of_mapGet_genCodes hcode
    exact BitVec.eq_of_toNat_eq hs ▸ hfollow
  refine ⟨⟨fun hb => exists_mapGet_genCodesFrom hb [] [], fun ⟨code, hcode⟩ => ?_⟩, hleads⟩
  exact PrefixTree.mem_symbols_of_follow (hleads code hcode)

/-- Settles O46: a code that goes on from another's leaf goes nowhere. -/
theorem codesArePrefixFree : Obligations.CodesArePrefixFree := by
  intro tree htree a codeA hA
  obtain ⟨s, rfl, hs⟩ := follow_of_mapGet_genCodes hA
  refine ⟨PrefixTree.length_pos_of_follow_leaf htree hs, fun b codeB hne hB hprefix => hne ?_⟩
  obtain ⟨s', rfl, hs'⟩ := follow_of_mapGet_genCodes hB
  obtain ⟨rest, rfl⟩ := hprefix
  rw [PrefixTree.follow_append, hs] at hs'
  obtain ⟨-, heq⟩ := PrefixTree.follow_leaf hs'
  cases heq
  rfl

/-! ### The code space -/

/-- The share a table takes of a code space of `2 ^ bits`: the left side of the Kraft equality (40_prefix_tree.md R78),
scaled by the size of the space. -/
def codeSpace (bits : Nat) (codes : CodeTable) : Nat := (codes.map fun e => 2 ^ (bits - e.2.length)).sum

theorem codeSpace_mapSet {k bits : Nat} {codes : CodeTable} (hk : mapGet k codes = none) (code : Bits) :
    codeSpace bits (mapSet k code codes) = codeSpace bits codes + 2 ^ (bits - code.length) := by
  rw [codeSpace, ((mapSet_perm hk code).map _).sum_eq, List.map_cons, List.sum_cons, Nat.add_comm, codeSpace]

/-- The codes the walk lists below a path take all of the path's share. -/
theorem codeSpace_genCodesFrom {t : PrefixTree} {bits : Nat} {path : Bits} {codes : CodeTable}
    (hnodup : t.symbols.Nodup) (hnew : ∀ b ∈ t.symbols, mapGet b.toNat codes = none)
    (hbits : path.length + t.depth ≤ bits) :
    codeSpace bits (genCodesFrom t path codes) = codeSpace bits codes + 2 ^ (bits - path.length) := by
  induction t generalizing path codes with
  | leaf s => exact codeSpace_mapSet (hnew s (List.mem_singleton_self s)) path
  | internal l r ihl ihr =>
    obtain ⟨hl, hr, hdisj⟩ := List.nodup_append'.mp hnodup
    have hnewL : ∀ b ∈ l.symbols, mapGet b.toNat codes = none := fun b hb => hnew b (List.mem_append_left _ hb)
    have hnewR : ∀ b ∈ r.symbols, mapGet b.toNat (genCodesFrom l (path ++ [false]) codes) = none := fun b hb => by
      rw [mapGet_genCodesFrom_of_notMem fun hbl => hdisj hbl hb]
      exact hnew b (List.mem_append_right _ hb)
    rw [PrefixTree.depth] at hbits
    have hhalf : 2 ^ (bits - path.length) = 2 ^ (bits - (path.length + 1)) + 2 ^ (bits - (path.length + 1)) := by
      rw [show bits - path.length = bits - (path.length + 1) + 1 by omega, pow_succ, mul_two]
    have hdepthL : (path ++ [false]).length + l.depth ≤ bits := by simp only [List.length_append, List.length_singleton]; omega
    have hdepthR : (path ++ [true]).length + r.depth ≤ bits := by simp only [List.length_append, List.length_singleton]; omega
    rw [genCodesFrom, ihr hr hnewR hdepthR, ihl hl hnewL hdepthL, List.length_append, List.length_append,
      List.length_singleton, List.length_singleton, hhalf, Nat.add_assoc]

theorem codeSpace_genCodes {tree : PrefixTree} {bits : Nat} (hnodup : tree.symbols.Nodup) (hbits : tree.depth ≤ bits) :
    codeSpace bits (genCodes tree) = 2 ^ bits := by
  rw [genCodes, codeSpace_genCodesFrom hnodup (fun b _ => rfl) (by simpa using hbits)]
  simp [codeSpace]

/-- Settles O47: a code is a path of at most the tree's depth, and the two subtrees of a node halve its share of the code
space. -/
theorem codeLengthsFillTheCodeSpace : Obligations.CodeLengthsFillTheCodeSpace := by
  intro freq tree _ hbuild htwo
  have hdepth := tree.depth_lt_leaves
  have hleaves := buildTree_leaves_le hbuild
  refine ⟨fun e he => ?_, codeSpace_genCodes (buildTree_symbols_nodup hbuild) (by omega)⟩
  obtain ⟨s, -, hs⟩ := mem_genCodes he
  have hlen := PrefixTree.length_le_depth_of_follow hs
  exact ⟨PrefixTree.length_pos_of_follow_leaf htwo hs, by omega, by omega⟩

end Sys2Proof.Machine
end

section
/-! PROOFS. The codes of 256 equal counts (40_prefix_tree.md R78): BuildTree merges level by level to a complete tree. -/

namespace Sys2Proof.Machine

/-! ### A store in order -/

theorem extractMin_cons_of_le {e : Entry} {es : List Entry} (h : ∀ x ∈ es, e.rank ≤ x.rank) :
    extractMin (e :: es) = some (e, es) := by
  rw [extractMin]
  cases hes : extractMin es with
  | none => rw [extractMin_eq_none hes]
  | some found =>
    have hle := h _ ((extractMin_perm hes).mem_iff.mpr List.mem_cons_self)
    exact if_neg (mt Entry.before_iff_rank_lt.mp hle.not_gt)

/-- In a store in order a merge takes the first two entries. -/
theorem mergeOnce_of_pairwise {a b : Entry} {queue : List Entry} (next : Nat)
    (h : (a :: b :: queue).Pairwise fun x y => x.rank < y.rank) :
    mergeOnce (a :: b :: queue) next = some (queue ++ [a.merged b next]) := by
  obtain ⟨ha, hrest⟩ := List.pairwise_cons.mp h
  obtain ⟨hb, -⟩ := List.pairwise_cons.mp hrest
  exact mergeOnce_eq (extractMin_cons_of_le fun x hx => (ha x hx).le) (extractMin_cons_of_le fun x hx => (hb x hx).le) next

/-! ### The levels of a complete tree -/

/-- The complete tree of depth `d` that stands at place `i` among those of its depth: its leaves are the symbols from
`i * 2 ^ d` on, in order. -/
def completeTree : Nat → Nat → PrefixTree
  | 0, i => .leaf (BitVec.ofNat 8 i)
  | d + 1, i => .internal (completeTree d (2 * i)) (completeTree d (2 * i + 1))

/-- A path to a leaf of a complete tree writes the leaf's place. -/
theorem follow_completeTree {d i : Nat} {path : Bits} {b : Byte} (h : (completeTree d i).follow path = some (.leaf b)) :
    path.length = d ∧ b = BitVec.ofNat 8 (i * 2 ^ d + valBE path) := by
  induction d generalizing i path with
  | zero =>
    obtain ⟨rfl, heq⟩ := PrefixTree.follow_leaf h
    cases heq
    simp [valBE]
  | succ d ih =>
    match path with
    | false :: path =>
      obtain ⟨hlen, hb⟩ := ih h
      refine ⟨congrArg (· + 1) hlen, hb.trans (congrArg _ ?_)⟩
      rw [valBE_cons, hlen, Bool.toNat_false]
      ring
    | true :: path =>
      obtain ⟨hlen, hb⟩ := ih h
      refine ⟨congrArg (· + 1) hlen, hb.trans (congrArg _ ?_)⟩
      rw [valBE_cons, hlen, Bool.toNat_true]
      ring

/-- The entry of the complete tree of depth `d` at place `i`, where a leaf weighs `c` and the first key of its level is
`start`. -/
def levelEntry (c start d i : Nat) : Entry := { weight := c * 2 ^ d, key := start + i, tree := completeTree d i }

/-- The `n` entries of one level from place `i` on. -/
def level (c start d i n : Nat) : List Entry := (List.range' i n).map (levelEntry c start d)

section
variable {c start start' d i j m n next fuel : Nat}

@[simp] theorem level_length : (level c start d i n).length = n := by rw [level, List.length_map, List.length_range']

theorem level_succ : level c start d i (n + 1) = levelEntry c start d i :: level c start d (i + 1) n := by
  rw [level, List.range'_succ, List.map_cons, level]

theorem level_concat : level c start d 0 (n + 1) = level c start d 0 n ++ [levelEntry c start d n] := by
  rw [level, List.range'_concat, List.map_append, level, Nat.zero_add, Nat.one_mul, List.map_singleton]

/-- Two neighbours of one level merge to an entry of the next. -/
theorem merged_levelEntry : (levelEntry c start d (2 * j)).merged (levelEntry c start d (2 * j + 1)) (start' + j)
    = levelEntry c start' (d + 1) j := by
  simp only [Entry.merged, levelEntry, completeTree, Entry.mk.injEq, and_self, and_true]
  ring

theorem level_pairwise : (level c start d i n).Pairwise fun x y => x.rank < y.rank := by
  refine List.pairwise_map.mpr ((List.pairwise_lt_range' (s := i) (n := n)).imp fun hlt => ?_)
  exact Entry.rank_lt_iff.mpr (.inr ⟨rfl, Nat.add_lt_add_left hlt start⟩)

/-- A level not yet merged, followed by the next one as far as it is built, is in order. -/
theorem level_append_pairwise (hc : 0 < c) :
    (level c start d i n ++ level c start' (d + 1) 0 j).Pairwise fun x y => x.rank < y.rank := by
  refine List.pairwise_append.mpr ⟨level_pairwise, level_pairwise, fun x hx y hy => Entry.rank_lt_iff.mpr (.inl ?_)⟩
  obtain ⟨_, -, rfl⟩ := List.mem_map.mp hx
  obtain ⟨_, -, rfl⟩ := List.mem_map.mp hy
  exact Nat.mul_lt_mul_of_pos_left (Nat.pow_lt_pow_succ Nat.one_lt_two) hc

/-- A merge takes the first two entries of a level and adds one to the next. -/
theorem mergeOnce_level_append (hc : 0 < c) :
    mergeOnce (level c start d (2 * j) (2 * (m + 1)) ++ level c start' (d + 1) 0 j) (start' + j)
      = some (level c start d (2 * (j + 1)) (2 * m) ++ level c start' (d + 1) 0 (j + 1)) := by
  have horder := level_append_pairwise (start := start) (start' := start') (d := d) (i := 2 * j) (n := 2 * (m + 1)) (j := j) hc
  rw [Nat.mul_succ 2 m, level_succ, level_succ, List.cons_append, List.cons_append] at horder ⊢
  rw [mergeOnce_of_pairwise _ horder, merged_levelEntry, List.append_assoc, ← level_concat, Nat.add_assoc, ← Nat.mul_succ]

/-- The merges of the rest of a level complete the next one. -/
theorem mergeAll_level_append (hc : 0 < c) (hfuel : 2 * m + j ≤ fuel) :
    mergeAll fuel (level c start d (2 * j) (2 * m) ++ level c start' (d + 1) 0 j) (start' + j)
      = mergeAll fuel (level c start' (d + 1) 0 (j + m)) (start' + (j + m)) := by
  induction m generalizing j with
  | zero => rfl
  | succ m ih =>
    have hlen : (level c start d (2 * j) (2 * (m + 1)) ++ level c start' (d + 1) 0 j).length ≤ fuel := by
      rwa [List.length_append, level_length, level_length]
    rw [mergeAll_of_mergeOnce hlen (mergeOnce_level_append hc), Nat.add_assoc start', ih (by omega), Nat.add_assoc,
      Nat.add_comm 1 m]

/-- A whole level of `2 ^ h` entries is merged to the complete tree above it. -/
theorem mergeAll_level {h : Nat} (hc : 0 < c) (hfuel : 2 ^ h ≤ fuel) :
    mergeAll fuel (level c start d 0 (2 ^ h)) (start + 2 ^ h) = some (completeTree (d + h) 0) := by
  induction h generalizing start d with
  | zero => exact mergeAll_singleton _ _ _
  | succ h ih =>
    rw [pow_succ, Nat.mul_comm] at hfuel ⊢
    have hround := mergeAll_level_append (m := 2 ^ h) (j := 0) (start := start) (start' := start + 2 * 2 ^ h) (d := d) hc hfuel
    rw [Nat.zero_add] at hround
    calc mergeAll fuel (level c start d 0 (2 * 2 ^ h)) (start + 2 * 2 ^ h)
        = mergeAll fuel (level c (start + 2 * 2 ^ h) (d + 1) 0 (2 ^ h)) (start + 2 * 2 ^ h + 2 ^ h) := by
          simpa [level] using hround
      _ = some (completeTree (d + 1 + h) 0) := ih (by omega)
      _ = some (completeTree (d + (h + 1)) 0) := by rw [Nat.add_assoc, Nat.add_comm 1 h]

/-- With equal counts the initial store is the level of all the leaves. -/
theorem initialQueue_replicate (hc : 0 < c) : initialQueue (List.replicate 256 c) = level c 0 0 0 256 := by
  rw [initialQueue_eq, level, ← List.range_eq_range', ← List.filterMap_eq_map]
  refine List.filterMap_congr fun s hs => initialEntry_eq_some.mpr ⟨c, ?_, hc, ?_⟩
  · exact List.getElem?_replicate_of_lt (List.mem_range.mp hs)
  · simp [levelEntry, completeTree]

theorem buildTree_replicate (hc : 0 < c) : buildTree (List.replicate 256 c) = some (completeTree 8 0) := by
  rw [buildTree, initialQueue_replicate hc, level_length]
  exact mergeAll_level (h := 8) (start := 0) (d := 0) hc le_rfl

end

/-- Settles O48: the tree is complete, and a path in it writes the place of its leaf. -/
theorem equalCountsGiveEightBitCodes : Obligations.EqualCountsGiveEightBitCodes := by
  intro c tree hc hbuild b
  obtain ⟨hmem, hleads⟩ := codesLeadToTheirLeaves tree (buildTree_symbols_nodup hbuild) b
  have hb : b ∈ tree.symbols :=
    (mem_buildTree_symbols hbuild).mpr ⟨c, List.getElem?_replicate_of_lt b.isLt, hc⟩
  obtain ⟨code, hcode⟩ := hmem.mp hb
  have hfollow := hleads code hcode
  rw [buildTree_replicate hc] at hbuild
  cases hbuild
  obtain ⟨hlen, hplace⟩ := follow_completeTree hfollow
  rw [Nat.zero_mul, Nat.zero_add] at hplace
  rw [hcode, hplace, bitsBE_ofNat_valBE hlen]

end Sys2Proof.Machine
end

section
/-! PROOFS. The tree serializer and deserializer (41_tree_codec.md R80-R86): the bits of a tree, the parse that reads exactly
those bits back, and the encoding of COMPRESS (43_encoder.md R92, R95), which no input makes fail. -/

namespace Sys2Proof.Machine

/-! ### The size of a serialized tree -/

theorem serializedLength_succ (t : PrefixTree) : serializedLength t + 1 = 10 * t.leaves := by
  rw [serializedLength_eq]
  have := t.internals_succ
  omega

/-- Settles O49: the recursions of Serialize and SerializedLength agree, and a tree has one internal node less than leaves. -/
theorem serializedLengthCountsTheBits : Obligations.SerializedLengthCountsTheBits := by
  refine ⟨fun t => ⟨(serialize_length t).symm, serializedLength_eq t, ?tenBitsALeaf⟩,
    fun _ _ h => buildTree_serializedLength_le h⟩
  exact Nat.eq_sub_of_add_eq (serializedLength_succ t)

theorem checkTreeSize_error {t : Nat} (h : 65535 < t) : checkTreeSize t = .error .treeTooLarge := by
  rw [checkTreeSize, if_pos h]

/-! ### COMPRESS fails on no input -/

/-- EncodeData meets no LogicError when every byte has a code (43_encoder.md R92). -/
theorem exists_encodeSymbols {codes : CodeTable} {data : Bytes}
    (h : ∀ b ∈ data, ∃ code, mapGet b.toNat codes = some code) : ∃ d, encodeSymbols codes data = .ok d := by
  induction data with
  | nil => exact ⟨[], rfl⟩
  | cons b data ih =>
    obtain ⟨code, hcode⟩ := h b List.mem_cons_self
    obtain ⟨rest, hrest⟩ := ih fun c hc => h c (List.mem_cons_of_mem _ hc)
    exact ⟨code ++ rest, by simp only [encodeSymbols, hcode, hrest]; rfl⟩

theorem mem_symbols_of_mem_data {data : Bytes} {tree : PrefixTree} (htree : buildTree (freqCount data) = some tree)
    {b : Byte} (hb : b ∈ data) : b ∈ tree.symbols :=
  (mem_buildTree_symbols htree).mpr ⟨data.count b, freqCount_getElem? data b, List.count_pos_iff.mpr hb⟩

theorem exists_encodeData {data : Bytes} {tree : PrefixTree} (htree : buildTree (freqCount data) = some tree) :
    ∃ d, encodeData data tree (genCodes tree) = .ok d := by
  cases tree with
  | leaf s => exact ⟨_, rfl⟩
  | internal l r =>
    exact exists_encodeSymbols fun b hb => exists_mapGet_genCodesFrom (mem_symbols_of_mem_data htree hb) [] []

theorem exists_buildTree_freqCount {data : Bytes} (hne : data ≠ []) : ∃ tree, buildTree (freqCount data) = some tree := by
  obtain ⟨b, hb⟩ := List.exists_mem_of_ne_nil data hne
  exact exists_buildTree (freqCount_length data)
    ⟨data.count b, List.mem_of_getElem? (freqCount_getElem? data b), List.count_pos_iff.mpr hb⟩

/-- Settles O50: an input has a tree, each of its bytes has a code, and the tree is small enough. -/
theorem compressNeverFails : Obligations.CompressNeverFails := by
  refine ⟨fun t => ⟨fun h => ?tooLarge, checkTreeSize_error⟩, fun t => ⟨fun h => ?small, checkTreeSize_ok⟩, fun data => ?run⟩
  case tooLarge =>
    by_contra hle
    rw [checkTreeSize_ok (Nat.not_lt.mp hle)] at h
    cases h
  case small =>
    by_contra hlt
    rw [checkTreeSize_error (Nat.not_le.mp hlt)] at h
    cases h
  case run =>
    by_cases hne : data = []
    · exact ⟨[], hne ▸ compress_nil⟩
    · obtain ⟨tree, htree⟩ := exists_buildTree_freqCount hne
      obtain ⟨d, hd⟩ := exists_encodeData htree
      exact ⟨_, compress_eq hne htree hd⟩

/-! ### The parse -/

theorem parseNode_leaf_append (fuel : Nat) (s : Byte) (rest : Bits) :
    parseNode (fuel + 1) (serialize (.leaf s) ++ rest) = .ok (.leaf s, rest) := by
  have hlen : (bitsBE s.toNat 8).length = 8 := bitsBE_length _ _
  rw [serialize, List.cons_append, parseNode, if_neg (by rw [List.length_append]; omega), List.take_left' hlen,
    List.drop_left' hlen, byteBE_bitsBE]

/-- The parse reads a serialized tree back, with fuel for each of its levels, and leaves the bits after it. -/
theorem parseNode_serialize_append {fuel : Nat} {t : PrefixTree} (hfuel : t.depth < fuel) (rest : Bits) :
    parseNode fuel (serialize t ++ rest) = .ok (t, rest) := by
  induction t generalizing fuel rest with
  | leaf s =>
    obtain ⟨fuel, rfl⟩ := Nat.exists_eq_add_one_of_ne_zero (Nat.ne_zero_of_lt hfuel)
    exact parseNode_leaf_append fuel s rest
  | internal l r ihl ihr =>
    obtain ⟨fuel, rfl⟩ := Nat.exists_eq_add_one_of_ne_zero (Nat.ne_zero_of_lt hfuel)
    rw [PrefixTree.depth] at hfuel
    simp only [serialize, List.cons_append, List.append_assoc, parseNode, ihl (show l.depth < fuel by omega),
      ihr (show r.depth < fuel by omega), bind, Except.bind]
    rfl

/-- What the parse takes is the serialization of the tree it gives. -/
theorem eq_serialize_append_of_parseNode {fuel : Nat} {bits rest : Bits} {t : PrefixTree}
    (h : parseNode fuel bits = .ok (t, rest)) : bits = serialize t ++ rest := by
  induction fuel generalizing bits t rest with
  | zero => cases h
  | succ fuel ih =>
    match bits with
    | [] => cases h
    | true :: bits =>
      rw [parseNode] at h
      split at h
      case isTrue => cases h
      case isFalse hlen =>
        cases h
        rw [serialize, bitsBE_byteBE _ (by rw [List.length_take]; omega), List.cons_append, List.take_append_drop]
    | false :: bits =>
      obtain ⟨l, r, mid, hl, hr, rfl⟩ := parseNode_internal_ok h
      rw [ih hl, ih hr, serialize, List.cons_append, List.append_assoc]

/-! ### Deserialize -/

theorem deserialize_of_parseNode_ok {bits rest : Bits} {t : PrefixTree}
    (h : parseNode (bits.length + 1) bits = .ok (t, rest)) :
    deserialize bits = if rest = [] then .ok t else .error .malformedTree := by
  simp only [deserialize, h, bind, Except.bind]
  rfl

/-- The only error of the parse is MalformedTree, as its run on the machine shows. -/
theorem deserialize_of_parseNode_error {bits : Bits} {e : ErrorKind} (h : parseNode (bits.length + 1) bits = .error e) :
    deserialize bits = .error .malformedTree := by
  obtain ⟨rfl, -⟩ := parseNode_error_reaches (d := []) h (Nat.lt_succ_self _) (List.nil_append bits).symm []
  simp only [deserialize, h, bind, Except.bind]

/-- The levels of a tree are fewer than its bits, so the fuel of Deserialize is enough. -/
theorem deserialize_serialize (t : PrefixTree) : deserialize (serialize t) = .ok t := by
  have hfuel : t.depth < (serialize t).length + 1 := by
    rw [serialize_length, serializedLength_succ]
    have := t.depth_lt_leaves
    omega
  have hparse := parseNode_serialize_append hfuel []
  rw [List.append_nil] at hparse
  rw [deserialize_of_parseNode_ok hparse, if_pos rfl]

/-- Any bits are a tree's and give that tree, or are no tree's and are MalformedTree (41_tree_codec.md R83). -/
theorem deserialize_cases (bits : Bits) : (∃ t, deserialize bits = .ok t ∧ serialize t = bits)
    ∨ (deserialize bits = .error .malformedTree ∧ ∀ t, serialize t ≠ bits) := by
  have hnone : deserialize bits = .error .malformedTree → ∀ t, serialize t ≠ bits := by
    rintro hbad t rfl
    rw [deserialize_serialize] at hbad
    cases hbad
  cases h : parseNode (bits.length + 1) bits with
  | error e =>
    have hbad := deserialize_of_parseNode_error h
    exact .inr ⟨hbad, hnone hbad⟩
  | ok parsed =>
    obtain ⟨t, rest⟩ := parsed
    have hdes := deserialize_of_parseNode_ok h
    by_cases hrest : rest = []
    · rw [if_pos hrest] at hdes
      exact .inl ⟨t, hdes, by rw [eq_serialize_append_of_parseNode h, hrest, List.append_nil]⟩
    · rw [if_neg hrest] at hdes
      exact .inr ⟨hdes, hnone hdes⟩

theorem serialize_of_deserialize {bits : Bits} {t : PrefixTree} (h : deserialize bits = .ok t) : serialize t = bits := by
  rcases deserialize_cases bits with ⟨t', hok, ht'⟩ | ⟨hbad, -⟩
  · cases hok.symm.trans h
    exact ht'
  · cases hbad.symm.trans h

/-- Settles O51: the parse reads back exactly what Serialize writes. -/
theorem deserializeInvertsSerialize : Obligations.DeserializeInvertsSerialize :=
  ⟨fun _ t _ => deserialize_serialize t, fun _ _ => serialize_of_deserialize⟩

/-- Settles O52: the field is the tree's serialization, so its length counts the leaves, and these bound the rest. -/
theorem deserializerCapacityIsNeverExceeded : Obligations.DeserializerCapacityIsNeverExceeded := by
  intro bits t hlen h
  have hbits := serializedLength_succ t
  rw [← serialize_length, serialize_of_deserialize h] at hbits
  have hinternals := t.internals_succ
  have hdepth := t.depth_lt_leaves
  omega

/-! ### Bits that hold no node -/

theorem decodeNode_of_short {bits rest : Bits} (h : bits = true :: rest) (hlen : rest.length < 8) :
    decodeNode bits = .error .shortLeaf := by
  rw [h, decodeNode, if_pos hlen]

/-- Settles O60: the decoder finds no node in such bits, and the whole parse has no other outcome. -/
theorem deserializeFailsOnlyWithMalformedTree : Obligations.DeserializeFailsOnlyWithMalformedTree := by
  refine ⟨fun s l tb cursor stack d hc hend => ?noNode, deserialize_cases⟩
  rcases hend with hpast | ⟨rest, hleaf, hlen⟩
  · have hnone : decodeNode (tb.drop cursor) = .error .noMarker := by rw [List.drop_eq_nil_of_le hpast, decodeNode]
    exact workStep_treeError hnone s l hc
  · exact workStep_treeError (decodeNode_of_short hleaf hlen) s l hc

end Sys2Proof.Machine
end

section
/-! PROOFS. The length of the encoded data (43_encoder.md R92; 45_command_interface.md R112), and the short inputs, which no
frame makes shorter (43_encoder.md R94). -/

namespace Sys2Proof.Machine

/-! ### The length of the encoded data -/

/-- Where the encoding of an input succeeds, its first byte's code word comes first, then the encoding of the others. -/
theorem encodeSymbols_cons_ok {codes : CodeTable} {b : Byte} {data : Bytes} {d : Bits}
    (h : encodeSymbols codes (b :: data) = .ok d) :
    ∃ code rest, mapGet b.toNat codes = some code ∧ encodeSymbols codes data = .ok rest ∧ d = code ++ rest := by
  rw [encodeSymbols] at h
  split at h
  · cases h
  · rename_i code hcode
    cases hrest : encodeSymbols codes data with
    | error e => rw [hrest] at h; cases h
    | ok rest =>
      rw [hrest] at h
      cases h
      exact ⟨code, rest, hcode, rfl, rfl⟩

/-- Bounds on the length of a table's code words bound the bits they take for each byte. -/
theorem encodeSymbols_length {codes : CodeTable} {shortest longest : Nat} {data : Bytes} {d : Bits}
    (hcodes : ∀ e ∈ codes, shortest ≤ e.2.length ∧ e.2.length ≤ longest) (h : encodeSymbols codes data = .ok d) :
    shortest * data.length ≤ d.length ∧ d.length ≤ longest * data.length := by
  induction data generalizing d with
  | nil => cases h; exact ⟨Nat.le_refl _, Nat.zero_le _⟩
  | cons b data ih =>
    obtain ⟨code, rest, hcode, hrest, rfl⟩ := encodeSymbols_cons_ok h
    have hcodeLength : shortest ≤ code.length ∧ code.length ≤ longest := hcodes _ (mem_of_mapGet hcode)
    obtain ⟨hge, hle⟩ := ih hrest
    rw [List.length_append, List.length_cons, Nat.mul_succ, Nat.mul_succ]
    omega

theorem PrefixTree.two_le_leaves_internal (l r : PrefixTree) : 2 ≤ (PrefixTree.internal l r).leaves :=
  Nat.add_le_add l.leaves_pos r.leaves_pos

/-- Settles O54: one bit a byte in single-leaf mode, else code words of 1 to 255 bits. -/
theorem encodedDataHasABitForEachByte : Obligations.EncodedDataHasABitForEachByte := by
  intro data tree htree
  obtain ⟨d, hd⟩ := exists_encodeData htree
  refine ⟨d, hd, ?_⟩
  cases tree with
  | leaf s =>
    cases hd
    rw [List.length_replicate]
    exact ⟨Nat.le_refl _, Nat.le_mul_of_pos_left _ (by decide), fun _ => rfl⟩
  | internal l r =>
    have htwo := PrefixTree.two_le_leaves_internal l r
    obtain ⟨hcodes, -⟩ := codeLengthsFillTheCodeSpace _ _ (freqCount_length data) htree htwo
    have hbounds : ∀ e ∈ genCodes (.internal l r), 1 ≤ e.2.length ∧ e.2.length ≤ 255 := fun e he =>
      (hcodes e he).imp_right And.right
    obtain ⟨hge, hle⟩ := encodeSymbols_length hbounds hd
    exact ⟨Nat.one_mul data.length ▸ hge, hle, fun hone => by omega⟩

/-! ### Short inputs -/

theorem nine_le_serializedLength (t : PrefixTree) : 9 ≤ serializedLength t := by
  have hbits := serializedLength_succ t
  have hleaves := t.leaves_pos
  omega

/-- Settles O56: the header and the smallest tree are 25 bits, so with its trailer a compressed frame has 5 bytes or more. -/
theorem shortInputsAreStored : Obligations.ShortInputsAreStored := by
  intro data hne hshort
  obtain ⟨tree, htree⟩ := exists_buildTree_freqCount hne
  obtain ⟨d, hd⟩ := exists_encodeData htree
  obtain ⟨-, hforms, -⟩ := compressedLengthLaws data
  obtain ⟨-, hstored⟩ := hforms tree d _ hne htree hd rfl
  have htreeBits := nine_le_serializedLength tree
  exact hstored (by omega)

end Sys2Proof.Machine
end

section
/-! PROOFS. The walk over the data bits (44_decoder.md R99): one bit on the machine, whole code words, and the length of
what DECOMPRESS answers (R101). -/

namespace Sys2Proof.Machine

/-! ### One data bit -/

/-- A leaf reached emits its symbol, and the cursor is the root again. -/
theorem walkBit_leaf_child {a b left right : PrefixTree} {x : Bool} {sym : Byte} (depth : Nat)
    (h : (if x then right else left) = .leaf sym) :
    walkBit (.internal a b) (.internal left right) depth x = .ok (.internal a b, 0, [sym]) := by
  simp only [walkBit, h]

theorem walkBit_internal_child {a b left right left' right' : PrefixTree} {x : Bool} (depth : Nat)
    (h : (if x then right else left) = .internal left' right') :
    walkBit (.internal a b) (.internal left right) depth x = .ok (.internal left' right', depth + 1, []) := by
  simp only [walkBit, h]

theorem walkBit_error {tree cur : PrefixTree} {depth : Nat} {x : Bool} {e : ErrorKind}
    (h : walkBit tree cur depth x = .error e) : e = .corruptStream := by
  unfold walkBit at h
  split at h
  · split at h <;> cases h
    rfl
  · split at h
    · cases h
      rfl
    · split at h <;> cases h

/-- The instruction a data bit decodes to. -/
def dataInstr : Bool → Instr
  | false => .dataLeft
  | true => .dataRight

/-- A data instruction runs the bit it decodes from. -/
theorem exec_dataInstr (x : Bool) (s : State) : exec (dataInstr x) s = onWork s (walkWork x) := by
  cases x <;> rfl

section
variable {s : State} {l : Latch} {tree cur : PrefixTree} {depth pos : Nat} {d : Bits} {out : Bytes}

theorem exec_dataInstr_ok (hc : s.core = .busy l (.walk tree cur depth d pos out)) {x : Bool} {cur' : PrefixTree}
    {depth' : Nat} {emitted : Bytes} (hbit : walkBit tree cur depth x = .ok (cur', depth', emitted)) :
    exec (dataInstr x) s = .next (s.setWork l (.walk tree cur' depth' d (pos + 1) (out ++ emitted))) := by
  rw [exec_dataInstr]
  exact onWork_next hc (by simp only [walkWork, hbit])

theorem exec_dataInstr_error (hc : s.core = .busy l (.walk tree cur depth d pos out)) {x : Bool} {e : ErrorKind}
    (hbit : walkBit tree cur depth x = .error e) :
    exec (dataInstr x) s = .next (s.setWork l (.finished (.error e))) := by
  rw [exec_dataInstr]
  exact onWork_next hc (by simp only [walkWork, hbit])

/-- A bit towards a leaf, on the machine. -/
theorem exec_dataInstr_leaf_child {a b left right : PrefixTree} {x : Bool} {sym : Byte}
    (hc : s.core = .busy l (.walk (.internal a b) (.internal left right) depth d pos out))
    (h : (if x then right else left) = .leaf sym) :
    exec (dataInstr x) s
      = .next (s.setWork l (.walk (.internal a b) (.internal a b) 0 d (pos + 1) (out ++ [sym]))) :=
  exec_dataInstr_ok hc (walkBit_leaf_child depth h)

/-- A bit towards an internal node, on the machine: nothing is emitted. -/
theorem exec_dataInstr_internal_child {a b left right left' right' : PrefixTree} {x : Bool}
    (hc : s.core = .busy l (.walk (.internal a b) (.internal left right) depth d pos out))
    (h : (if x then right else left) = .internal left' right') :
    exec (dataInstr x) s
      = .next (s.setWork l (.walk (.internal a b) (.internal left' right') (depth + 1) d (pos + 1) out)) := by
  rw [exec_dataInstr_ok hc (walkBit_internal_child depth h), List.append_nil]

end

/-- Settles O13: the cases of one bit of the walk, each run by the instruction the bit decodes to. -/
theorem dataBitsWalkTheTree : Obligations.DataBitsWalkTheTree := by
  intro s l tree cur depth d pos out hc
  refine ⟨?singleLeaf, ?larger⟩
  case singleLeaf =>
    rintro sym rfl
    exact ⟨exec_dataInstr_ok (x := false) hc rfl, exec_dataInstr_error (x := true) hc rfl⟩
  case larger =>
    rintro a b rfl
    refine ⟨?nullChild, ?child⟩
    case nullChild =>
      rintro sym rfl
      exact ⟨exec_dataInstr_error (x := false) hc rfl, exec_dataInstr_error (x := true) hc rfl⟩
    case child =>
      rintro left right rfl
      exact ⟨fun _ hleaf => exec_dataInstr_leaf_child (x := false) hc hleaf,
        fun _ _ hnode => hnode ▸ exec_dataInstr_internal_child (x := false) hc hnode,
        fun _ hleaf => exec_dataInstr_leaf_child (x := true) hc hleaf,
        fun _ _ hnode => hnode ▸ exec_dataInstr_internal_child (x := true) hc hnode⟩

/-! ### Paths and code words -/

theorem walkFrom_cons_ok {tree cur cur' : PrefixTree} {depth depth' : Nat} {x : Bool} {emitted : Bytes}
    (h : walkBit tree cur depth x = .ok (cur', depth', emitted)) (d : Bits) (out : Bytes) :
    walkFrom tree cur depth (x :: d) out = walkFrom tree cur' depth' d (out ++ emitted) := by
  simp only [walkFrom, h]

theorem walkFrom_cons_error {tree cur : PrefixTree} {depth : Nat} {x : Bool} {e : ErrorKind}
    (h : walkBit tree cur depth x = .error e) (d : Bits) (out : Bytes) :
    walkFrom tree cur depth (x :: d) out = .error e := by
  simp only [walkFrom, h]

/-- The walk along a path from an internal cursor to an internal node emits nothing and counts the path's bits. -/
theorem walkFrom_path {a b left right left' right' : PrefixTree} {path : Bits}
    (h : (PrefixTree.internal left right).follow path = some (.internal left' right')) (depth : Nat) (rest : Bits)
    (out : Bytes) :
    walkFrom (.internal a b) (.internal left right) depth (path ++ rest) out
      = walkFrom (.internal a b) (.internal left' right') (depth + path.length) rest out := by
  induction path generalizing left right depth with
  | nil =>
    cases h
    rfl
  | cons x path ih =>
    cases hchild : (if x then right else left) with
    | leaf sym =>
      rw [PrefixTree.follow, hchild] at h
      obtain ⟨-, hleaf⟩ := PrefixTree.follow_leaf h
      cases hleaf
    | internal left₁ right₁ =>
      rw [PrefixTree.follow, hchild] at h
      rw [List.cons_append, walkFrom_cons_ok (walkBit_internal_child depth hchild), List.append_nil, ih h,
        List.length_cons, Nat.add_right_comm, Nat.add_assoc]

/-- The walk along a path from an internal cursor to a leaf emits the leaf's symbol and is at the root again. -/
theorem walkFrom_code {a b left right : PrefixTree} {code : Bits} {sym : Byte}
    (h : (PrefixTree.internal left right).follow code = some (.leaf sym)) (depth : Nat) (rest : Bits) (out : Bytes) :
    walkFrom (.internal a b) (.internal left right) depth (code ++ rest) out
      = walkFrom (.internal a b) (.internal a b) 0 rest (out ++ [sym]) := by
  induction code generalizing left right depth with
  | nil => cases h
  | cons x code ih =>
    cases hchild : (if x then right else left) with
    | leaf sym' =>
      rw [PrefixTree.follow, hchild] at h
      obtain ⟨rfl, hleaf⟩ := PrefixTree.follow_leaf h
      cases hleaf
      exact walkFrom_cons_ok (walkBit_leaf_child depth hchild) rest out
    | internal left₁ right₁ =>
      rw [PrefixTree.follow, hchild] at h
      rw [List.cons_append, walkFrom_cons_ok (walkBit_internal_child depth hchild), List.append_nil, ih h]

/-- Each bit sequence is the code word of its symbol: its path leads from the root to the symbol's leaf. -/
def PrefixTree.CodeWords (t : PrefixTree) : List Bits → Bytes → Prop :=
  List.Forall₂ fun code sym => t.follow code = some (.leaf sym)

/-- The walk over whole code words emits their symbols. -/
theorem walkFrom_codeWords {a b : PrefixTree} {codes : List Bits} {syms : Bytes}
    (h : (PrefixTree.internal a b).CodeWords codes syms) (rest : Bits) (out : Bytes) :
    walkFrom (.internal a b) (.internal a b) 0 (codes.flatten ++ rest) out
      = walkFrom (.internal a b) (.internal a b) 0 rest (out ++ syms) := by
  induction h generalizing out with
  | nil => rw [List.flatten_nil, List.nil_append, List.append_nil]
  | cons hcode _ ih =>
    rw [List.flatten_cons, List.append_assoc, walkFrom_code hcode, ih, List.append_assoc, List.singleton_append]

theorem walk_codeWords {a b : PrefixTree} {codes : List Bits} {syms : Bytes}
    (h : (PrefixTree.internal a b).CodeWords codes syms) : walk (.internal a b) codes.flatten = .ok syms := by
  have hrun := walkFrom_codeWords h [] []
  rw [List.append_nil] at hrun
  exact hrun

/-- Bits read from an internal node begin with a whole code word or all lie inside one. -/
theorem PrefixTree.follow_front (left right : PrefixTree) (d : Bits) :
    (∃ code rest sym, d = code ++ rest ∧ (internal left right).follow code = some (.leaf sym))
      ∨ ∃ x y, (internal left right).follow d = some (.internal x y) := by
  induction d generalizing left right with
  | nil => exact .inr ⟨left, right, rfl⟩
  | cons x d ih =>
    cases hchild : (if x then right else left) with
    | leaf sym =>
      exact .inl ⟨[x], d, sym, rfl, by rw [follow, hchild, follow]⟩
    | internal left₁ right₁ =>
      rcases ih left₁ right₁ with ⟨code, rest, sym, rfl, hcode⟩ | ⟨y, z, hnode⟩
      · exact .inl ⟨x :: code, rest, sym, rfl, by rw [follow, hchild, hcode]⟩
      · exact .inr ⟨y, z, by rw [follow, hchild, hnode]⟩

/-- The walk along bits that end at an internal node: a success only when there were none. -/
theorem walkFrom_inside {a b x y : PrefixTree} {part : Bits}
    (h : (PrefixTree.internal a b).follow part = some (.internal x y)) (out : Bytes) :
    walkFrom (.internal a b) (.internal a b) 0 part out = walkEnd part.length out := by
  have hrun := walkFrom_path (a := a) (b := b) h 0 [] out
  rwa [List.append_nil, Nat.zero_add] at hrun

theorem walkEnd_ok {depth : Nat} {out res : Bytes} (h : walkEnd depth out = .ok res) : depth = 0 ∧ res = out := by
  unfold walkEnd at h
  split at h
  case isTrue hdepth => exact ⟨hdepth, (Except.ok.inj h).symm⟩
  case isFalse => cases h

/-- A walk that succeeds read whole code words, by induction on the bits left after each. -/
theorem codeWords_of_walkFrom {a b : PrefixTree} {d : Bits} {out res : Bytes}
    (h : walkFrom (.internal a b) (.internal a b) 0 d out = .ok res) :
    ∃ codes syms, codes.flatten = d ∧ (PrefixTree.internal a b).CodeWords codes syms ∧ res = out ++ syms := by
  induction hn : d.length using Nat.strongRecOn generalizing d out with
  | ind n ih =>
    rcases PrefixTree.follow_front a b d with ⟨code, rest, sym, rfl, hcode⟩ | ⟨x, y, hnode⟩
    · have hpos := PrefixTree.length_pos_of_follow_leaf (PrefixTree.two_le_leaves_internal a b) hcode
      have hshorter : rest.length < n := by
        rw [List.length_append] at hn
        omega
      rw [walkFrom_code hcode] at h
      obtain ⟨codes, syms, rfl, hcodes, rfl⟩ := ih rest.length hshorter h rfl
      exact ⟨code :: codes, sym :: syms, rfl, .cons hcode hcodes, by rw [List.append_assoc, List.singleton_append]⟩
    · rw [walkFrom_inside hnode] at h
      obtain ⟨hempty, rfl⟩ := walkEnd_ok h
      exact ⟨[], [], (List.eq_nil_of_length_eq_zero hempty).symm, .nil, (List.append_nil _).symm⟩

theorem walk_internal_ok_iff {a b : PrefixTree} {d : Bits} {out : Bytes} :
    walk (.internal a b) d = .ok out
      ↔ ∃ codes : List Bits, codes.flatten = d ∧ (PrefixTree.internal a b).CodeWords codes out := by
  constructor
  · intro h
    obtain ⟨codes, syms, hbits, hcodes, rfl⟩ := codeWords_of_walkFrom h
    exact ⟨codes, hbits, hcodes⟩
  · rintro ⟨codes, rfl, hcodes⟩
    exact walk_codeWords hcodes

theorem walk_append_inside {a b x y : PrefixTree} {d part : Bits} {out : Bytes} (h : walk (.internal a b) d = .ok out)
    (hpart : part ≠ []) (hnode : (PrefixTree.internal a b).follow part = some (.internal x y)) :
    walk (.internal a b) (d ++ part) = .error .corruptStream := by
  obtain ⟨codes, rfl, hcodes⟩ := walk_internal_ok_iff.mp h
  have hlen : part.length ≠ 0 := mt List.eq_nil_of_length_eq_zero hpart
  rw [walk, walkFrom_codeWords hcodes, walkFrom_inside hnode, walkEnd, if_neg hlen]

/-! ### Single-leaf mode, and the errors of a walk -/

theorem walkFrom_leaf_ok_iff {sym : Byte} {d : Bits} {out res : Bytes} :
    walkFrom (.leaf sym) (.leaf sym) 0 d out = .ok res
      ↔ d = List.replicate d.length false ∧ res = out ++ List.replicate d.length sym := by
  induction d generalizing out with
  | nil => simp [walkEnd, eq_comm]
  | cons x d ih =>
    cases x with
    | true =>
      rw [walkFrom_cons_error rfl]
      simp [List.replicate_succ]
    | false =>
      rw [walkFrom_cons_ok rfl, ih]
      simp [List.replicate_succ]

theorem walk_leaf_ok_iff {sym : Byte} {d : Bits} {out : Bytes} :
    walk (.leaf sym) d = .ok out ↔ d = List.replicate out.length false ∧ out = List.replicate d.length sym := by
  rw [walk, walkFrom_leaf_ok_iff, List.nil_append]
  refine and_congr_left fun hout => ?_
  rw [hout, List.length_replicate]

theorem walkFrom_error {tree cur : PrefixTree} {depth : Nat} {d : Bits} {out : Bytes} {e : ErrorKind}
    (h : walkFrom tree cur depth d out = .error e) : e = .corruptStream := by
  induction d generalizing cur depth out with
  | nil =>
    rw [walkFrom_nil, walkEnd] at h
    split at h <;> cases h
    rfl
  | cons x d ih =>
    cases hbit : walkBit tree cur depth x with
    | error e' =>
      rw [walkFrom_cons_error hbit] at h
      cases h
      exact walkBit_error hbit
    | ok next =>
      rw [walkFrom_cons_ok hbit] at h
      exact ih h

/-- Settles O59: the bits from the root are cut into code words one at a time, until none is left or the rest lies
inside one. -/
theorem walkEndsOnlyAfterWholeCodeWords : Obligations.WalkEndsOnlyAfterWholeCodeWords := by
  refine ⟨fun s l tree cur depth d pos out hc hend => ?machine, fun a b d out => walk_internal_ok_iff,
    fun a b x y d part out => walk_append_inside, fun sym d out => walk_leaf_ok_iff, fun tree d e => walkFrom_error⟩
  have hstep := workStep_walkEnd hend s l hc
  refine ⟨fun hroot => ?_, fun hinside => ?_⟩
  · rw [hstep, walkEnd, if_pos hroot]
    rfl
  · rw [hstep, walkEnd, if_neg hinside]
    rfl

/-! ### The length of the output -/

theorem walkFrom_length_le {tree cur : PrefixTree} {depth : Nat} {d : Bits} {out res : Bytes}
    (h : walkFrom tree cur depth d out = .ok res) : res.length ≤ out.length + d.length := by
  induction d generalizing cur depth out with
  | nil =>
    obtain ⟨-, rfl⟩ := walkEnd_ok h
    exact Nat.le_refl _
  | cons x d ih =>
    cases hbit : walkBit tree cur depth x with
    | error e =>
      rw [walkFrom_cons_error hbit] at h
      cases h
    | ok next =>
      have hemitted := walkBit_emitted hbit
      rw [walkFrom_cons_ok hbit] at h
      have hrest := ih h
      rw [List.length_append] at hrest
      rw [List.length_cons]
      omega

theorem walk_length_le {tree : PrefixTree} {d : Bits} {out : Bytes} (h : walk tree d = .ok out) :
    out.length ≤ d.length := by
  simpa using walkFrom_length_le h

/-- The header and the two regions of a split frame fit in the bytes before its trailer (44_decoder.md R98). -/
theorem splitBody_ok_length {p : Nat} {body : Bytes} {tb d : Bits} (h : splitBody p body = .ok (tb, d)) :
    16 + tb.length + d.length ≤ 8 * body.length := by
  simp only [splitBody, unpack_length, Config.treeSizeWidth] at h
  split at h
  · cases h
  · split at h
    · cases h
    · split at h
      · cases h
      · cases h
        simp only [List.length_take, List.length_drop, unpack_length]
        omega

/-- A compressed frame that decompresses was split, its tree parsed and its data walked (44_decoder.md R100). -/
theorem decompress_compressed_ok {body out : Bytes} {tr : Byte} (hflag : tr.getLsbD 0 = true)
    (h : decompress (body ++ [tr]) = .ok out) :
    ∃ tb d tree, splitBody (tr.extractLsb' 4 4).toNat body = .ok (tb, d) ∧ deserialize tb = .ok tree
      ∧ walk tree d = .ok out := by
  rw [decompress_append_compressed hflag] at h
  cases hsplit : splitBody (tr.extractLsb' 4 4).toNat body with
  | error e =>
    rw [hsplit] at h
    cases h
  | ok regions =>
    obtain ⟨tb, d⟩ := regions
    rw [hsplit] at h
    cases htree : deserialize tb with
    | error e =>
      simp only [Except.bind, htree] at h
      cases h
    | ok tree =>
      simp only [Except.bind, htree] at h
      exact ⟨tb, d, tree, rfl, htree, h⟩

/-- A walked data bit emits at most one byte, and the header and the smallest tree leave 25 bits fewer of them. -/
theorem decompress_compressed_length_le {body out : Bytes} {tr : Byte} (hflag : tr.getLsbD 0 = true)
    (h : decompress (body ++ [tr]) = .ok out) : out.length ≤ 8 * body.length - 25 := by
  obtain ⟨tb, d, tree, hsplit, htree, hwalk⟩ := decompress_compressed_ok hflag h
  have htb := nine_le_serializedLength tree
  rw [← serialize_length, serialize_of_deserialize htree] at htb
  have hregions := splitBody_ok_length hsplit
  have hout := walk_length_le hwalk
  omega

theorem decompress_stored_length {body out : Bytes} {tr : Byte} (hflag : tr.getLsbD 0 = false)
    (h : decompress (body ++ [tr]) = .ok out) : out.length = body.length := by
  rw [decompress_append_stored hflag] at h
  cases h
  rfl

/-- Settles O57: the bound of each frame kind, by the flag of the last byte. -/
theorem decompressedLengthBound : Obligations.DecompressedLengthBound := by
  intro frame out h
  rcases frame.eq_nil_or_concat' with rfl | ⟨body, tr, rfl⟩
  · cases h
    simp
  have hlen : (body ++ [tr]).length - 1 = body.length := by simp
  rw [hlen, List.getLast?_concat]
  refine ⟨?stored, ?compressed, ?either⟩
  case stored =>
    rintro _ ⟨⟩ hflag
    exact decompress_stored_length hflag h
  case compressed =>
    rintro _ ⟨⟩ hflag
    exact decompress_compressed_length_le hflag h
  case either =>
    cases hflag : tr.getLsbD 0 with
    | false =>
      have := decompress_stored_length hflag h
      omega
    | true =>
      have := decompress_compressed_length_le hflag h
      omega

end Sys2Proof.Machine
end

section
/-! PROOFS. The round trip (44_decoder.md R102): DECOMPRESS gives back every input of COMPRESS, as functions of bytes
and as commands through the buffers (45_command_interface.md R103-R110). -/

namespace Sys2Proof.Machine

/-! ### The encoded data -/

/-- The encoding of an input is the code words of its bytes. -/
theorem codeWords_of_encodeSymbols {tree : PrefixTree} {data : Bytes} {d : Bits}
    (h : encodeSymbols (genCodes tree) data = .ok d) :
    ∃ codes : List Bits, codes.flatten = d ∧ tree.CodeWords codes data := by
  induction data generalizing d with
  | nil =>
    cases h
    exact ⟨[], rfl, .nil⟩
  | cons b data ih =>
    obtain ⟨code, rest, hcode, hrest, rfl⟩ := encodeSymbols_cons_ok h
    obtain ⟨sym, hsym, hfollow⟩ := follow_of_mapGet_genCodes hcode
    obtain rfl := BitVec.eq_of_toNat_eq hsym
    obtain ⟨codes, rfl, hcodes⟩ := ih hrest
    exact ⟨code :: codes, rfl, .cons hfollow hcodes⟩

section
variable {tree : PrefixTree} {data : Bytes} (hdata : ∀ b ∈ data, b ∈ tree.symbols)
include hdata

theorem exists_encodeData_of_symbols : ∃ d, encodeData data tree (genCodes tree) = .ok d := by
  cases tree with
  | leaf s => exact ⟨_, rfl⟩
  | internal l r => exact exists_encodeSymbols fun b hb => exists_mapGet_genCodesFrom (hdata b hb) [] []

/-- The walk gives the encoded data back (44_decoder.md R99, 43_encoder.md R92). -/
theorem walk_encodeData {d : Bits} (h : encodeData data tree (genCodes tree) = .ok d) : walk tree d = .ok data := by
  cases tree with
  | leaf s =>
    cases h
    rw [walk_leaf_ok_iff, List.length_replicate]
    exact ⟨rfl, List.eq_replicate_of_mem fun b hb => List.mem_singleton.mp (hdata b hb)⟩
  | internal l r =>
    obtain ⟨codes, rfl, hcodes⟩ := codeWords_of_encodeSymbols h
    exact walk_codeWords hcodes

end

/-! ### The frame -/

theorem pack_pad_le (bits : Bits) : (pack bits).2 ≤ 7 := (padCount_spec bits.length).1

/-- The split of packed bits drops the padding that Pack added. -/
theorem splitBody_pack {hdr : Bits} (hhdr : hdr.length = 16) (rest : Bits) :
    splitBody (pack (hdr ++ rest)).2 (pack (hdr ++ rest)).1 =
      if rest.length < valBE hdr then .error .corruptStream
      else .ok (rest.take (valBE hdr), rest.drop (valBE hdr)) := by
  have hpad := pack_pad_le (hdr ++ rest)
  have hsplit := splitBody_of_unpack (unpack_pack (hdr ++ rest)) hhdr (by rwa [List.length_replicate])
  rw [List.length_replicate] at hsplit
  exact hsplit

/-- The split of a packed frame gives its tree and its data back (43_encoder.md R93, 44_decoder.md R98). -/
theorem splitBody_pack_assembleFrame {tree : PrefixTree} (hsize : serializedLength tree ≤ 65535) (d : Bits) :
    splitBody (pack (assembleFrame (serialize tree) d)).2 (pack (assembleFrame (serialize tree) d)).1
      = .ok (serialize tree, d) := by
  have hheader : valBE (bitsBE (serializedLength tree) 16) = (serialize tree).length := by
    rw [valBE_bitsBE, serialize_length, Nat.mod_eq_of_lt (by omega)]
  rw [assembleFrame_serialize, List.append_assoc, splitBody_pack (bitsBE_length _ _), hheader,
    if_neg (by rw [List.length_append]; omega), List.take_left, List.drop_left]

theorem decompress_compressedFrame {tree : PrefixTree} (hsize : serializedLength tree ≤ 65535) (d : Bits) :
    decompress (compressedFrame tree d) = walk tree d := by
  obtain ⟨-, htrailer, -⟩ := trailersEncodeTheFrameKinds
  obtain ⟨-, hparse⟩ := htrailer _ (pack_pad_le (assembleFrame (serialize tree) d))
  obtain ⟨hflag, hp⟩ := Prod.mk.inj hparse
  rw [compressedFrame, candidate, decompress_append_compressed hflag, hp, splitBody_pack_assembleFrame hsize]
  simp only [Except.bind, deserialize_serialize]

/-- Whichever form FallbackSelect answers, it decompresses to the input. -/
theorem decompress_fallbackSelect {data cand : Bytes} (h : decompress cand = .ok data) :
    decompress (fallbackSelect data cand) = .ok data := by
  rw [fallbackSelect]
  split
  · exact h
  · exact decompress_append_stored rfl data

/-! ### The codec -/

theorem compressWith_eq {data : Bytes} {tree : PrefixTree} {d : Bits} (hsize : serializedLength tree ≤ 65535)
    (hd : encodeData data tree (genCodes tree) = .ok d) :
    compressWith data tree = .ok (fallbackSelect data (compressedFrame tree d)) := by
  have hcheck : checkTreeSize (serialize tree).length = .ok () := checkTreeSize_ok (by rwa [serialize_length])
  simp only [compressWith, hd, hcheck, bind, Except.bind]
  rfl

/-- A tree without repeated symbols has at most 256 leaves, so its serialization fits the header. -/
theorem serializedLength_le_of_nodup {tree : PrefixTree} (hnodup : tree.symbols.Nodup) :
    serializedLength tree ≤ 65535 := by
  have hleaves : tree.leaves ≤ 256 := by
    have hnat : (tree.symbols.map BitVec.toNat).Nodup := hnodup.map fun _ _ => BitVec.eq_of_toNat_eq
    have hsub : tree.symbols.map BitVec.toNat ⊆ List.range 256 := fun k hk => by
      obtain ⟨b, -, rfl⟩ := List.mem_map.mp hk
      exact List.mem_range.mpr b.isLt
    have hle := (hnat.subperm hsub).length_le
    rwa [List.length_map, List.length_range, PrefixTree.symbols_length] at hle
  have hbits := serializedLength_succ tree
  omega

theorem compressWith_roundTrip {data : Bytes} {tree : PrefixTree} (hnodup : tree.symbols.Nodup)
    (hdata : ∀ b ∈ data, b ∈ tree.symbols) :
    ∃ out, compressWith data tree = .ok out ∧ decompress out = .ok data := by
  have hsize := serializedLength_le_of_nodup hnodup
  obtain ⟨d, hd⟩ := exists_encodeData_of_symbols hdata
  have hframe : decompress (compressedFrame tree d) = .ok data := by
    rw [decompress_compressedFrame hsize, walk_encodeData hdata hd]
  exact ⟨_, compressWith_eq hsize hd, decompress_fallbackSelect hframe⟩

theorem compress_of_buildTree {data : Bytes} {tree : PrefixTree} (hne : data ≠ [])
    (htree : buildTree (freqCount data) = some tree) : compress data = compressWith data tree := by
  simp only [compress, if_neg hne, htree]

theorem compress_roundTrip (data : Bytes) : ∃ out, compress data = .ok out ∧ decompress out = .ok data := by
  by_cases hne : data = []
  · subst hne
    exact ⟨[], compress_nil, rfl⟩
  · obtain ⟨tree, htree⟩ := exists_buildTree_freqCount hne
    rw [compress_of_buildTree hne htree]
    exact compressWith_roundTrip (buildTree_symbols_nodup htree) fun b => mem_symbols_of_mem_data htree

/-- Settles O41: the walk reads the code words of the encoder back, and the built tree is one over the input's
symbols. -/
theorem decompressInvertsCompress : Obligations.DecompressInvertsCompress :=
  ⟨fun _ data _ _ => compress_roundTrip data, fun _ _ => compressWith_roundTrip⟩

/-! ### The commands -/

/-- A read whose bytes are all listed gives them. -/
theorem Memory.read_eq_ok {m : Memory} {bs : Bytes} (h : ∀ j, j < bs.length → m.get j = bs[j]?) :
    m.read 0 bs.length = .ok bs := by
  cases hread : m.read 0 bs.length with
  | error k =>
    obtain ⟨⟨-, hk⟩, hnone⟩ := Memory.read_error _ _ _ _ hread
    rw [Nat.zero_add] at hk
    rw [← Memory.get_eq, h k hk, List.getElem?_eq_getElem hk] at hnone
    cases hnone
  | ok bs' =>
    obtain ⟨hlen, hget⟩ := Memory.read_ok _ _ _ _ hread
    congr 1
    refine List.ext_getElem? fun j => ?_
    by_cases hj : j < bs.length
    · rw [← hget j hj, Nat.zero_add, ← Memory.get_eq, h j hj]
    · rw [List.getElem?_eq_none (by omega), List.getElem?_eq_none (by omega)]

/-- The machine reports an output: STATUS 2, and its bytes in OBUF. -/
def State.Reports (s : State) (out : Bytes) : Prop :=
  s.status = 0x00000002#32 ∧ s.outLen.toNat = out.length ∧ ∀ j, s.obuf.get j = out[j]?

/-- A command accepted while IBUF holds its input completes and reports its codec's output (R108). -/
theorem completionStep_accept {s : State} {op : Op} {input out : Bytes} (hp : s.params.Legal)
    (hn : s.inLen.toNat = input.length) (hfits : input.length ≤ s.params.ibufSize)
    (hread : s.ibuf.read 0 input.length = .ok input) (hcodec : codec op input = .ok out)
    (hout : out.length ≤ s.params.obufSize) : ∃ u, completionStep (s.accept op) = .next u ∧ u.Reports out := by
  have hin : (s.accept op).inputIs { op := op, n := s.inLen } input := by
    rw [← hn] at hfits hread
    exact ⟨hfits, hread⟩
  obtain ⟨-, hcompletes⟩ := completionReportsTheResult
  obtain ⟨hok, -⟩ := hcompletes (s.accept op) _ _ input hp rfl hin
  obtain ⟨u, hu, hstatus, hlen, hobuf, -⟩ := hok out hcodec hout
  exact ⟨u, hu, hstatus, hlen, hobuf⟩

theorem exec_compress_idle {s : State} (hb : s.busy = false) : exec .compress s = .next (s.accept .compress) :=
  exec_decodeCmd_compress hb

theorem exec_decompress_idle {s : State} (hb : s.busy = false) : exec .decompress s = .next (s.accept .decompress) :=
  exec_decodeCmd_decompress hb

/-- Settles O42: each command reports its codec's output, and the second reads the first one's. -/
theorem commandsRoundTripThroughTheBuffers : Obligations.CommandsRoundTripThroughTheBuffers := by
  intro s data hp hb hn hfits hroom hread
  obtain ⟨out, hcompress, hdecompress⟩ := compress_roundTrip data
  have hout : out.length ≤ s.params.obufSize := (compress_length_le hcompress).trans hroom
  obtain ⟨u, hu, hstatus, hlen, hobuf⟩ := completionStep_accept (op := .compress) hp hn hfits hread hcompress hout
  refine ⟨_, u, out, exec_compress_idle hb, hu, hstatus, hlen, hobuf, fun s' hb' hparams hn' hfits' hcopy => ?_⟩
  have hread' : s'.ibuf.read 0 out.length = .ok out := Memory.read_eq_ok fun j hj => (hcopy j hj).trans (hobuf j)
  rw [← hparams] at hp hfits' hroom
  have hn'' : s'.inLen.toNat = out.length := by rw [hn', hlen]
  obtain ⟨u', hu', hreport⟩ :=
    completionStep_accept (op := .decompress) hp hn'' hfits' hread' hdecompress ((Nat.le_succ _).trans hroom)
  exact ⟨_, u', exec_decompress_idle hb', hu', hreport⟩

end Sys2Proof.Machine
end

section
/-! PROOFS. The command interface (45_command_interface.md): what a CMD word does while the core is idle and while it is
busy (R103-R105), the errors and output lengths of the codec functions (R106, R107), and the state a command's report
depends on (R111). -/

namespace Sys2Proof.Machine

/-! ### The CMD words -/

theorem whenIdle_busy {s : State} (hb : s.busy = true) (t : State) : whenIdle s t = .next s := if_pos hb

theorem exec_illegalCommand_idle {s : State} (hb : s.busy = false) (op : Word) :
    exec (.illegalCommand op) s = .next s.rejectCommand := if_neg (Bool.not_eq_true _ ▸ hb)

theorem rejectCommand_status (s : State) : s.rejectCommand.status = 0x00000052#32 := by
  rw [State.status, State.rejectCommand_busy, State.rejectCommand_done, State.rejectCommand_err]
  decide

/-- Settles O6: the state of the statement is `State.accept`, and a CMD write runs the decoded word. -/
theorem commandsAreAccepted : Obligations.CommandsAreAccepted := by
  intro s hb
  refine ⟨?compress, ?decompress⟩
  case compress =>
    rintro _ rfl
    exact ⟨exec_compress_idle hb, (busWrite_cmd _ s).trans (exec_decodeCmd_compress hb), s.accept_busy .compress⟩
  case decompress =>
    rintro _ rfl
    exact ⟨exec_decompress_idle hb, (busWrite_cmd _ s).trans (exec_decodeCmd_decompress hb), s.accept_busy .decompress⟩

/-- Settles O7: every command instruction is guarded by `whenIdle`. -/
theorem commandWriteWhileBusyIsIgnored : Obligations.CommandWriteWhileBusyIsIgnored := by
  intro s hb
  exact ⟨fun w => (busWrite_cmd w s).trans (exec_decodeCmd_busy hb w), whenIdle_busy hb (s.accept .compress),
    whenIdle_busy hb (s.accept .decompress), fun _ => whenIdle_busy hb s.rejectCommand⟩

/-- Settles O8: the state of the statement is `State.rejectCommand`. -/
theorem illegalCommandIsReported : Obligations.IllegalCommandIsReported := by
  rintro s op hb h1 h2 _ rfl
  exact ⟨exec_illegalCommand_idle hb op, (busWrite_cmd op s).trans (exec_decodeCmd_illegal hb h1 h2),
    s.rejectCommand_busy, rejectCommand_status s⟩

/-! ### The errors of the codec functions -/

theorem splitBody_error {p : Nat} {body : Bytes} {e : ErrorKind} (h : splitBody p body = .error e) :
    e = .corruptStream := by
  simp only [splitBody] at h
  split at h
  · cases h
    rfl
  · split at h
    · cases h
      rfl
    · split at h <;> cases h
      rfl

/-- The errors of the three parts of Decompress (44_decoder.md R100): the split, the tree, the walk. -/
theorem decompress_error {frame : Bytes} {e : ErrorKind} (h : decompress frame = .error e) :
    e = .malformedTree ∨ e = .corruptStream := by
  rcases frame.eq_nil_or_concat' with rfl | ⟨body, tr, rfl⟩
  · cases h
  cases hflag : tr.getLsbD 0 with
  | false =>
    rw [decompress_append_stored hflag] at h
    cases h
  | true =>
    rw [decompress_append_compressed hflag] at h
    cases hsplit : splitBody (tr.extractLsb' 4 4).toNat body with
    | error e' =>
      rw [hsplit] at h
      cases h
      exact .inr (splitBody_error hsplit)
    | ok regions =>
      rw [hsplit] at h
      rcases deserialize_cases regions.1 with ⟨tree, htree, -⟩ | ⟨htree, -⟩ <;>
        simp only [Except.bind, htree] at h
      · exact .inr (walkFrom_error h)
      · cases h
        exact .inl rfl

/-- COMPRESS has no error, DECOMPRESS the two of a bad frame (60_exceptions.md R117). -/
theorem codec_error {op : Op} {input : Bytes} {e : ErrorKind} (h : codec op input = .error e) :
    e = .malformedTree ∨ e = .corruptStream := by
  cases op with
  | compress =>
    obtain ⟨-, -, hcompress⟩ := compressNeverFails
    obtain ⟨out, hout⟩ := hcompress input
    cases hout.symm.trans h
  | decompress => exact decompress_error h

/-- Neither operation's output is longer than eight times its input, but for the one byte of a stored frame
(45_command_interface.md R112). -/
theorem codec_length_le {op : Op} {input out : Bytes} (h : codec op input = .ok out) :
    out.length ≤ max (input.length + 1) (8 * (input.length - 1)) := by
  cases op with
  | compress => exact le_max_of_le_left (compress_length_le h)
  | decompress =>
    obtain ⟨-, -, -, hlen⟩ := decompressedLengthBound input out h
    exact le_max_of_le_right hlen

/-! ### Completion with an error -/

/-- The length check reads no byte of IBUF (45_command_interface.md R106). -/
theorem completionStep_of_length {s : State} {l : Latch} {w : Work} (hc : s.core = .busy l w)
    (hlen : s.params.ibufSize < l.n.toNat) : completionStep s = .next (s.complete (.error .lengthError)) := by
  simp only [completionStep, hc]
  exact if_pos hlen

theorem complete_overflow {s : State} {out : Bytes} (hout : s.params.obufSize < out.length) :
    s.complete (.ok out) = s.fail .outputOverflow := by
  have hcap : checkCapacity s.params (.ok out) = .error .outputOverflow := if_pos hout
  simp only [State.complete, hcap]

/-- A codec's result overflows OBUF, or ends in success or one of the two codes of a bad frame. -/
theorem complete_codec_err (s : State) (op : Op) (input : Bytes) :
    (∃ out, codec op input = .ok out ∧ s.params.obufSize < out.length
        ∧ s.complete (codec op input) = s.fail .outputOverflow)
      ∨ (s.complete (codec op input)).err ∈ [0#4, 2#4, 3#4] := by
  rcases complete_cases s (codec op input) with ⟨out, -, -, heq⟩ | ⟨out, hcodec, hover, heq⟩ | ⟨e, hcodec, heq⟩
  · rw [heq, State.succeed_err]
    exact .inr (by decide)
  · exact .inl ⟨out, hcodec, hover, heq⟩
  · rw [heq, State.fail_err]
    rcases codec_error hcodec with rfl | rfl <;> exact .inr (by decide)

/-- Settles O15: the length check comes before the read, and no codec function answers LENGTH_ERROR. -/
theorem lengthErrorWithoutReadingInput : Obligations.LengthErrorWithoutReadingInput := by
  intro s l w hc
  refine ⟨fun hlen m => completionStep_of_length (s := { s with ibuf := m }) hc hlen, fun hlen t h => ?within⟩
  rcases completionStep_cases h with ⟨hidle, -⟩ | ⟨l', w', hc', hover, -⟩ | ⟨l', w', input, -, -, -, rfl⟩
  · cases hc.symm.trans hidle
  · cases hc.symm.trans hc'
    exact absurd hlen (Nat.not_le.mpr hover)
  · rcases complete_codec_err s l'.op input with ⟨out, -, -, heq⟩ | hcode
    · rw [heq, State.fail_err]
      decide
    · exact fun h6 => absurd (h6 ▸ hcode) (by decide)

/-- The default OBUF holds the output of every input that the default IBUF holds. -/
theorem codec_length_le_default {op : Op} {input out : Bytes} (hin : input.length ≤ Params.default.ibufSize)
    (h : codec op input = .ok out) : out.length ≤ Params.default.obufSize := by
  have hlen := codec_length_le h
  simp only [Params.default] at hin ⊢
  omega

/-- Settles O16: the completion of each result of the codec, and the length bounds for the default parameters. -/
theorem outputOverflowIsReported : Obligations.OutputOverflowIsReported := by
  intro s l w input hc hin
  rw [completionStep_of_inputIs hc hin]
  refine ⟨fun out hcodec hover => ?overflow, fun e hcodec => ?error, fun hp => ⟨_, rfl, ?default⟩⟩
  case overflow =>
    rw [hcodec, complete_overflow hover]
    exact ⟨_, rfl, rfl, rfl, rfl⟩
  case error =>
    rw [hcodec, complete_error]
    exact ⟨_, rfl, rfl, rfl, rfl⟩
  case default =>
    obtain ⟨hn, hread⟩ := hin
    obtain ⟨hlen, -⟩ := Memory.read_ok _ _ _ _ hread
    rw [← hlen, hp] at hn
    rcases complete_codec_err s l.op input with ⟨out, hcodec, hover, -⟩ | hcode
    · rw [hp] at hover
      exact absurd (codec_length_le_default hn hcodec) (Nat.not_le.mpr hover)
    · exact fun h7 => absurd (h7 ▸ hcode) (by decide)

/-! ### What a command's report depends on -/

/-- A read depends on the bytes in its range only. -/
theorem Memory.read_ok_congr {m m' : Memory} {count : Nat} {bs : Bytes}
    (hget : ∀ i, i < count → m.get i = m'.get i) (h : m.read 0 count = .ok bs) : m'.read 0 count = .ok bs := by
  obtain ⟨rfl, hbytes⟩ := Memory.read_ok _ _ _ _ h
  refine Memory.read_eq_ok fun j hj => ?_
  rw [← hget j hj, Memory.get_eq, ← hbytes j hj, Nat.zero_add]

/-- The completion writes the core and every field of the report, so nothing of the state before it stays there. -/
theorem complete_reportFrame {s t : State} (hp : s.params = t.params) (r : Result) :
    (s.complete r).ReportFrame (t.complete r) := by
  rw [State.complete, State.complete, hp]
  cases checkCapacity t.params r <;> exact ⟨rfl, rfl, rfl, rfl, rfl⟩

theorem State.ReportFrame.status {s t : State} (h : s.ReportFrame t) : t.status = s.status := by
  rw [State.status, State.status, h.busy, h.done, h.err]

/-- Two commands with the same latch, parameters and input bytes complete with one result. -/
theorem completionStep_congr {s1 s2 t1 : State} {l : Latch} {w1 w2 : Work} (hp : s1.params = s2.params)
    (hc1 : s1.core = .busy l w1) (hc2 : s2.core = .busy l w2)
    (hibuf : ∀ i, i < l.n.toNat → s1.ibuf.get i = s2.ibuf.get i) (h : completionStep s1 = .next t1) :
    ∃ r, t1 = s1.complete r ∧ completionStep s2 = .next (s2.complete r) := by
  rcases completionStep_cases h with ⟨hidle, -⟩ | ⟨l', w, hc, hover, rfl⟩ | ⟨l', w, input, hc, hlen, hread, rfl⟩
  · cases hc1.symm.trans hidle
  · cases hc1.symm.trans hc
    exact ⟨_, rfl, completionStep_of_length hc2 (hp ▸ hover)⟩
  · cases hc1.symm.trans hc
    exact ⟨_, rfl, completionStep_of_inputIs hc2 ⟨hp ▸ hlen, Memory.read_ok_congr hibuf hread⟩⟩

/-- Settles O20: both commands complete with one result, and the report is a function of it. -/
theorem commandsAreIndependent : Obligations.CommandsAreIndependent := by
  intro s1 s2 l w1 w2 hp hc1 hc2 hibuf t1 h
  obtain ⟨r, rfl, h2⟩ := completionStep_congr hp hc1 hc2 hibuf h
  have hreport := complete_reportFrame hp r
  exact ⟨_, h2, hreport.status.symm, hreport.outLen.symm, fun j _ => by rw [hreport.obuf]⟩

end Sys2Proof.Machine
end

section
/-! PROOFS. Error entry (60_exceptions.md R118, R121): a completion that reports an error is `State.fail` of a kind that is
not ILLEGAL_COMMAND, and what the host reads after it. -/

namespace Sys2Proof.Machine

/-! ### The kinds a completion reports -/

/-- ILLEGAL_COMMAND is decided at the CMD write (45_command_interface.md R105), so no codec function answers it. -/
theorem codec_ne_illegalCommand (op : Op) (input : Bytes) : codec op input ≠ .error .illegalCommand := by
  intro h
  rcases codec_error h with h' | h' <;> cases h'

theorem complete_of_err_ne_zero {s : State} {r : Result} (hr : r ≠ .error .illegalCommand)
    (herr : (s.complete r).err ≠ 0#4) : ∃ e, e ≠ .illegalCommand ∧ s.complete r = s.fail e := by
  rcases complete_cases s r with ⟨out, -, -, heq⟩ | ⟨out, -, -, heq⟩ | ⟨e, rfl, heq⟩
  · rw [heq] at herr
    exact absurd (State.succeed_err s out) herr
  · exact ⟨.outputOverflow, nofun, heq⟩
  · exact ⟨e, fun he => hr (he ▸ rfl), heq⟩

/-- A running command whose completion reports an error ends in `State.fail`. -/
theorem completionStep_of_err_ne_zero {s t : State} (hb : s.busy = true) (h : completionStep s = .next t)
    (herr : t.err ≠ 0#4) : ∃ e, e ≠ .illegalCommand ∧ t = s.fail e := by
  rcases completionStep_cases h with ⟨hidle, -⟩ | ⟨-, -, -, -, rfl⟩ | ⟨l, -, input, -, -, -, rfl⟩
  · rw [State.busy_of_idle s hidle] at hb
    cases hb
  · exact complete_of_err_ne_zero nofun herr
  · exact complete_of_err_ne_zero (codec_ne_illegalCommand l.op input) herr

theorem ErrorKind.code_of_ne_illegalCommand {e : ErrorKind} (he : e ≠ .illegalCommand) :
    e.code ∈ [1#4, 2#4, 3#4, 4#4, 6#4, 7#4] := by
  cases e with
  | illegalCommand => exact absurd rfl he
  | _ => decide

/-! ### What the host reads after an error -/

/-- The STATUS word of a finished command is its code in bits 7:4 and DONE (10_state.md R18), for each of the 16 codes. -/
theorem statusWord_finished : ∀ err : BitVec 4,
    statusWord false true err = err.setWidth 32 <<< 4 ||| 0x00000002#32 := by
  decide

theorem fail_status (s : State) (e : ErrorKind) :
    (s.fail e).status = e.code.setWidth 32 <<< 4 ||| 0x00000002#32 := by
  rw [State.status, State.fail_busy, State.fail_done, State.fail_err, statusWord_finished]

/-- No byte of OBUF is listed after an error, so each reads as a free draw (10_state.md R26). -/
theorem readTarget_obuf_fail (s : State) (e : ErrorKind) (j : Nat) :
    readTarget (s.fail e) (.obuf j) = ((Config.freeByte (s.fail e).draws).setWidth 32, (s.fail e).draw) := by
  rw [readTarget, State.fail_busy, State.fail_obuf, Memory.get_nil]
  rfl

/-- Settles O17: the state after an error is `State.fail`, and each read is one of it. -/
theorem errorEntrySavesNothingElse : Obligations.ErrorEntrySavesNothingElse := by
  intro s t hb h herr
  obtain ⟨e, he, rfl⟩ := completionStep_of_err_ne_zero hb h herr
  exact ⟨rfl, fail_status s e, busRead_status (s.fail e), ErrorKind.code_of_ne_illegalCommand he,
    readTarget_obuf_fail s e⟩

end Sys2Proof.Machine
end

section
/-! PROOFS. Reset (70_reset_and_hazards.md R131, R132) and the completion of a running command once the plan is empty
(70_reset_and_hazards.md R139). -/

namespace Sys2Proof.Machine

/-! ### After the plan -/

/-- After the plan the core moves while it is BUSY (log 4). -/
theorem nextMove_of_plan_nil_busy {s : State} (hplan : s.plan = []) (hbusy : s.busy = true) :
    s.nextMove = .complete := by
  simp only [State.nextMove, hplan, hbusy, if_true]

/-- The completion waits for nothing but the input: one that is too long is an error, and one that is written goes to the
codec (45_command_interface.md R106, R108). -/
theorem completionStep_enabled {s : State} {l : Latch} {w : Work} (hc : s.core = .busy l w)
    (hin : s.params.ibufSize < l.n.toNat ∨ ∃ input : Bytes, s.inputIs l input) :
    ∃ r : Result, completionStep s = .next (s.complete r) := by
  rcases hin with hlen | ⟨input, hread⟩
  · exact ⟨.error .lengthError, completionStep_of_length hc hlen⟩
  · exact ⟨codec l.op input, completionStep_of_inputIs hc hread⟩

/-- Settles O39: after the plan the next move is the completion, which this command's input enables, and any result it
reports leaves the core IDLE with DONE set. -/
theorem acceptedCommandCompletesAfterThePlan : Obligations.AcceptedCommandCompletesAfterThePlan := by
  intro s l w hplan hc hin
  have hmove : s.nextMove = .complete := nextMove_of_plan_nil_busy hplan (s.busy_of_busy l w hc)
  obtain ⟨r, hr⟩ := completionStep_enabled (s := s.takeMove) hc hin
  have hidle : (s.takeMove.complete r).busy = false := State.busy_of_idle _ (complete_core _ r)
  exact ⟨s.takeMove.complete r, (step_of_nextMove hmove).trans hr, hidle, complete_done _ r⟩

/-! ### Reset -/

/-- Settles O32: the step is the reset move from the state with its plan moved on, and `State.applyReset` gives each
field the value the statement writes out. -/
theorem resetAbandonsTheCommand : Obligations.ResetAbandonsTheCommand := by
  intro s hmove
  have hreset : step s = .next s.takeMove.applyReset := step_of_nextMove hmove
  exact hreset

theorem Params.default_legal : Params.default.Legal := by decide

/-- Settles O33: the buffers are empty, the core is IDLE and no command has finished, so each clause of `State.Inv` is
about empty data or has a premise the reset values rule out. -/
theorem resetHasTheInvariant : Obligations.ResetHasTheInvariant where
  legal := Params.default_legal
  ibufWf := rfl
  ibufWithin := rfl
  obufWf := rfl
  obufWithin := rfl
  busyNotDone := fun _ => rfl
  errNeedsDone := fun _ => rfl
  errCode := Nat.zero_le 7
  errNoOutput := fun he => absurd rfl he
  outLenFits := Nat.zero_le _
  resultStands := fun hd => nomatch hd
  latchIsInLen := fun _ _ hc => nomatch hc
  varsSorted := rfl

end Sys2Proof.Machine
end

section
/-! PROOFS. The place of each unit of the decoder in a running DECOMPRESS, and the refusal away from it (44_decoder.md R98-R100;
log 9). -/

namespace Sys2Proof.Machine

/-! ### The place of a unit -/

/-- The transient states in which a unit has a meaning: a frame of its kind (30_encoding.md R64), the deserializer
(41_tree_codec.md R83) or the walk (44_decoder.md R99). A command word is no unit. -/
def UnitAt (w : Work) : Instr → Prop
  | .compress | .decompress | .illegalCommand _ => False
  | .frameEmpty => w = .frame []
  | .frameStored _ | .frameCompressed _ _ => ∃ input : Bytes, input ≠ [] ∧ w = .frame input
  | .treeInternal | .treeLeaf _ => ∃ tb cursor stack d, w = .tree tb cursor stack d
  | .dataLeft | .dataRight => ∃ tree cur depth d pos out, w = .walk tree cur depth d pos out

/-- The place of a unit by its encoding space, as the statement has it. -/
theorem unitAt_iff (w : Work) (i : Instr) : UnitAt w i ↔
    (i = .frameEmpty ∧ w = .frame [])
      ∨ (i.space = .frame ∧ i ≠ .frameEmpty ∧ ∃ input : Bytes, input ≠ [] ∧ w = .frame input)
      ∨ (i.space = .treeNode ∧ ∃ tb cursor stack d, w = .tree tb cursor stack d)
      ∨ (i.space = .dataBit ∧ ∃ tree cur depth d pos out, w = .walk tree cur depth d pos out) := by
  cases i <;> simp [UnitAt, Instr.space]

/-! ### The refusal -/

/-- An internal operation is refused exactly where the core is not at a transient state it is defined on. -/
theorem onWork_outOfPhase_iff {s : State} {f : Work → Option Work} {P : Work → Prop}
    (hf : ∀ w, (f w).isSome = true ↔ P w) :
    onWork s f = .refused .outOfPhase ↔ ¬ ∃ l w, s.core = .busy l w ∧ P w := by
  cases hc : s.core with
  | idle => simp [onWork, hc]
  | busy l w => cases hw : f w <;> simp [onWork, hc, hw, ← hf]

/-- A data bit has a meaning in the walk, whatever it leads to. -/
theorem walkWork_isSome_iff (b : Bool) (w : Work) : (walkWork b w).isSome = true ↔
    ∃ tree cur depth d pos out, w = .walk tree cur depth d pos out := by
  cases w with
  | walk tree cur depth d pos out => cases hbit : walkBit tree cur depth b <;> simp [walkWork, hbit]
  | _ => simp [walkWork]

/-- A unit is refused exactly away from its place: each kind is an internal operation defined there alone. -/
theorem exec_outOfPhase_iff {i : Instr} (hi : i.space ≠ .cmdWord) (s : State) :
    exec i s = .refused .outOfPhase ↔ ¬ ∃ l w, s.core = .busy l w ∧ UnitAt w i := by
  cases i with
  | compress | decompress | illegalCommand => exact absurd rfl hi
  | frameEmpty | frameStored =>
    refine onWork_outOfPhase_iff fun w => ?_
    cases w with
    | frame input => cases input <;> simp [UnitAt]
    | _ => simp [UnitAt]
  | frameCompressed pad =>
    refine onWork_outOfPhase_iff fun w => ?_
    cases w with
    | frame input =>
      cases input with
      | nil => simp [UnitAt]
      | cons b rest => cases hsplit : splitBody pad.toNat (b :: rest).dropLast <;> simp [UnitAt, hsplit]
    | _ => simp [UnitAt]
  | treeInternal | treeLeaf =>
    refine onWork_outOfPhase_iff fun w => ?_
    cases w <;> simp [UnitAt]
  | dataLeft => exact onWork_outOfPhase_iff (walkWork_isSome_iff false)
  | dataRight => exact onWork_outOfPhase_iff (walkWork_isSome_iff true)

/-- Settles O38: the refusal of a unit, with its place written out by encoding space. -/
theorem unitsAreRefusedAwayFromTheirPlace : Obligations.UnitsAreRefusedAwayFromTheirPlace := by
  intro i s hi
  simpa only [unitAt_iff] using exec_outOfPhase_iff hi s

end Sys2Proof.Machine
end
